-- ==== Sys2Proof/Word.lean ====
section
/-! DEFINITION. The three word widths of the block: a byte of LMEM, a 16-bit operand register, a 32-bit register. -/

namespace Sys2Proof

/-- A byte, the unit of LMEM and of every wire format (00_scope.md R8, 10_state.md R50). -/
abbrev Byte := BitVec 8

/-- A 16-bit value: an operand register, a packet's length field, a descriptor's `voff` (10_state.md R44). -/
abbrev Half := BitVec 16

/-- A 32-bit register of the register window (10_state.md R32). -/
abbrev Word := BitVec 32

end Sys2Proof
end

