-- ==== Sys2Proof/Config.lean ====
section
/-! DEFINITION. What a build of the block fixes (its parameters), and the one value the spec leaves free: what an LMEM
byte holds before anything has written it. -/

namespace Sys2Proof

/-- FREE VALUE (70_reset_and_hazards.md R261, 93_implementation_defined.md U1, U2; log 5): what LMEM address `a` holds
after power-on, until it is written. One draw per address, fixed and read back the same each time. It has no body: no
proof can learn a value of it. -/
opaque Config.powerOnByte : Nat → Byte

/-- The two legal values of LMEM_SIZE (00_scope.md R7). -/
inductive LmemSize where
  | bytes0x4000
  | bytes0x8000
  deriving DecidableEq, Repr

/-- LMEM_SIZE as a number of bytes (00_scope.md R7). -/
def LmemSize.bytes : LmemSize → Nat
  | .bytes0x4000 => 0x4000
  | .bytes0x8000 => 0x8000

/-- The parameters of one build of the block (00_scope.md R7, 93_implementation_defined.md U24, U25; log 4): the size of
LMEM and the host addresses of the two windows. No step changes them. -/
structure Params where
  lmemSize : LmemSize
  regBase  : Nat
  lmemBase : Nat
  deriving DecidableEq, Repr

/-- The parameters `State.reset` carries. LMEM_SIZE is the spec's default (00_scope.md R7). The two bases are OPEN in the
spec: their numbers here are a DESIGN CHOICE (log 4) and no statement rests on them. -/
def Params.default : Params :=
  { lmemSize := .bytes0x8000, regBase := 0x10000, lmemBase := 0x20000 }

/-- The register window is 0x1000 bytes long (10_state.md R32, 20_memory.md R70). -/
def regWindowBytes : Nat := 0x1000

end Sys2Proof
end

