-- ==== Sys2Proof/Syntax.lean ====
section
/-! DEFINITION. Everything that can be said to the block: the eight commands, the registers by name, the host's bus
accesses, the inputs the block receives, and the lines of a host script. -/

namespace Sys2Proof

/-- The commands, one constructor per row of spec/opcode_table.json (30_encoding.md R101). A command word has no operand
field: operands are the operand registers (R100, R103). -/
inductive Instr where
  | attrDecode
  | attrEncode
  | pktDecode
  | pktEncode
  | wireLen
  | pwdHide
  | pwdUnhide
  | respSign
  deriving DecidableEq, Repr

/-- The registers of 10_state.md R32, in the order of their offsets. -/
inductive RegName where
  | ident
  | ctrl
  | cmd
  | status
  | errinfo
  | srcPtr
  | srcLen
  | dstPtr
  | keyPtr
  | keyLen
  | raPtr
  | aux
  | pktHdr
  | pktAuth0
  | pktAuth1
  | pktAuth2
  | pktAuth3
  | res0
  | res1
  | res2
  | digest0
  | digest1
  | digest2
  | digest3
  deriving DecidableEq, Repr

/-- One host access on the bus: a read or a write of `width` bytes at a host address. A write carries its data in the low
`8 * width` bits of `value` (20_memory.md R70 to R73; log 8). -/
inductive HostAccess where
  | read (addr width : Nat)
  | write (addr width : Nat) (value : Word)
  deriving DecidableEq, Repr

/-- One event of the sequence the block sees (20_memory.md R83): a host access, or the engine's turn to commit (log 1). -/
inductive Input where
  | access (a : HostAccess)
  | engine
  deriving DecidableEq, Repr

/-- The lines of a host script (30_encoding.md R110, R111). `wait polls` is the polling loop that reads STATUS with
BUSY = 1 `polls` times before the commit and once after it; `run`'s last argument is that count (log 9). -/
inductive ScriptLine where
  | wr (r : RegName) (v : Word)
  | rd (r : RegName)
  | mwb (a : Nat) (bs : List Byte)
  | mrb (a n : Nat)
  | go (i : Instr)
  | wait (polls : Nat)
  | run (i : Instr) (regs : List (RegName × Word)) (polls : Nat)
  | check
  deriving DecidableEq, Repr

end Sys2Proof
end

