-- ==== Sys2Proof/WellFormed.lean ====
section
/-! DEFINITION. The checks a term of the syntax must pass to be one the spec speaks of. The machine itself runs on every
term: an access that fails its check is ignored and flagged, as 20_memory.md R72 and R73 say. -/

namespace Sys2Proof

/-- A command has no operand and no field to check (30_encoding.md R100): every `Instr` is well formed. -/
def Instr.wellFormed : Instr → Bool
  | .attrDecode | .attrEncode | .pktDecode | .pktEncode
  | .wireLen | .pwdHide | .pwdUnhide | .respSign => true

/-- The registers whose host writes have an effect while the engine is IDLE (10_state.md R32, column "access"; a write to
any other is ignored, R49). -/
def RegName.hostWritable : RegName → Bool
  | .srcPtr | .srcLen | .dstPtr | .keyPtr | .keyLen | .raPtr | .aux => true
  | .pktHdr | .pktAuth0 | .pktAuth1 | .pktAuth2 | .pktAuth3 => true
  | .ctrl | .cmd | .status => true
  | .ident | .errinfo | .res0 | .res1 | .res2 => false
  | .digest0 | .digest1 | .digest2 | .digest3 => false

/-- The two windows of a build do not overlap (20_memory.md R71). -/
def Params.wellFormed (p : Params) : Bool :=
  decide (p.regBase + regWindowBytes ≤ p.lmemBase) || decide (p.lmemBase + p.lmemSize.bytes ≤ p.regBase)

/-- A host access the windows accept: it lies in one window, at a legal width, naturally aligned in the window
(20_memory.md R72, R73; log 6). -/
def HostAccess.wellFormed (p : Params) (a : HostAccess) : Bool :=
  let addr := match a with | .read addr _ => addr | .write addr _ _ => addr
  let width := match a with | .read _ width => width | .write _ width _ => width
  let inReg := decide (p.regBase ≤ addr) && decide (addr < p.regBase + regWindowBytes)
  let inLmem := decide (p.lmemBase ≤ addr) && decide (addr < p.lmemBase + p.lmemSize.bytes)
  (inReg && width == 4 && (addr - p.regBase) % 4 == 0)
    || (!inReg && inLmem && (width == 1 || width == 2 || width == 4) && (addr - p.lmemBase) % width == 0)

/-- An input is well formed when the access it carries is. -/
def Input.wellFormed (p : Params) : Input → Bool
  | .access a => a.wellFormed p
  | .engine => true

/-- DESIGN CHOICE (log 18): which registers and LMEM bytes a script line may name. 30_encoding.md R110 lets WR and RD name
any register of 10_state.md R32 and bounds no LMEM address, and R111 sets no limit on the registers of a RUN. The model
calls a line well formed when WR names a register the host may write, RUN names operand and header registers alone (CTRL,
CMD and STATUS are no operands), and MWB and MRB name LMEM bytes that exist. Every line has its inputs (`scriptInputs`)
and its effect, well formed or not: the check stops nothing. -/
def ScriptLine.wellFormed (p : Params) : ScriptLine → Bool
  | .wr r _ => r.hostWritable
  | .rd _ => true
  | .mwb a bs => decide (a + bs.length ≤ p.lmemSize.bytes)
  | .mrb a n => decide (a + n ≤ p.lmemSize.bytes)
  | .go i => i.wellFormed
  | .wait _ => true
  | .run i regs _ => i.wellFormed &&
      regs.all fun rv => rv.1.hostWritable && rv.1 != .ctrl && rv.1 != .cmd && rv.1 != .status
  | .check => true

end Sys2Proof
end

