-- ==== Sys2Proof/Decode.lean ====
section
/-! DEFINITION. The command word: decoding it, total on any bytes and rejecting by name, and after it the encoder
(30_encoding.md R100 to R102, R109). -/

namespace Sys2Proof

/-- Why a command word stands for no command: its OP is reserved (30_encoding.md R109), or fewer than the four bytes of a
command word are there (R100). -/
inductive DecodeError where
  | reservedOp (op : Byte)
  | truncated (count : Nat)
  deriving DecidableEq, Repr

/-- The opcode map (30_encoding.md R101), read from OP alone; every other code is reserved. -/
def decodeOp (op : Byte) : Except DecodeError Instr :=
  match op.toNat with
  | 0x01 => .ok .attrDecode
  | 0x02 => .ok .attrEncode
  | 0x03 => .ok .pktDecode
  | 0x04 => .ok .pktEncode
  | 0x05 => .ok .wireLen
  | 0x06 => .ok .pwdHide
  | 0x07 => .ok .pwdUnhide
  | 0x08 => .ok .respSign
  | _ => .error (.reservedOp op)

/-- OP is bits 7:0 of the command word; bits 31:8 are reserved and ignored (30_encoding.md R102). -/
def opOfWord (v : Word) : Byte := v.extractLsb' 0 8

/-- Decodes the 32-bit value written to CMD (30_encoding.md R101, R102). -/
def decodeWord (v : Word) : Except DecodeError Instr := decodeOp (opOfWord v)

/-- Decodes a command word from its bytes, bits 7:0 first (the byte lanes of a 4-byte access, 20_memory.md R72; log 13),
and gives the bytes after it. -/
def decodeBytes : List Byte → Except DecodeError (Instr × List Byte)
  | b0 :: _ :: _ :: _ :: rest =>
    match decodeOp b0 with
    | .ok i => .ok (i, rest)
    | .error e => .error e
  | bs => .error (.truncated bs.length)

/-- The command code of each command (30_encoding.md R101). -/
def opcode : Instr → Byte
  | .attrDecode => 0x01#8
  | .attrEncode => 0x02#8
  | .pktDecode => 0x03#8
  | .pktEncode => 0x04#8
  | .wireLen => 0x05#8
  | .pwdHide => 0x06#8
  | .pwdUnhide => 0x07#8
  | .respSign => 0x08#8

/-- The command word a host writes to start a command, its reserved bits 0 (30_encoding.md R102, R111 `GO`). -/
def encode (i : Instr) : Word := 0#24 ++ opcode i

/-- The four bytes of a word, bits 7:0 first (20_memory.md R72). -/
def bytesOfWord (v : Word) : List Byte :=
  [v.extractLsb' 0 8, v.extractLsb' 8 8, v.extractLsb' 16 8, v.extractLsb' 24 8]

/-- The command word's bytes, bits 7:0 first. -/
def encodeBytes (i : Instr) : List Byte := bytesOfWord (encode i)

/-- The instruction the decoder reads from an opcode-table word of `nbits` bits (the host's question; bits above `nbits`
are 0). -/
def decodeTableWord (nbits w : Nat) : Option Instr :=
  match decodeBytes (bytesOfWord (BitVec.ofNat 32 (w % 2 ^ nbits))) with
  | .ok (i, _) => some i
  | .error _ => none

end Sys2Proof
end

