-- ==== Sys2Proof/Machine/State.lean ====
section
/-! DEFINITION. The state of one RADIUS codec block, as plain data: the register file, LMEM, the engine's phase, and the
inputs on their way to it; the reset state; and the reasons a step can stop. -/

namespace Sys2Proof.Machine

/-- The engine's phase (10_state.md R51). -/
inductive Phase where
  | idle
  | busy
  deriving DecidableEq, Repr

/-- LMEM as the list of the bytes that have been written, addresses strictly rising (`Memory.wf`). An address it does not
list has never been written; what such a byte reads as is said once, in `Memory.read` (10_state.md R50; log 5). -/
abbrev Memory := List Host.Cell

/-- Four 32-bit registers that hold 16 bytes, byte `j` in register `j / 4`, bits `8 * (j % 4) + 7 : 8 * (j % 4)`
(10_state.md R46, R48). -/
structure Lanes where
  w0 : Word
  w1 : Word
  w2 : Word
  w3 : Word
  deriving DecidableEq, Repr

/-- The state of the block. Every register of 10_state.md R32 but the hardwired ID and the read-as-zero CTRL has its
field(s); INVENTORY.md names the rule of each. The last three fields are the model's own (log 1, log 3, log 4). -/
structure State where
  phase     : Phase
  op        : Byte
  done      : Bool
  err       : Bool
  trailing  : Bool
  accessErr : Bool
  errcode   : Byte
  errPos    : Half
  errSub    : Byte
  srcPtr    : Half
  srcLen    : Half
  dstPtr    : Half
  keyPtr    : Half
  keyLen    : Half
  raPtr     : Half
  aux       : Half
  pktHdr    : Word
  pktAuth   : Lanes
  res0      : Word
  res1      : Word
  res2      : Word
  digest    : Lanes
  lmem      : Memory
  params    : Params
  inbox     : List Input
  response  : Option Word
  deriving DecidableEq, Repr

/-- The block right after power-on reset (10_state.md R32, 70_reset_and_hazards.md R260): every register 0, the engine
IDLE, no LMEM byte written yet (R261). The parameters, the empty inbox and the absent response are the model's (log 1,
log 3, log 4). -/
def State.reset : State where
  phase     := .idle
  op        := 0#8
  done      := false
  err       := false
  trailing  := false
  accessErr := false
  errcode   := 0#8
  errPos    := 0#16
  errSub    := 0#8
  srcPtr    := 0#16
  srcLen    := 0#16
  dstPtr    := 0#16
  keyPtr    := 0#16
  keyLen    := 0#16
  raPtr     := 0#16
  aux       := 0#16
  pktHdr    := 0#32
  pktAuth   := ⟨0#32, 0#32, 0#32, 0#32⟩
  res0      := 0#32
  res1      := 0#32
  res2      := 0#32
  digest    := ⟨0#32, 0#32, 0#32, 0#32⟩
  lmem      := []
  params    := Params.default
  inbox     := []
  response  := none

/-- Why a step stops with a fault. -/
inductive Fault where
  /-- Raised by a step whose next input is a host access outside both windows: such an access "does not reach the block
  at all" (93_implementation_defined.md U7, 20_memory.md R71), so it is no event of this machine (log 7). SAFE: the model
  stops where the platform does something the spec does not give. No command raises it. -/
  | outsideWindows (addr : Nat)
  deriving DecidableEq, Repr

/-- Why a step is refused. -/
inductive Refusal where
  /-- For an instruction that has no meaning yet; raised only by an arm of `exec`, and no arm raises it: all eight
  commands have their meaning. SAFE: nothing can be proved about a refused instruction. -/
  | notModelled (mnemonic : String)
  deriving DecidableEq, Repr

end Sys2Proof.Machine
end

