-- ==== Sys2Proof/Machine/Flags.lean ====
section
/-! DEFINITION. Every flag computation of the block: the error codes, the STATUS and ERRINFO words the host reads, and the
write-one-to-clear of STATUS (10_state.md R36 to R43, 60_exceptions.md R221). -/

namespace Sys2Proof.Machine

/-- The errors a command can raise (60_exceptions.md R221). CRYPTO_UNAVAILABLE (0x30) is reserved and never raised
(00_scope.md R21), so it is none of them. -/
inductive ErrCode where
  | illegalOp
  | bounds
  | packetLengthOutOfRange
  | declaredLengthShort
  | packetTruncated
  | truncatedAttribute
  | malformedAttribute
  | attributeTooLarge
  | packetTooLarge
  | passwordLength
  | cipherLength
  deriving DecidableEq, Repr

/-- The value STATUS.ERRCODE takes for each error (60_exceptions.md R221). -/
def ErrCode.value : ErrCode → Byte
  | .illegalOp => 0x01#8
  | .bounds => 0x02#8
  | .packetLengthOutOfRange => 0x10#8
  | .declaredLengthShort => 0x11#8
  | .packetTruncated => 0x12#8
  | .truncatedAttribute => 0x13#8
  | .malformedAttribute => 0x14#8
  | .attributeTooLarge => 0x15#8
  | .packetTooLarge => 0x16#8
  | .passwordLength => 0x20#8
  | .cipherLength => 0x21#8

/-- STATUS.BUSY is 1 exactly when the phase is BUSY (10_state.md R37). -/
def State.busy (s : State) : Bool :=
  match s.phase with
  | .idle => false
  | .busy => true

/-- The STATUS word (10_state.md R36): BUSY 0, DONE 1, ERR 2, TRAILING 3, ACCESS_ERR 4, ERRCODE 15:8, the rest 0. -/
def State.statusWord (s : State) : Word :=
  0#16 ++ s.errcode ++ 0#3 ++ BitVec.ofBool s.accessErr ++ BitVec.ofBool s.trailing ++ BitVec.ofBool s.err
    ++ BitVec.ofBool s.done ++ BitVec.ofBool s.busy

/-- The ERRINFO word (10_state.md R43): POS 15:0, SUB 23:16, the rest 0. -/
def State.errinfoWord (s : State) : Word := 0#8 ++ s.errSub ++ s.errPos

/-- A host write of `v` to STATUS (10_state.md R36): a 1 in the bit of a W1C field clears the field, and nothing else of
STATUS changes (BUSY, R37; ERRCODE, R42). -/
def State.clearStatus (s : State) (v : Word) : State :=
  { s with
    done      := s.done && !v.getLsbD 1
    err       := s.err && !v.getLsbD 2
    trailing  := s.trailing && !v.getLsbD 3
    accessErr := s.accessErr && !v.getLsbD 4 }

/-- An ignored access sets the sticky ACCESS_ERR and nothing else (10_state.md R41, 60_exceptions.md R226). -/
def State.flagAccessErr (s : State) : State := { s with accessErr := true }

end Sys2Proof.Machine
end

