-- ==== Sys2Proof/Machine/Ops.lean ====
section
/-! DEFINITION. The shared operations: LMEM, byte order, the limits of 00_scope.md R7, starting a command, committing its
outputs, committing its error (the block's one exception), and the soft reset. -/

namespace Sys2Proof.Machine

/-! ### Limits (00_scope.md R7) -/

/-- `PKT_MIN`. -/
abbrev pktMin : Nat := 20

/-- `PKT_MAX`. -/
abbrev pktMax : Nat := 4096

/-- `HDR_LEN`. -/
abbrev hdrLen : Nat := 20

/-- The largest attribute value length: attribute length 255 less its two header bytes. -/
abbrev valueMax : Nat := 253

/-- `HIDE_MAX` (42_password_cipher.md R182, R184). -/
abbrev hideMax : Nat := 240

/-- `BLK`, the cipher block. -/
abbrev blk : Nat := 16

/-! ### LMEM -/

/-- The byte last written to address `a`, if one was. -/
def Memory.lookup (m : Memory) (a : Nat) : Option Byte := (m.find? fun c => c.1 == a).map Prod.snd

/-- What LMEM byte `a` reads as: the byte last written there, else the free value of the address
(70_reset_and_hazards.md R261; log 5). The ONE definition of what an unlisted address reads as. -/
def Memory.read (m : Memory) (a : Nat) : Byte := (m.lookup a).getD (Config.powerOnByte a)

/-- `MemRead(a, n)` (00_scope.md R10). -/
def Memory.readBytes (m : Memory) (a n : Nat) : List Byte := (List.range' a n).map m.read

/-- The cells of a byte string laid out from address `a`. -/
def cellsFrom (a : Nat) : List Byte → List Host.Cell
  | [] => []
  | b :: bs => (a, b) :: cellsFrom (a + 1) bs

/-- `MemWrite(a, n, S)` with `n = len(S)` (00_scope.md R10): the cells below the region, the region's new cells, the cells
above it. -/
def Memory.writeBytes (m : Memory) (a : Nat) (bs : List Byte) : Memory :=
  m.filter (fun c => decide (c.1 < a)) ++ (cellsFrom a bs ++ m.filter (fun c => decide (a + bs.length ≤ c.1)))

/-- The canonical form of LMEM: addresses strictly rising, all of them below LMEM_SIZE (10_state.md R50; log 5). -/
abbrev Memory.wf (m : Memory) (size : Nat) : Prop :=
  m.Pairwise (fun c d => c.1 < d.1) ∧ ∀ c ∈ m, c.1 < size

/-- LMEM_SIZE of this build (00_scope.md R7). -/
def State.lmemSize (s : State) : Nat := s.params.lmemSize.bytes

/-- `inBounds(a, n)` (00_scope.md R13): the region is empty, or ends within LMEM; computed without truncation. -/
abbrev State.InBounds (s : State) (a n : Nat) : Prop := n = 0 ∨ a + n ≤ s.lmemSize

/-! ### Byte order and lanes -/

/-- `be16(v)` (00_scope.md R9). -/
def be16 (v : Half) : List Byte := [v.extractLsb' 8 8, v.extractLsb' 0 8]

/-- `from_be16(b0, b1)` (00_scope.md R9). -/
def fromBe16 (b0 b1 : Byte) : Half := b0 ++ b1

/-- A 32-bit word from four bytes, least significant first (20_memory.md R72, 00_scope.md R18). -/
def wordOfBytes (b0 b1 b2 b3 : Byte) : Word := b3 ++ b2 ++ b1 ++ b0

/-- Sixteen bytes in four registers, in the lane order of 10_state.md R46; bytes past the end of the list read 0. -/
def Lanes.ofBytes (bs : List Byte) : Lanes where
  w0 := wordOfBytes (bs.getD 0 0#8) (bs.getD 1 0#8) (bs.getD 2 0#8) (bs.getD 3 0#8)
  w1 := wordOfBytes (bs.getD 4 0#8) (bs.getD 5 0#8) (bs.getD 6 0#8) (bs.getD 7 0#8)
  w2 := wordOfBytes (bs.getD 8 0#8) (bs.getD 9 0#8) (bs.getD 10 0#8) (bs.getD 11 0#8)
  w3 := wordOfBytes (bs.getD 12 0#8) (bs.getD 13 0#8) (bs.getD 14 0#8) (bs.getD 15 0#8)

/-- The sixteen bytes four registers hold (10_state.md R46). -/
def Lanes.toBytes (l : Lanes) : List Byte :=
  bytesOfWord l.w0 ++ (bytesOfWord l.w1 ++ (bytesOfWord l.w2 ++ bytesOfWord l.w3))

/-- PKT_HDR.CODE (10_state.md R45). -/
def State.hdrCode (s : State) : Byte := s.pktHdr.extractLsb' 0 8

/-- PKT_HDR.IDENT (10_state.md R45). -/
def State.hdrIdent (s : State) : Byte := s.pktHdr.extractLsb' 8 8

/-- PKT_HDR.LEN (10_state.md R45). -/
def State.hdrLength (s : State) : Half := s.pktHdr.extractLsb' 16 16

/-- The PKT_HDR word of a header (10_state.md R45, 41_packet_codec.md R155). -/
def hdrWord (code ident : Byte) (length : Half) : Word := length ++ ident ++ code

/-! ### What a command answers, and the commit -/

/-- What a successful command writes (00_scope.md R12, 60_exceptions.md R223). A result it does not name is 0
(10_state.md R47); a header, digest or TRAILING it does not name is left as it is. -/
structure Outputs where
  write    : Option (Nat × List Byte) := none
  res0     : Nat := 0
  res1     : Nat := 0
  res2     : Nat := 0
  header   : Option (Word × Lanes) := none
  digest   : Option Lanes := none
  trailing : Option Bool := none
  deriving DecidableEq, Repr

/-- `raise E(pos, sub)` (00_scope.md R11). -/
structure CmdError where
  code : ErrCode
  pos  : Nat
  sub  : Nat
  deriving DecidableEq, Repr

/-- What a command function answers: `Ok(outputs)` or `Err(code, pos, sub)` (00_scope.md R12). -/
abbrev CmdResult := Except CmdError Outputs

/-- The LMEM a write of outputs leaves (60_exceptions.md R223). -/
def Memory.apply (m : Memory) : Option (Nat × List Byte) → Memory
  | none => m
  | some (a, bs) => m.writeBytes a bs

/-- The commit of a success (60_exceptions.md R223): every output the command names, ERR = 0, ERRCODE = 0, ERRINFO = 0
(10_state.md R43), DONE = 1, phase IDLE (log 14). -/
def State.commitOk (s : State) (o : Outputs) : State :=
  { s with
    phase    := .idle
    done     := true
    err      := false
    errcode  := 0#8
    errPos   := 0#16
    errSub   := 0#8
    trailing := o.trailing.getD s.trailing
    res0     := BitVec.ofNat 32 o.res0
    res1     := BitVec.ofNat 32 o.res1
    res2     := BitVec.ofNat 32 o.res2
    pktHdr   := (o.header.map Prod.fst).getD s.pktHdr
    pktAuth  := (o.header.map Prod.snd).getD s.pktAuth
    digest   := o.digest.getD s.digest
    lmem     := s.lmem.apply o.write }

/-- THE EXCEPTION OF THE BLOCK: the commit of a failed command (00_scope.md R11, 60_exceptions.md R223, R224). ERR = 1,
ERRCODE and ERRINFO say what was raised, DONE = 1, phase IDLE; no output is written. POS keeps 16 bits and SUB 8
(60_exceptions.md R222; log 15). There is no handler and no return from it (R227): the next command start clears the
report (`State.startCommand`). -/
def State.commitErr (s : State) (e : CmdError) : State :=
  { s with
    phase   := .idle
    done    := true
    err     := true
    errcode := e.code.value
    errPos  := BitVec.ofNat 16 e.pos
    errSub  := BitVec.ofNat 8 e.sub }

/-- The commit (60_exceptions.md R223). -/
def State.commit (s : State) : CmdResult → State
  | .ok o => s.commitOk o
  | .error e => s.commitErr e

/-- Command start (60_exceptions.md R220): OP latched, DONE, ERR, TRAILING, ERRCODE and ERRINFO cleared, phase BUSY.
ACCESS_ERR is not cleared. -/
def State.startCommand (s : State) (op : Byte) : State :=
  { s with
    op       := op
    done     := false
    err      := false
    trailing := false
    errcode  := 0#8
    errPos   := 0#16
    errSub   := 0#8
    phase    := .busy }

/-- Soft reset (70_reset_and_hazards.md R262): every register takes its reset value, the phase becomes IDLE, a running
command leaves no output; LMEM is kept. The model's own fields are no registers and are kept too. -/
def State.softReset (s : State) : State :=
  { State.reset with
    lmem     := s.lmem
    params   := s.params
    inbox    := s.inbox
    response := s.response }

/-- The error every region check raises (20_memory.md R78, 60_exceptions.md R222): POS is the descriptor index for a
descriptor's value region and 0 for the others, SUB names the region. -/
def boundsError (pos sub : Nat) : CmdError := { code := .bounds, pos := pos, sub := sub }

/-- BOUNDS names the region: SRC (60_exceptions.md R222). -/
abbrev regionSrc : Nat := 1

/-- BOUNDS names the region: DST. -/
abbrev regionDst : Nat := 2

/-- BOUNDS names the region: KEY. -/
abbrev regionKey : Nat := 3

/-- BOUNDS names the region: RA. -/
abbrev regionRa : Nat := 4

/-- BOUNDS names the region: the value of a descriptor. -/
abbrev regionValue : Nat := 5

end Sys2Proof.Machine
end

