-- ==== Sys2Proof/Machine/Operands.lean ====
section
/-! DEFINITION. The operand registers as the commands read them (30_encoding.md R103), and the register file as the host
reads and writes it (10_state.md R32 to R49, R54). -/

namespace Sys2Proof.Machine

/-! ### Operands: 16-bit registers, zero-extended to natural numbers (30_encoding.md R103) -/

/-- SRC_PTR as an address. -/
def State.srcAddr (s : State) : Nat := s.srcPtr.toNat

/-- SRC_LEN as a length. -/
def State.srcCount (s : State) : Nat := s.srcLen.toNat

/-- DST_PTR as an address. -/
def State.dstAddr (s : State) : Nat := s.dstPtr.toNat

/-- KEY_PTR as an address. -/
def State.keyAddr (s : State) : Nat := s.keyPtr.toNat

/-- KEY_LEN as a length; 0 is the empty secret (92_eei_decisions.md D29). -/
def State.keyCount (s : State) : Nat := s.keyLen.toNat

/-- RA_PTR as an address. -/
def State.raAddr (s : State) : Nat := s.raPtr.toNat

/-- AUX as a number: an offset (ATTR_DECODE) or an attribute count (PKT_ENCODE, WIRE_LEN). -/
def State.auxCount (s : State) : Nat := s.aux.toNat

/-- AUX[7:0], the attribute type of ATTR_ENCODE; AUX[15:8] is ignored (30_encoding.md R103). -/
def State.auxType (s : State) : Byte := s.aux.extractLsb' 0 8

/-! ### The register file (10_state.md R32) -/

/-- The offset of each register in the register window. -/
def regOffset : RegName → Nat
  | .ident => 0x000
  | .ctrl => 0x004
  | .cmd => 0x008
  | .status => 0x00C
  | .errinfo => 0x010
  | .srcPtr => 0x014
  | .srcLen => 0x018
  | .dstPtr => 0x01C
  | .keyPtr => 0x020
  | .keyLen => 0x024
  | .raPtr => 0x028
  | .aux => 0x02C
  | .pktHdr => 0x030
  | .pktAuth0 => 0x034
  | .pktAuth1 => 0x038
  | .pktAuth2 => 0x03C
  | .pktAuth3 => 0x040
  | .res0 => 0x044
  | .res1 => 0x048
  | .res2 => 0x04C
  | .digest0 => 0x050
  | .digest1 => 0x054
  | .digest2 => 0x058
  | .digest3 => 0x05C

/-- Every register, in the order of the offsets. -/
def allRegs : List RegName :=
  [.ident, .ctrl, .cmd, .status, .errinfo, .srcPtr, .srcLen, .dstPtr, .keyPtr, .keyLen, .raPtr, .aux]
    ++ [.pktHdr, .pktAuth0, .pktAuth1, .pktAuth2, .pktAuth3, .res0, .res1, .res2]
    ++ [.digest0, .digest1, .digest2, .digest3]

/-- The register at a 4-aligned offset; none for the reserved offsets 0x060 to 0xFFC (10_state.md R49). -/
def regAt (off : Nat) : Option RegName := allRegs.find? fun r => regOffset r == off

/-- The value of ID: "RCB1", "R" in bits 31:24 (10_state.md R33). -/
def idValue : Word := 0x52434231#32

/-- The value a host read of a register returns (10_state.md R33 to R48). A read has no side effect (20_memory.md R80), and
while BUSY it returns the current value (R54). -/
def State.readReg (s : State) : RegName → Word
  | .ident => idValue
  | .ctrl => 0#32
  | .cmd => 0#24 ++ s.op
  | .status => s.statusWord
  | .errinfo => s.errinfoWord
  | .srcPtr => 0#16 ++ s.srcPtr
  | .srcLen => 0#16 ++ s.srcLen
  | .dstPtr => 0#16 ++ s.dstPtr
  | .keyPtr => 0#16 ++ s.keyPtr
  | .keyLen => 0#16 ++ s.keyLen
  | .raPtr => 0#16 ++ s.raPtr
  | .aux => 0#16 ++ s.aux
  | .pktHdr => s.pktHdr
  | .pktAuth0 => s.pktAuth.w0
  | .pktAuth1 => s.pktAuth.w1
  | .pktAuth2 => s.pktAuth.w2
  | .pktAuth3 => s.pktAuth.w3
  | .res0 => s.res0
  | .res1 => s.res1
  | .res2 => s.res2
  | .digest0 => s.digest.w0
  | .digest1 => s.digest.w1
  | .digest2 => s.digest.w2
  | .digest3 => s.digest.w3

/-- A host write to CTRL, in either phase (10_state.md R34): bit 0 performs the soft reset, bits 31:1 are reserved. -/
def State.writeCtrl (s : State) (v : Word) : State := if v.getLsbD 0 then s.softReset else s

/-- A host write to a register while the engine is IDLE (10_state.md R33 to R49). A write to CMD starts the command
(60_exceptions.md R220); a write to a read-only register is ignored, with no flag (log 16); the reserved bits of an
operand register are ignored. -/
def State.writeRegIdle (s : State) (v : Word) : RegName → State
  | .ctrl => s.writeCtrl v
  | .cmd => s.startCommand (opOfWord v)
  | .status => s.clearStatus v
  | .srcPtr => { s with srcPtr := v.extractLsb' 0 16 }
  | .srcLen => { s with srcLen := v.extractLsb' 0 16 }
  | .dstPtr => { s with dstPtr := v.extractLsb' 0 16 }
  | .keyPtr => { s with keyPtr := v.extractLsb' 0 16 }
  | .keyLen => { s with keyLen := v.extractLsb' 0 16 }
  | .raPtr => { s with raPtr := v.extractLsb' 0 16 }
  | .aux => { s with aux := v.extractLsb' 0 16 }
  | .pktHdr => { s with pktHdr := v }
  | .pktAuth0 => { s with pktAuth := { s.pktAuth with w0 := v } }
  | .pktAuth1 => { s with pktAuth := { s.pktAuth with w1 := v } }
  | .pktAuth2 => { s with pktAuth := { s.pktAuth with w2 := v } }
  | .pktAuth3 => { s with pktAuth := { s.pktAuth with w3 := v } }
  | .ident | .errinfo | .res0 | .res1 | .res2 | .digest0 | .digest1 | .digest2 | .digest3 => s

/-- A host write to a register while the engine is BUSY (10_state.md R54): CTRL and STATUS take it, every other register
ignores it and the write sets ACCESS_ERR. -/
def State.writeRegBusy (s : State) (v : Word) : RegName → State
  | .ctrl => s.writeCtrl v
  | .status => s.clearStatus v
  | _ => s.flagAccessErr

/-- A legal host read at an offset of the register window; a reserved offset reads 0 (10_state.md R49). -/
def State.readRegAt (s : State) (off : Nat) : Word :=
  match regAt off with
  | some r => s.readReg r
  | none => 0#32

/-- A legal host write at an offset of the register window. A reserved offset ignores it; while BUSY that write too sets
ACCESS_ERR (10_state.md R49, R54). -/
def State.writeRegAt (s : State) (off : Nat) (v : Word) : State :=
  match s.phase, regAt off with
  | .idle, some r => s.writeRegIdle v r
  | .idle, none => s
  | .busy, some r => s.writeRegBusy v r
  | .busy, none => s.flagAccessErr

end Sys2Proof.Machine
end

