-- ==== Sys2Proof/Machine/Bus.lean ====
section
/-! DEFINITION. The host's accesses: which window an address is in, which accesses are legal, and what each does
(20_memory.md R70 to R75, R80). -/

namespace Sys2Proof.Machine

/-- Where a host address lies. -/
inductive Target where
  | reg (off : Nat)
  | lmem (a : Nat)
  | outside
  deriving DecidableEq, Repr

/-- The window of a host address and the offset in it (20_memory.md R70, R71). An access is taken to be where its first
byte is (log 7). -/
def State.target (s : State) (addr : Nat) : Target :=
  if s.params.regBase ≤ addr ∧ addr < s.params.regBase + regWindowBytes then .reg (addr - s.params.regBase)
  else if s.params.lmemBase ≤ addr ∧ addr < s.params.lmemBase + s.lmemSize then .lmem (addr - s.params.lmemBase)
  else .outside

/-- A register-window access must be 4 bytes wide and 4-aligned (20_memory.md R73; log 6). -/
def regAccessLegal (off width : Nat) : Bool := width == 4 && off % 4 == 0

/-- An LMEM access must be 1, 2 or 4 bytes wide and naturally aligned (20_memory.md R72; log 6). -/
def lmemAccessLegal (a width : Nat) : Bool := (width == 1 || width == 2 || width == 4) && a % width == 0

/-- The word a host LMEM read returns: little-endian lanes, zero above the width (20_memory.md R72; log 8). -/
def wordOfLanes (bs : List Byte) : Word :=
  wordOfBytes (bs.getD 0 0#8) (bs.getD 1 0#8) (bs.getD 2 0#8) (bs.getD 3 0#8)

/-- The bytes a host LMEM write stores: the low `width` bytes of its data, least significant first (20_memory.md R72;
log 8). -/
def lanesOfWord (v : Word) (width : Nat) : List Byte := (bytesOfWord v).take width

/-- A host read at a register-window offset. -/
def State.hostReadReg (s : State) (off width : Nat) : State :=
  if regAccessLegal off width then { s with response := some (s.readRegAt off) }
  else { s.flagAccessErr with response := some 0#32 }

/-- A host write at a register-window offset. -/
def State.hostWriteReg (s : State) (off width : Nat) (v : Word) : State :=
  if regAccessLegal off width then { s.writeRegAt off v with response := none }
  else { s.flagAccessErr with response := none }

/-- A host read of LMEM, in either phase (20_memory.md R75). -/
def State.hostReadLmem (s : State) (a width : Nat) : State :=
  if lmemAccessLegal a width then { s with response := some (wordOfLanes (s.lmem.readBytes a width)) }
  else { s.flagAccessErr with response := some 0#32 }

/-- A host write of LMEM; while BUSY it is ignored and flagged (20_memory.md R74). -/
def State.hostWriteLmem (s : State) (a width : Nat) (v : Word) : State :=
  if lmemAccessLegal a width ∧ s.phase = .idle then
    { s with lmem := s.lmem.writeBytes a (lanesOfWord v width), response := none }
  else { s.flagAccessErr with response := none }

/-- One host access. `response` is what the host gets back: a value for a read, none for a write (log 3). An address
outside both windows does not reach the block (log 7). -/
def hostAccess (a : HostAccess) (s : State) : Host.Outcome State Fault Refusal :=
  match a with
  | .read addr width =>
    match s.target addr with
    | .reg off => .next (s.hostReadReg off width)
    | .lmem x => .next (s.hostReadLmem x width)
    | .outside => .fault (.outsideWindows addr)
  | .write addr width v =>
    match s.target addr with
    | .reg off => .next (s.hostWriteReg off width v)
    | .lmem x => .next (s.hostWriteLmem x width v)
    | .outside => .fault (.outsideWindows addr)

end Sys2Proof.Machine
end

