-- ==== Sys2Proof/Machine/AttributeCodec.lean ====
section
/-! DEFINITION. The attribute codec: ATTR_DECODE and ATTR_ENCODE (40_attribute_codec.md). -/

namespace Sys2Proof.Machine

/-- What decoding one attribute answers (40_attribute_codec.md R130): its type, its length `L` and its value, or the
sub-reason it is malformed for. -/
inductive AttrRead where
  | attr (type : Byte) (len : Nat) (value : List Byte)
  | malformed (sub : Nat)
  deriving DecidableEq, Repr

/-- `decodeAttr(S, o)` (40_attribute_codec.md R130): sub-reason 1 header past the bound, 2 length below 2, 3 value past the
bound. -/
def decodeAttr (bs : List Byte) (o : Nat) : AttrRead :=
  if o + 2 > bs.length then .malformed 1
  else
    let len := (bs.getD (o + 1) 0#8).toNat
    if len < 2 then .malformed 2
    else if o + len > bs.length then .malformed 3
    else .attr (bs.getD o 0#8) len ((bs.drop (o + 2)).take (len - 2))

/-- The wire form of one attribute: type, length byte `2 + len(value)`, value (30_encoding.md R105). -/
def encodeAttr (type : Byte) (value : List Byte) : List Byte :=
  type :: BitVec.ofNat 8 (2 + value.length) :: value

/-- ATTR_DECODE as a function of the state (40_attribute_codec.md R131). -/
def attrDecodeCmd (s : State) : CmdResult :=
  if ¬ s.InBounds s.srcAddr s.srcCount then .error (boundsError 0 regionSrc)
  else
    match decodeAttr (s.lmem.readBytes s.srcAddr s.srcCount) s.auxCount with
    | .malformed sub => .error { code := .malformedAttribute, pos := s.auxCount, sub := sub }
    | .attr type len _ =>
      .ok { res0 := len, res1 := type.toNat + (len - 2) * 2 ^ 8, res2 := s.srcAddr + s.auxCount + 2 }

/-- ATTR_ENCODE as a function of the state (40_attribute_codec.md R133). -/
def attrEncodeCmd (s : State) : CmdResult :=
  if s.srcCount > valueMax then .error { code := .attributeTooLarge, pos := s.srcCount, sub := 0 }
  else if ¬ s.InBounds s.srcAddr s.srcCount then .error (boundsError 0 regionSrc)
  else if ¬ s.InBounds s.dstAddr (2 + s.srcCount) then .error (boundsError 0 regionDst)
  else
    .ok { write := some (s.dstAddr, encodeAttr s.auxType (s.lmem.readBytes s.srcAddr s.srcCount)),
          res0 := 2 + s.srcCount }

/-- The commit of ATTR_DECODE. -/
def execAttrDecode (s : State) : Host.Outcome State Fault Refusal := .next (s.commit (attrDecodeCmd s))

/-- The commit of ATTR_ENCODE. -/
def execAttrEncode (s : State) : Host.Outcome State Fault Refusal := .next (s.commit (attrEncodeCmd s))

end Sys2Proof.Machine
end

