-- ==== Sys2Proof/Machine/PacketCodec.lean ====
section
/-! DEFINITION. The packet codec: PKT_DECODE, PKT_ENCODE and WIRE_LEN (41_packet_codec.md), over the packet and descriptor
formats of 30_encoding.md R104 to R108. -/

namespace Sys2Proof.Machine

/-- An attribute descriptor (30_encoding.md R106): type, value length, absolute LMEM address of the value. -/
structure Descriptor where
  type : Byte
  vlen : Byte
  voff : Half
  deriving DecidableEq, Repr

/-- The four bytes of a descriptor, `voff` big-endian (30_encoding.md R106). -/
def Descriptor.toBytes (d : Descriptor) : List Byte := d.type :: d.vlen :: be16 d.voff

/-- A descriptor table's bytes, in table order (30_encoding.md R107). -/
def tableBytes (ds : List Descriptor) : List Byte := ds.flatMap Descriptor.toBytes

/-- The descriptors of a table's bytes, four bytes each (30_encoding.md R107). -/
def parseTable : List Byte → List Descriptor
  | b0 :: b1 :: b2 :: b3 :: rest => { type := b0, vlen := b1, voff := fromBe16 b2 b3 } :: parseTable rest
  | _ => []

/-! ### Decoding -/

/-- The attribute walk (41_packet_codec.md R153, R154) over the packet `p` of a datagram at LMEM address `r`, from offset
`o`. The bound is the declared length, which is `p.length`. Every attribute takes at least two bytes, so a walk given at
least `p.length` turns never runs out of them (`Laws/Packet.lean`). -/
def walkAttrs (p : List Byte) (r : Nat) : Nat → Nat → Except CmdError (List Descriptor)
  | 0, _ => .ok []
  | turns + 1, o =>
    if o < p.length then
      match decodeAttr p o with
      | .malformed sub =>
        if sub = 2 then .error { code := .malformedAttribute, pos := o, sub := 2 }
        else .error { code := .truncatedAttribute, pos := o, sub := sub }
      | .attr type len _ =>
        match walkAttrs p r turns (o + len) with
        | .error e => .error e
        | .ok ds => .ok ({ type := type, vlen := BitVec.ofNat 8 (len - 2), voff := BitVec.ofNat 16 (r + o + 2) } :: ds)
    else .ok []

/-- The declared length of a datagram, bytes 2 and 3 big-endian (30_encoding.md R104, 20_memory.md R76). -/
def declaredLength (raw : List Byte) : Half := fromBe16 (raw.getD 2 0#8) (raw.getD 3 0#8)

/-- The outputs of a decoded packet (41_packet_codec.md R152, R155): the table at `t`, the header and authenticator
registers, the attribute count, the count of trailing bytes and the TRAILING flag. -/
def decodedOutputs (raw : List Byte) (t : Nat) (ds : List Descriptor) : Outputs :=
  { write := some (t, tableBytes ds)
    res0 := ds.length
    res1 := raw.length - (declaredLength raw).toNat
    header := some (hdrWord (raw.getD 0 0#8) (raw.getD 1 0#8) (declaredLength raw), Lanes.ofBytes ((raw.drop 4).take 16))
    trailing := some (decide ((declaredLength raw).toNat < raw.length)) }

/-- The content checks of PKT_DECODE in their order (41_packet_codec.md R150, R156, R157, R153): the declared length, then
the walk bounded by it. -/
def decodeDatagram (raw : List Byte) (r : Nat) : Except CmdError (List Descriptor) :=
  let length := (declaredLength raw).toNat
  if length < pktMin then .error { code := .declaredLengthShort, pos := length, sub := 0 }
  else if length > raw.length then .error { code := .packetTruncated, pos := length, sub := 0 }
  else walkAttrs (raw.take length) r length hdrLen

/-- PKT_DECODE as a function of the state (41_packet_codec.md R155). -/
def pktDecodeCmd (s : State) : CmdResult :=
  if s.srcCount < pktMin ∨ s.srcCount > pktMax then
    .error { code := .packetLengthOutOfRange, pos := s.srcCount, sub := 0 }
  else if ¬ s.InBounds s.srcAddr s.srcCount then .error (boundsError 0 regionSrc)
  else
    match decodeDatagram (s.lmem.readBytes s.srcAddr s.srcCount) s.srcAddr with
    | .error e => .error e
    | .ok ds =>
      if ¬ s.InBounds s.dstAddr (4 * ds.length) then .error (boundsError 0 regionDst)
      else .ok (decodedOutputs (s.lmem.readBytes s.srcAddr s.srcCount) s.dstAddr ds)

/-! ### Encoding -/

/-- The attribute bytes of a descriptor table, descriptor `i` first (41_packet_codec.md R160, R161). The first descriptor
that fails its check decides the error. -/
def encodeTable (s : State) : Nat → List Descriptor → Except CmdError (List Byte)
  | _, [] => .ok []
  | i, d :: ds =>
    if d.vlen.toNat > valueMax then .error { code := .attributeTooLarge, pos := i, sub := 0 }
    else if ¬ s.InBounds d.voff.toNat d.vlen.toNat then .error (boundsError i regionValue)
    else
      match encodeTable s (i + 1) ds with
      | .error e => .error e
      | .ok body => .ok (encodeAttr d.type (s.lmem.readBytes d.voff.toNat d.vlen.toNat) ++ body)

/-- What PKT_ENCODE and WIRE_LEN share: the table region's check, the descriptors' checks, the size check
(41_packet_codec.md R160 to R163). Answers the attribute bytes of the packet. -/
def packetBody (s : State) : Except CmdError (List Byte) :=
  if ¬ s.InBounds s.srcAddr (4 * s.auxCount) then .error (boundsError 0 regionSrc)
  else
    match encodeTable s 0 (parseTable (s.lmem.readBytes s.srcAddr (4 * s.auxCount))) with
    | .error e => .error e
    | .ok body =>
      if hdrLen + body.length > pktMax then
        .error { code := .packetTooLarge, pos := min (hdrLen + body.length) 0xFFFF, sub := 0 }
      else .ok body

/-- The 20 header bytes PKT_ENCODE emits: PKT_HDR as it is held, then PKT_AUTH0..3 (41_packet_codec.md R160). -/
def headerBytes (s : State) : List Byte :=
  s.hdrCode :: s.hdrIdent :: (be16 s.hdrLength ++ s.pktAuth.toBytes)

/-- PKT_ENCODE as a function of the state (41_packet_codec.md R160). -/
def pktEncodeCmd (s : State) : CmdResult :=
  match packetBody s with
  | .error e => .error e
  | .ok body =>
    if ¬ s.InBounds s.dstAddr (hdrLen + body.length) then .error (boundsError 0 regionDst)
    else .ok { write := some (s.dstAddr, headerBytes s ++ body), res0 := hdrLen + body.length }

/-- WIRE_LEN as a function of the state (41_packet_codec.md R163). -/
def wireLenCmd (s : State) : CmdResult :=
  match packetBody s with
  | .error e => .error e
  | .ok body => .ok { res0 := hdrLen + body.length }

/-- The commit of PKT_DECODE. -/
def execPktDecode (s : State) : Host.Outcome State Fault Refusal := .next (s.commit (pktDecodeCmd s))

/-- The commit of PKT_ENCODE. -/
def execPktEncode (s : State) : Host.Outcome State Fault Refusal := .next (s.commit (pktEncodeCmd s))

/-- The commit of WIRE_LEN. -/
def execWireLen (s : State) : Host.Outcome State Fault Refusal := .next (s.commit (wireLenCmd s))

end Sys2Proof.Machine
end

