-- ==== Sys2Proof/Machine/Md5.lean ====
section
/-! DEFINITION. MD5 as the spec writes it out (00_scope.md R15 to R19; log 10). It is total and never fails (R21). -/

namespace Sys2Proof.Machine

/-- The four words of the digest state (00_scope.md R17). -/
structure Md5Words where
  a : Word
  b : Word
  c : Word
  d : Word
  deriving DecidableEq, Repr

/-- `A0, B0, C0, D0` (00_scope.md R17). -/
def md5Init : Md5Words := ⟨0x67452301#32, 0xefcdab89#32, 0x98badcfe#32, 0x10325476#32⟩

/-- `K[0..15]` (00_scope.md R17). -/
def md5K0 : List Word :=
  [0xd76aa478#32, 0xe8c7b756#32, 0x242070db#32, 0xc1bdceee#32, 0xf57c0faf#32, 0x4787c62a#32, 0xa8304613#32, 0xfd469501#32,
   0x698098d8#32, 0x8b44f7af#32, 0xffff5bb1#32, 0x895cd7be#32, 0x6b901122#32, 0xfd987193#32, 0xa679438e#32, 0x49b40821#32]

/-- `K[16..31]`. -/
def md5K1 : List Word :=
  [0xf61e2562#32, 0xc040b340#32, 0x265e5a51#32, 0xe9b6c7aa#32, 0xd62f105d#32, 0x02441453#32, 0xd8a1e681#32, 0xe7d3fbc8#32,
   0x21e1cde6#32, 0xc33707d6#32, 0xf4d50d87#32, 0x455a14ed#32, 0xa9e3e905#32, 0xfcefa3f8#32, 0x676f02d9#32, 0x8d2a4c8a#32]

/-- `K[32..47]`. -/
def md5K2 : List Word :=
  [0xfffa3942#32, 0x8771f681#32, 0x6d9d6122#32, 0xfde5380c#32, 0xa4beea44#32, 0x4bdecfa9#32, 0xf6bb4b60#32, 0xbebfbc70#32,
   0x289b7ec6#32, 0xeaa127fa#32, 0xd4ef3085#32, 0x04881d05#32, 0xd9d4d039#32, 0xe6db99e5#32, 0x1fa27cf8#32, 0xc4ac5665#32]

/-- `K[48..63]`. -/
def md5K3 : List Word :=
  [0xf4292244#32, 0x432aff97#32, 0xab9423a7#32, 0xfc93a039#32, 0x655b59c3#32, 0x8f0ccc92#32, 0xffeff47d#32, 0x85845dd1#32,
   0x6fa87e4f#32, 0xfe2ce6e0#32, 0xa3014314#32, 0x4e0811a1#32, 0xf7537e82#32, 0xbd3af235#32, 0x2ad7d2bb#32, 0xeb86d391#32]

/-- `K[i]` (00_scope.md R17). -/
def md5K (i : Nat) : Word := (md5K0 ++ (md5K1 ++ (md5K2 ++ md5K3))).getD i 0#32

/-- `s[i]`, the rotation amounts (00_scope.md R17). -/
def md5Shift (i : Nat) : Nat :=
  if i < 16 then [7, 12, 17, 22].getD (i % 4) 0
  else if i < 32 then [5, 9, 14, 20].getD (i % 4) 0
  else if i < 48 then [4, 11, 16, 23].getD (i % 4) 0
  else [6, 10, 15, 21].getD (i % 4) 0

/-- `F` of step `i` before the sums (00_scope.md R18). -/
def md5Mix (q : Md5Words) (i : Nat) : Word :=
  if i < 16 then (q.b &&& q.c) ||| (~~~q.b &&& q.d)
  else if i < 32 then (q.d &&& q.b) ||| (~~~q.d &&& q.c)
  else if i < 48 then q.b ^^^ q.c ^^^ q.d
  else q.c ^^^ (q.b ||| ~~~q.d)

/-- `g` of step `i`, the message word it takes (00_scope.md R18). -/
def md5Index (i : Nat) : Nat :=
  if i < 16 then i
  else if i < 32 then (5 * i + 1) % 16
  else if i < 48 then (3 * i + 5) % 16
  else (7 * i) % 16

/-- Step `i` of the block function on the message words `w` (00_scope.md R18). -/
def md5Step (w : List Word) (q : Md5Words) (i : Nat) : Md5Words :=
  ⟨q.d, q.b + (md5Mix q i + q.a + md5K i + w.getD (md5Index i) 0#32).rotateLeft (md5Shift i), q.b, q.c⟩

/-- The little-endian words of a chunk (00_scope.md R18). -/
def wordsOfBytes : List Byte → List Word
  | b0 :: b1 :: b2 :: b3 :: rest => wordOfBytes b0 b1 b2 b3 :: wordsOfBytes rest
  | _ => []

/-- The block function on one 64-byte chunk (00_scope.md R18). -/
def md5Block (q : Md5Words) (chunk : List Byte) : Md5Words :=
  let r := (List.range 64).foldl (md5Step (wordsOfBytes chunk)) q
  ⟨q.a + r.a, q.b + r.b, q.c + r.c, q.d + r.d⟩

/-- `le64(v)`, the length field of the padding (00_scope.md R16). -/
def le64 (v : Nat) : List Byte := (List.range 8).map fun j => BitVec.ofNat 8 (v / 2 ^ (8 * j))

/-- The padded message `M'` (00_scope.md R16); `(119 - len % 64) % 64` is the least `k` with `(len + 1 + k) % 64 = 56`. -/
def md5Pad (msg : List Byte) : List Byte :=
  msg ++ (0x80#8 :: (List.replicate ((119 - msg.length % 64) % 64) 0#8 ++ le64 (8 * msg.length % 2 ^ 64)))

/-- The chunks of a padded message in order (00_scope.md R18). -/
def md5Chunks : Nat → Md5Words → List Byte → Md5Words
  | 0, q, _ => q
  | n + 1, q, bs => md5Chunks n (md5Block q (bs.take 64)) (bs.drop 64)

/-- `MD5(M)` (00_scope.md R15, R19). -/
def md5 (msg : List Byte) : List Byte :=
  let q := md5Chunks ((md5Pad msg).length / 64) md5Init (md5Pad msg)
  bytesOfWord q.a ++ (bytesOfWord q.b ++ (bytesOfWord q.c ++ bytesOfWord q.d))

end Sys2Proof.Machine
end

