-- ==== Sys2Proof/Machine/PasswordCipher.lean ====
section
/-! DEFINITION. The password cipher: PWD_HIDE and PWD_UNHIDE (42_password_cipher.md). -/

namespace Sys2Proof.Machine

/-- Bytewise exclusive or (00_scope.md R9). -/
def xorBytes (xs ys : List Byte) : List Byte := List.zipWith (· ^^^ ·) xs ys

/-- `pad16(n)` (00_scope.md R9). -/
def pad16 (n : Nat) : Nat := (n + 15) / 16 * 16

/-- The ciphertext length of a plaintext of `n` bytes; the empty password hides as one block (42_password_cipher.md
R181). -/
def cipherLength (n : Nat) : Nat := if n = 0 then blk else pad16 n

/-- The padded plaintext `PP` (42_password_cipher.md R181). -/
def padPlain (p : List Byte) : List Byte := p ++ List.replicate (cipherLength p.length - p.length) 0#8

/-- Hiding `q` blocks: each is xored with the MD5 of the secret and the chaining block, and the CIPHERTEXT block chains on
(42_password_cipher.md R180, R182). -/
def hideBlocks (key : List Byte) : Nat → List Byte → List Byte → List Byte
  | 0, _, _ => []
  | q + 1, prev, pp =>
    let c := xorBytes (pp.take blk) (md5 (key ++ prev))
    c ++ hideBlocks key q c (pp.drop blk)

/-- Unhiding `q` blocks: the INPUT ciphertext block chains on (42_password_cipher.md R180, R184). -/
def unhideBlocks (key : List Byte) : Nat → List Byte → List Byte → List Byte
  | 0, _, _ => []
  | q + 1, prev, cs => xorBytes (cs.take blk) (md5 (key ++ prev)) ++ unhideBlocks key q (cs.take blk) (cs.drop blk)

/-- The length of a byte string once its trailing 0x00 bytes are stripped (42_password_cipher.md R184). -/
def strippedLength (p : List Byte) : Nat := p.length - (p.reverse.takeWhile (· == 0#8)).length

/-- The region checks PWD_HIDE and PWD_UNHIDE make before they read, in the order SRC, KEY, RA (60_exceptions.md R225);
`none` when all three are in bounds. -/
def cipherBounds (s : State) : Option CmdError :=
  if ¬ s.InBounds s.srcAddr s.srcCount then some (boundsError 0 regionSrc)
  else if ¬ s.InBounds s.keyAddr s.keyCount then some (boundsError 0 regionKey)
  else if ¬ s.InBounds s.raAddr blk then some (boundsError 0 regionRa)
  else none

/-- PWD_HIDE as a function of the state (42_password_cipher.md R182). -/
def pwdHideCmd (s : State) : CmdResult :=
  if s.srcCount > hideMax then .error { code := .passwordLength, pos := s.srcCount, sub := 0 }
  else
    match cipherBounds s with
    | some e => .error e
    | none =>
      if ¬ s.InBounds s.dstAddr (cipherLength s.srcCount) then .error (boundsError 0 regionDst)
      else
        .ok { write := some (s.dstAddr,
                hideBlocks (s.lmem.readBytes s.keyAddr s.keyCount) (cipherLength s.srcCount / blk)
                  (s.lmem.readBytes s.raAddr blk) (padPlain (s.lmem.readBytes s.srcAddr s.srcCount))),
              res0 := cipherLength s.srcCount }

/-- The plaintext PWD_UNHIDE recovers, padding included (42_password_cipher.md R184). -/
def unhidden (s : State) : List Byte :=
  unhideBlocks (s.lmem.readBytes s.keyAddr s.keyCount) (s.srcCount / blk) (s.lmem.readBytes s.raAddr blk)
    (s.lmem.readBytes s.srcAddr s.srcCount)

/-- PWD_UNHIDE as a function of the state (42_password_cipher.md R184). -/
def pwdUnhideCmd (s : State) : CmdResult :=
  if s.srcCount = 0 ∨ s.srcCount % blk ≠ 0 ∨ s.srcCount > hideMax then
    .error { code := .cipherLength, pos := s.srcCount, sub := 0 }
  else
    match cipherBounds s with
    | some e => .error e
    | none =>
      if ¬ s.InBounds s.dstAddr s.srcCount then .error (boundsError 0 regionDst)
      else .ok { write := some (s.dstAddr, unhidden s), res0 := s.srcCount, res1 := strippedLength (unhidden s) }

/-- The commit of PWD_HIDE. -/
def execPwdHide (s : State) : Host.Outcome State Fault Refusal := .next (s.commit (pwdHideCmd s))

/-- The commit of PWD_UNHIDE. -/
def execPwdUnhide (s : State) : Host.Outcome State Fault Refusal := .next (s.commit (pwdUnhideCmd s))

end Sys2Proof.Machine
end

