-- ==== Sys2Proof/Machine/ResponseAuthenticator.lean ====
section
/-! DEFINITION. The response authenticator: RESP_SIGN (43_response_authenticator.md). A plain MD5 over a concatenation, not
HMAC (90_conflicts.md C1). -/

namespace Sys2Proof.Machine

/-- The signed string `R[0:4) ‖ RA ‖ R[20:n) ‖ S` (43_response_authenticator.md R200). -/
def signedString (response ra key : List Byte) : List Byte :=
  response.take 4 ++ (ra ++ (response.drop 20 ++ key))

/-- The digest RESP_SIGN computes from LMEM (43_response_authenticator.md R201). -/
def responseDigest (s : State) : List Byte :=
  md5 (signedString (s.lmem.readBytes s.srcAddr s.srcCount) (s.lmem.readBytes s.raAddr 16)
    (s.lmem.readBytes s.keyAddr s.keyCount))

/-- RESP_SIGN as a function of the state (43_response_authenticator.md R201): the digest goes to the authenticator field of
the response and to DIGEST0..3. The packet's length bytes are hashed as they stand (R202). -/
def respSignCmd (s : State) : CmdResult :=
  if s.srcCount < pktMin ∨ s.srcCount > pktMax then
    .error { code := .packetLengthOutOfRange, pos := s.srcCount, sub := 0 }
  else if ¬ s.InBounds s.srcAddr s.srcCount then .error (boundsError 0 regionSrc)
  else if ¬ s.InBounds s.keyAddr s.keyCount then .error (boundsError 0 regionKey)
  else if ¬ s.InBounds s.raAddr 16 then .error (boundsError 0 regionRa)
  else
    .ok { write := some (s.srcAddr + 4, responseDigest s),
          digest := some (Lanes.ofBytes (responseDigest s)), res0 := 16 }

/-- The commit of RESP_SIGN. -/
def execRespSign (s : State) : Host.Outcome State Fault Refusal := .next (s.commit (respSignCmd s))

end Sys2Proof.Machine
end

