-- ==== Sys2Proof/Machine/Dispatch.lean ====
section
/-! DEFINITION. The commit of each command (60_exceptions.md R223): one arm per command of 30_encoding.md R101. -/

namespace Sys2Proof.Machine

def exec (i : Instr) (s : State) : Host.Outcome State Fault Refusal :=
  match i with
  | .attrDecode => Sys2Proof.Machine.execAttrDecode s
  | .attrEncode => Sys2Proof.Machine.execAttrEncode s
  | .pktDecode => Sys2Proof.Machine.execPktDecode s
  | .pktEncode => Sys2Proof.Machine.execPktEncode s
  | .wireLen => Sys2Proof.Machine.execWireLen s
  | .pwdHide => Sys2Proof.Machine.execPwdHide s
  | .pwdUnhide => Sys2Proof.Machine.execPwdUnhide s
  | .respSign => Sys2Proof.Machine.execRespSign s

end Sys2Proof.Machine
end

