-- ==== Sys2Proof/Machine/Engine.lean ====
section
/-! DEFINITION. The engine's turn, and the order in which the block takes its inputs (20_memory.md R83, 60_exceptions.md
R223). -/

namespace Sys2Proof.Machine

/-- The error a reserved OP raises at its commit (30_encoding.md R109). -/
def illegalOpError (op : Byte) : CmdError := { code := .illegalOp, pos := op.toNat, sub := 0 }

/-- The engine's turn: while BUSY it commits the latched command (60_exceptions.md R223; a reserved OP raises ILLEGAL_OP,
30_encoding.md R109); while IDLE it does nothing (60_exceptions.md R232). -/
def engineTurn (s : State) : Host.Outcome State Fault Refusal :=
  match s.phase with
  | .idle => .next s
  | .busy =>
    match decodeOp s.op with
    | .ok i => exec i s
    | .error _ => .next (s.commitErr (illegalOpError s.op))

/-- The next event of the block (20_memory.md R83): the next input if one is there, else the engine's turn, so that a
started command always commits (70_reset_and_hazards.md R271; log 1). -/
def nextEvent (s : State) : Host.Outcome State Fault Refusal :=
  match s.inbox with
  | [] => engineTurn s
  | .engine :: rest => engineTurn { s with inbox := rest }
  | .access a :: rest => hostAccess a { s with inbox := rest }

/-- The state in which the command of a CMD word has just been started and the engine's turn is next (60_exceptions.md
R220; log 2). -/
def State.loadCommand (s : State) (v : Word) : State :=
  { s.startCommand (opOfWord v) with inbox := .engine :: s.inbox }

end Sys2Proof.Machine
end

