-- ==== Sys2Proof/Machine/Step.lean ====
section
/-! DEFINITION. One step of the block, and the state in which a given command word is the one the next step runs. -/

namespace Sys2Proof.Machine

/-- One step: the block's next event takes effect completely (20_memory.md R83). -/
def step (s : State) : Host.Outcome State Fault Refusal := nextEvent s

/-- The state `s` with the command of the word `w` (its low `nbits` bits) started and the engine's turn next: CMD is where
the engine takes its command from (10_state.md R31, R35; log 2). -/
def State.withFetchWord (s : State) (nbits w : Nat) : State := s.loadCommand (BitVec.ofNat 32 (w % 2 ^ nbits))

end Sys2Proof.Machine
end

