-- ==== Sys2Proof/Machine/Script.lean ====
section
/-! DEFINITION. Host scripts (30_encoding.md R110, R111): each line as the inputs it sends to the block. -/

namespace Sys2Proof.Machine

/-- `RD <REG>`: a 4-byte read at `REG_BASE + offset(REG)` (30_encoding.md R110). -/
def readRegInput (p : Params) (r : RegName) : Input := .access (.read (p.regBase + regOffset r) 4)

/-- `WR <REG>, <v>`: a 4-byte write of `v` at `REG_BASE + offset(REG)` (30_encoding.md R110). -/
def writeRegInput (p : Params) (r : RegName) (v : Word) : Input := .access (.write (p.regBase + regOffset r) 4 v)

/-- `MWB <a>, <b0 b1 …>`: one-byte writes of `b_i` at `LMEM_BASE + a + i` (30_encoding.md R110). -/
def writeBytesInputs (p : Params) (a : Nat) : List Byte → List Input
  | [] => []
  | b :: bs => .access (.write (p.lmemBase + a) 1 (0#24 ++ b)) :: writeBytesInputs p (a + 1) bs

/-- `MRB <a>, <n>`: one-byte reads at `LMEM_BASE + a + i` (30_encoding.md R110). -/
def readBytesInputs (p : Params) (a n : Nat) : List Input :=
  (List.range' a n).map fun x => .access (.read (p.lmemBase + x) 1)

/-- `WAIT`: the host reads STATUS until BUSY = 0 (30_encoding.md R111). `polls` reads find BUSY = 1, then the engine commits
and one more read finds BUSY = 0; the number of polls is the latency the spec leaves open (70_reset_and_hazards.md R271;
log 9). -/
def waitInputs (p : Params) (polls : Nat) : List Input :=
  List.replicate polls (readRegInput p .status) ++ [.engine, readRegInput p .status]

/-- `GO <MNEMONIC>`: `WR CMD, <OP of MNEMONIC>` (30_encoding.md R111). -/
def goInput (p : Params) (i : Instr) : Input := writeRegInput p .cmd (encode i)

/-- The write that clears DONE, ERR, TRAILING and ACCESS_ERR, bits 1 to 4 (30_encoding.md R111). -/
def clearAllFlags : Word := 0x1E#32

/-- The inputs one script line sends (30_encoding.md R110, R111). -/
def scriptInputs (p : Params) : ScriptLine → List Input
  | .wr r v => [writeRegInput p r v]
  | .rd r => [readRegInput p r]
  | .mwb a bs => writeBytesInputs p a bs
  | .mrb a n => readBytesInputs p a n
  | .go i => [goInput p i]
  | .wait polls => waitInputs p polls
  | .run i regs polls =>
    regs.map (fun rv => writeRegInput p rv.1 rv.2)
      ++ (writeRegInput p .status clearAllFlags :: goInput p i :: waitInputs p polls)
  | .check => [readRegInput p .status]

/-- What `CHECK` asserts of the STATUS word the host reads: DONE = 1 and ERR = 0 (30_encoding.md R111). -/
def checkPasses (status : Word) : Bool := status.getLsbD 1 && !status.getLsbD 2

/-- A script delivered to the block: its inputs, line by line, after those already on their way (20_memory.md R83). -/
def State.deliver (s : State) (script : List ScriptLine) : State :=
  { s with inbox := s.inbox ++ script.flatMap (scriptInputs s.params) }

end Sys2Proof.Machine
end

