-- ==== Sys2Proof/Safety.lean ====
section
/-! DEFINITION. The words the statements are made of: the invariant of the block, the states a success and a failure leave,
what a store changes, and the wire format of a packet as the spec lays it out. -/

namespace Sys2Proof.Machine

/-! ### The invariant -/

/-- LMEM is in canonical form (log 5). -/
def State.MemoryForm (s : State) : Prop := s.lmem.wf s.lmemSize

/-- While a command is in progress no report of an earlier one stands (10_state.md R38 to R43, 60_exceptions.md R220). -/
def State.BusyReportClear (s : State) : Prop :=
  s.phase = .busy →
    s.done = false ∧ s.err = false ∧ s.trailing = false ∧ s.errcode = 0#8 ∧ s.errPos = 0#16 ∧ s.errSub = 0#8

/-- The code, POS and SUB of an error that a command can raise: the codes of 60_exceptions.md R221 that are raised, each
with the SUB values R222 gives it, and with a POS that R222 and the cause column of R221 allow. -/
def RaisedError (code : Byte) (pos sub : Nat) : Prop :=
  (code = 0x01#8 ∧ (pos = 0 ∨ 0x09 ≤ pos ∧ pos ≤ 0xFF) ∧ sub = 0)
    ∨ (code = 0x02#8 ∧ (pos = 0 ∧ 1 ≤ sub ∧ sub ≤ 4 ∨ sub = 5))
    ∨ (code = 0x10#8 ∧ (pos < 20 ∨ 4096 < pos) ∧ sub = 0)
    ∨ (code = 0x11#8 ∧ pos < 20 ∧ sub = 0)
    ∨ (code = 0x12#8 ∧ 20 < pos ∧ sub = 0)
    ∨ (code = 0x13#8 ∧ (sub = 1 ∨ sub = 3))
    ∨ (code = 0x14#8 ∧ (sub = 1 ∨ sub = 2 ∨ sub = 3))
    ∨ (code = 0x15#8 ∧ sub = 0)
    ∨ (code = 0x16#8 ∧ 4096 < pos ∧ sub = 0)
    ∨ (code = 0x20#8 ∧ 240 < pos ∧ sub = 0)
    ∨ (code = 0x21#8 ∧ (pos = 0 ∨ pos % 16 ≠ 0 ∨ 240 < pos) ∧ sub = 0)

/-- The error report is one a command can make: no error, with ERR and ERRINFO clear; or an error that a command raises
(60_exceptions.md R221, R222), and then TRAILING is clear (10_state.md R40). No other code is ever reported
(93_implementation_defined.md U10). -/
def State.ReportLegal (s : State) : Prop :=
  (s.errcode = 0#8 ∧ s.err = false ∧ s.errPos = 0#16 ∧ s.errSub = 0#8)
    ∨ (RaisedError s.errcode s.errPos.toNat s.errSub.toNat ∧ s.trailing = false)

/-- The result registers hold what some command of 10_state.md R47 can put there: RES0 at most PKT_MAX, RES1 at most the
type and value length of a 255-byte attribute, RES2 an address of this build's LMEM or its end. -/
def State.ResultsBounded (s : State) : Prop :=
  s.res0.toNat ≤ 4096 ∧ s.res1.toNat ≤ 0xFDFF ∧ s.res2.toNat ≤ s.lmemSize

/-- What holds at reset and is kept by every step. -/
structure State.Inv (s : State) : Prop where
  memoryForm      : s.MemoryForm
  busyReportClear : s.BusyReportClear
  reportLegal     : s.ReportLegal
  resultsBounded  : s.ResultsBounded

/-! ### Inputs -/

/-- The state in which `x` is the next event of the block. -/
def State.before (s : State) (x : Input) : State := { s with inbox := x :: s.inbox }

/-- The state in which the host's `accesses` and then the engine's turn are the next events of the block. -/
def State.beforeTurn (s : State) (accesses : List HostAccess) : State :=
  { s with inbox := accesses.map Input.access ++ (Input.engine :: s.inbox) }

/-- The address of a host access. -/
def accessAddr : HostAccess → Nat
  | .read addr _ => addr
  | .write addr _ _ => addr

/-- The access is not a write that performs the soft reset (10_state.md R34). -/
def NoSoftReset (s : State) (a : HostAccess) : Prop :=
  ∀ v, a = .write (s.params.regBase + 0x004) 4 v → v.getLsbD 0 = false

/-- What a command reads and what it writes besides STATUS: LMEM and every register but STATUS, ERRINFO, ID and CTRL. -/
def SameCore (s t : State) : Prop :=
  t.op = s.op ∧ t.srcPtr = s.srcPtr ∧ t.srcLen = s.srcLen ∧ t.dstPtr = s.dstPtr ∧ t.keyPtr = s.keyPtr
    ∧ t.keyLen = s.keyLen ∧ t.raPtr = s.raPtr ∧ t.aux = s.aux ∧ t.pktHdr = s.pktHdr ∧ t.pktAuth = s.pktAuth
    ∧ t.res0 = s.res0 ∧ t.res1 = s.res1 ∧ t.res2 = s.res2 ∧ t.digest = s.digest ∧ t.lmem = s.lmem
    ∧ t.params = s.params

/-- The registers no command writes (10_state.md R44, R35, R41), and the model's own fields. -/
def SameOperands (s t : State) : Prop :=
  t.op = s.op ∧ t.srcPtr = s.srcPtr ∧ t.srcLen = s.srcLen ∧ t.dstPtr = s.dstPtr ∧ t.keyPtr = s.keyPtr
    ∧ t.keyLen = s.keyLen ∧ t.raPtr = s.raPtr ∧ t.aux = s.aux ∧ t.accessErr = s.accessErr
    ∧ t.params = s.params ∧ t.inbox = s.inbox ∧ t.response = s.response

/-! ### What a commit leaves -/

/-- `s` after a command that succeeds with these three results (60_exceptions.md R223, 10_state.md R47) and writes nothing
else. -/
def State.succeeded (s : State) (res0 res1 res2 : Nat) : State :=
  { s with
    phase := .idle, done := true, err := false, errcode := 0#8, errPos := 0#16, errSub := 0#8
    res0 := BitVec.ofNat 32 res0, res1 := BitVec.ofNat 32 res1, res2 := BitVec.ofNat 32 res2 }

/-- `s` after a command that raises the error of code `code` with `pos` and `sub` (60_exceptions.md R223, R224). -/
def State.failed (s : State) (code : Byte) (pos sub : Nat) : State :=
  { s with
    phase := .idle, done := true, err := true, errcode := code
    errPos := BitVec.ofNat 16 pos, errSub := BitVec.ofNat 8 sub }

/-- `m'` is `m` with the byte string `bs` stored at address `a`: every byte of the region reads as the string's, every
other byte reads as before. -/
def Stored (m m' : Memory) (a : Nat) (bs : List Byte) : Prop :=
  ∀ x, m'.read x = if a ≤ x ∧ x < a + bs.length then bs.getD (x - a) 0#8 else m.read x

/-- Two regions of LMEM have no address in common. -/
def Apart (a n b k : Nat) : Prop := a + n ≤ b ∨ b + k ≤ a

/-- The region a command that succeeded stores to, from the state it ran in and the state it left: 40_attribute_codec.md
R133, 41_packet_codec.md R155, R160, 42_password_cipher.md R182, R184, 43_response_authenticator.md R201. -/
def storeRegion (s t : State) : Instr → Nat × Nat
  | .attrDecode => (0, 0)
  | .attrEncode => (s.dstAddr, 2 + s.srcCount)
  | .pktDecode => (s.dstAddr, 4 * t.res0.toNat)
  | .pktEncode => (s.dstAddr, t.res0.toNat)
  | .wireLen => (0, 0)
  | .pwdHide => (s.dstAddr, cipherLength s.srcCount)
  | .pwdUnhide => (s.dstAddr, s.srcCount)
  | .respSign => (s.srcAddr + 4, 16)

/-! ### The wire format -/

/-- An attribute: its type and its value bytes (30_encoding.md R105). -/
abbrev Attr := Byte × List Byte

/-- The value of an attribute is at most 253 bytes (30_encoding.md R105). -/
def Attr.ok (a : Attr) : Prop := a.2.length ≤ 253

/-- The wire bytes of a list of attributes, in order (30_encoding.md R105). -/
def attrsBytes : List Attr → List Byte
  | [] => []
  | a :: as => a.1 :: BitVec.ofNat 8 (2 + a.2.length) :: (a.2 ++ attrsBytes as)

/-- The wire bytes of a packet of declared length `len` (30_encoding.md R104): code, identifier, length big-endian,
authenticator, then what follows. -/
def packetBytes (code ident : Byte) (len : Nat) (auth body : List Byte) : List Byte :=
  code :: ident :: BitVec.ofNat 8 (len / 256) :: BitVec.ofNat 8 len :: (auth ++ body)

/-- The bytes of the descriptor table of a list of attributes that stand at offset `o` of a datagram at LMEM address `r`
(30_encoding.md R106, R107): type, value length, address of the value big-endian. -/
def descriptorBytes (r : Nat) : Nat → List Attr → List Byte
  | _, [] => []
  | o, a :: as =>
    a.1 :: BitVec.ofNat 8 a.2.length :: BitVec.ofNat 8 ((r + o + 2) / 256) :: BitVec.ofNat 8 (r + o + 2)
      :: descriptorBytes r (o + 2 + a.2.length) as

/-- `voff` of the descriptor at LMEM address `d` (30_encoding.md R106). -/
def voffAt (m : Memory) (d : Nat) : Nat := (m.read (d + 2)).toNat * 256 + (m.read (d + 3)).toNat

/-- The descriptor at LMEM address `d` holds the attribute `a`: its type, its value length, and a value region that is in
bounds and reads as the value (30_encoding.md R106, 41_packet_codec.md R161). -/
def DescriptorHolds (s : State) (d : Nat) (a : Attr) : Prop :=
  s.lmem.read d = a.1 ∧ (s.lmem.read (d + 1)).toNat = a.2.length ∧ a.2.length ≤ 253
    ∧ s.InBounds (voffAt s.lmem d) a.2.length ∧ s.lmem.readBytes (voffAt s.lmem d) a.2.length = a.2

/-- The descriptor table at LMEM address `t` begins with the attributes `as`, in order (30_encoding.md R107). -/
def TableHolds (s : State) (t : Nat) : List Attr → Prop
  | [] => True
  | a :: as => DescriptorHolds s t a ∧ TableHolds s (t + 4) as

end Sys2Proof.Machine
end

