-- ==== Sys2Proof/Certificates/Slice0/Obligations.lean ====
section
/-! DEFINITION. The statements for the provers, rule by rule of spec/. -/

open Sys2Proof Sys2Proof.Machine

/-! ### The command word -/

/-- Words written out from 30_encoding.md R101 and R102 decode to the commands they stand for, whatever the reserved
bits hold; reserved codes are rejected. -/
def Obligations.DecodeReadsSpecWords : Prop :=
  decodeWord 0x00000001#32 = .ok .attrDecode ∧ decodeWord 0x00000002#32 = .ok .attrEncode
    ∧ decodeWord 0x00000003#32 = .ok .pktDecode ∧ decodeWord 0x00000004#32 = .ok .pktEncode
    ∧ decodeWord 0x00000005#32 = .ok .wireLen ∧ decodeWord 0x00000006#32 = .ok .pwdHide
    ∧ decodeWord 0xFFFFFF07#32 = .ok .pwdUnhide ∧ decodeWord 0x00ABCD08#32 = .ok .respSign
    ∧ decodeWord 0x00ABCD00#32 = .error (.reservedOp 0x00#8)
    ∧ decodeWord 0x00ABCD09#32 = .error (.reservedOp 0x09#8)
    ∧ decodeWord 0x00ABCDFF#32 = .error (.reservedOp 0xFF#8)

/-- The opcode map of 30_encoding.md R101, row by row, for every command word: a word stands for a command exactly when
its bits 7:0 are the command's code, and for none exactly when they are 0x00 or 0x09 to 0xFF. -/
def Obligations.DecodeIsTheOpcodeMap : Prop :=
  ∀ w : Word,
    (decodeWord w = .ok .attrDecode ↔ w.extractLsb' 0 8 = 0x01#8)
    ∧ (decodeWord w = .ok .attrEncode ↔ w.extractLsb' 0 8 = 0x02#8)
    ∧ (decodeWord w = .ok .pktDecode ↔ w.extractLsb' 0 8 = 0x03#8)
    ∧ (decodeWord w = .ok .pktEncode ↔ w.extractLsb' 0 8 = 0x04#8)
    ∧ (decodeWord w = .ok .wireLen ↔ w.extractLsb' 0 8 = 0x05#8)
    ∧ (decodeWord w = .ok .pwdHide ↔ w.extractLsb' 0 8 = 0x06#8)
    ∧ (decodeWord w = .ok .pwdUnhide ↔ w.extractLsb' 0 8 = 0x07#8)
    ∧ (decodeWord w = .ok .respSign ↔ w.extractLsb' 0 8 = 0x08#8)
    ∧ (decodeWord w = .error (.reservedOp (w.extractLsb' 0 8)) ↔
        w.extractLsb' 0 8 = 0x00#8 ∨ 0x09 ≤ (w.extractLsb' 0 8).toNat)

/-- Decode and encode agree, with the reserved bits of the command word at every value (30_encoding.md R100, R101,
R102). The spec writes a command word as one 32-bit value and never lays it out in bytes: that its bytes stand with bits
7:0 first is the model's choice (log 13, DEDUCED), and the clauses about bytes rest on it. In that order the decoder
reads an encoded command back and leaves the bytes after it; and whatever it reads, the first byte is the code of the
command it answers and three more are consumed. -/
def Obligations.DecodeInvertsEncode : Prop :=
  (∀ (i : Instr) (rest : List Byte), i.wellFormed = true → decodeBytes (encodeBytes i ++ rest) = .ok (i, rest))
  ∧ (∀ (i : Instr) (reserved : BitVec 24), decodeWord (reserved ++ opcode i) = .ok i)
  ∧ (∀ (bs rest : List Byte) (i : Instr), decodeBytes bs = .ok (i, rest) →
      ∃ r1 r2 r3, bs = opcode i :: r1 :: r2 :: r3 :: rest)

/-! ### Starting a command, and the engine's turn -/

/-- A step runs the latched command: while BUSY, when the engine's turn is next (or nothing else is), the step is `exec`
of the command OP stands for (60_exceptions.md R223, 10_state.md R35). That the turn comes when nothing else is next is
the model's choice (log 1). -/
def Obligations.StepRunsLatchedCommand : Prop :=
  ∀ (s : State) (i : Instr), s.phase = .busy → decodeOp s.op = .ok i → i.wellFormed = true →
    step (s.before .engine) = exec i s ∧ (s.inbox = [] → step s = exec i s)

/-- Command start (60_exceptions.md R220, 10_state.md R35): a 4-byte write of `v` to CMD while IDLE latches OP, clears
the report of the last command and makes the engine BUSY, and changes nothing else; while BUSY it is ignored and sets
ACCESS_ERR. A read of CMD returns OP. Here and below `response` holds what a read gets back, and `r` leaves open what it
holds after a write (log 3). -/
def Obligations.CmdWriteStartsCommand : Prop :=
  ∀ (s : State) (v : Word),
    (s.phase = .idle →
      ∃ r, step (s.before (.access (.write (s.params.regBase + 0x008) 4 v))) =
        .next { s with
          op := v.extractLsb' 0 8, done := false, err := false, trailing := false, errcode := 0#8
          errPos := 0#16, errSub := 0#8, phase := .busy, response := r })
    ∧ (s.phase = .busy →
        ∃ r, step (s.before (.access (.write (s.params.regBase + 0x008) 4 v))) =
          .next { s with accessErr := true, response := r })
    ∧ step (s.before (.access (.read (s.params.regBase + 0x008) 4))) =
        .next { s with response := some (s.op.setWidth 32) }
    ∧ State.reset.op = 0#8

/-- A reserved OP (30_encoding.md R109): the engine's turn raises ILLEGAL_OP with POS = OP and SUB = 0 and leaves LMEM
and every other register as they are. Bits 31:8 of a command word take no part in decoding it. -/
def Obligations.ReservedOpRaisesIllegalOp : Prop :=
  (∀ s : State, s.phase = .busy → (s.op = 0x00#8 ∨ 0x09 ≤ s.op.toNat) →
    step (s.before .engine) = .next (s.failed 0x01#8 s.op.toNat 0))
  ∧ (∀ v w : Word, v.extractLsb' 0 8 = w.extractLsb' 0 8 → decodeWord v = decodeWord w)

/-- The engine is never started but by a CMD write, and it sequences nothing by itself (10_state.md R31, 30_encoding.md
R112): a step that takes the block from IDLE to BUSY is a 4-byte write to CMD. -/
def Obligations.OnlyCmdWriteStartsEngine : Prop :=
  ∀ (s t : State), step s = .next t → s.phase = .idle → t.phase = .busy →
    ∃ v rest, s.inbox = .access (.write (s.params.regBase + 0x008) 4 v) :: rest ∧ t.op = v.extractLsb' 0 8

/-- Whatever accesses the host makes while a command runs, the command commits at the engine's turn, unless one of them
is a soft reset (70_reset_and_hazards.md R271), and it commits what it would have committed at once (20_memory.md R74,
R79): LMEM, every register a command writes, DONE, ERR, ERRCODE and ERRINFO; and TRAILING, which the start has cleared
(10_state.md R40; a host W1C write could otherwise clear an older one). ACCESS_ERR alone tells that there were accesses
(R41). -/
def Obligations.BusyAccessesCannotChangeCommit : Prop :=
  ∀ (s : State) (accesses : List HostAccess), s.phase = .busy →
    (∀ a ∈ accesses, s.target (accessAddr a) ≠ .outside ∧ NoSoftReset s a) →
    ∃ t u, Host.Core.run Sys2Proof.core (accesses.length + 1) (s.beforeTurn accesses) = .next t
      ∧ step (s.before .engine) = .next u
      ∧ SameCore u t ∧ t.phase = .idle ∧ t.done = true ∧ t.err = u.err
      ∧ t.errcode = u.errcode ∧ t.errPos = u.errPos ∧ t.errSub = u.errSub ∧ t.inbox = s.inbox
      ∧ (s.BusyReportClear → t.trailing = u.trailing)

/-! ### The register window -/

/-- What a 4-byte read of each register returns (10_state.md R32 to R49), in either phase: and it changes nothing
(20_memory.md R80). -/
def Obligations.RegisterReadValues : Prop :=
  ∀ (s : State) (off : Nat) (v : Word),
    ((off = 0x000 ∧ v = 0x52434231#32) ∨ (off = 0x004 ∧ v = 0#32) ∨ (off = 0x008 ∧ v = s.op.setWidth 32)
      ∨ (off = 0x014 ∧ v = s.srcPtr.setWidth 32) ∨ (off = 0x018 ∧ v = s.srcLen.setWidth 32)
      ∨ (off = 0x01C ∧ v = s.dstPtr.setWidth 32) ∨ (off = 0x020 ∧ v = s.keyPtr.setWidth 32)
      ∨ (off = 0x024 ∧ v = s.keyLen.setWidth 32) ∨ (off = 0x028 ∧ v = s.raPtr.setWidth 32)
      ∨ (off = 0x02C ∧ v = s.aux.setWidth 32) ∨ (off = 0x030 ∧ v = s.pktHdr)
      ∨ (off = 0x034 ∧ v = s.pktAuth.w0) ∨ (off = 0x038 ∧ v = s.pktAuth.w1)
      ∨ (off = 0x03C ∧ v = s.pktAuth.w2) ∨ (off = 0x040 ∧ v = s.pktAuth.w3)
      ∨ (off = 0x044 ∧ v = s.res0) ∨ (off = 0x048 ∧ v = s.res1) ∨ (off = 0x04C ∧ v = s.res2)
      ∨ (off = 0x050 ∧ v = s.digest.w0) ∨ (off = 0x054 ∧ v = s.digest.w1)
      ∨ (off = 0x058 ∧ v = s.digest.w2) ∨ (off = 0x05C ∧ v = s.digest.w3)
      ∨ (0x060 ≤ off ∧ off < 0x1000 ∧ off % 4 = 0 ∧ v = 0#32)) →
    step (s.before (.access (.read (s.params.regBase + off) 4))) = .next { s with response := some v }

/-- STATUS (10_state.md R36): which field stands at which bit of the word a read returns, the reserved bits 0; and a
write, in either phase, clears the W1C fields whose bit is 1, leaves the others and never sets ACCESS_ERR. With it the
word an ERRINFO read returns (10_state.md R43). -/
def Obligations.StatusRegister : Prop :=
  ∀ s : State,
    (∃ status errinfo : Word,
      step (s.before (.access (.read (s.params.regBase + 0x00C) 4))) = .next { s with response := some status }
      ∧ step (s.before (.access (.read (s.params.regBase + 0x010) 4))) = .next { s with response := some errinfo }
      ∧ (status.getLsbD 0 = true ↔ s.phase = .busy) ∧ status.getLsbD 1 = s.done ∧ status.getLsbD 2 = s.err
      ∧ status.getLsbD 3 = s.trailing ∧ status.getLsbD 4 = s.accessErr ∧ status.extractLsb' 5 3 = 0#3
      ∧ status.extractLsb' 8 8 = s.errcode ∧ status.extractLsb' 16 16 = 0#16
      ∧ errinfo.extractLsb' 0 16 = s.errPos ∧ errinfo.extractLsb' 16 8 = s.errSub ∧ errinfo.extractLsb' 24 8 = 0#8)
    ∧ ∀ v : Word, ∃ r,
        step (s.before (.access (.write (s.params.regBase + 0x00C) 4 v))) =
          .next { s with
            done := s.done && !v.getLsbD 1, err := s.err && !v.getLsbD 2, trailing := s.trailing && !v.getLsbD 3
            accessErr := s.accessErr && !v.getLsbD 4, response := r }

/-- Host writes while IDLE (10_state.md R44, R45, R46, R49): an operand register takes bits 15:0, a header register all
32 bits; a read-only register and a reserved offset ignore the write, and no flag is set.That none is set for a
read-only register is the model's reading (log 16). -/
def Obligations.IdleRegisterWrites : Prop :=
  ∀ (s t : State) (off : Nat) (v : Word), s.phase = .idle →
    ((off = 0x014 ∧ t = { s with srcPtr := v.extractLsb' 0 16 }) ∨ (off = 0x018 ∧ t = { s with srcLen := v.extractLsb' 0 16 })
      ∨ (off = 0x01C ∧ t = { s with dstPtr := v.extractLsb' 0 16 }) ∨ (off = 0x020 ∧ t = { s with keyPtr := v.extractLsb' 0 16 })
      ∨ (off = 0x024 ∧ t = { s with keyLen := v.extractLsb' 0 16 }) ∨ (off = 0x028 ∧ t = { s with raPtr := v.extractLsb' 0 16 })
      ∨ (off = 0x02C ∧ t = { s with aux := v.extractLsb' 0 16 }) ∨ (off = 0x030 ∧ t = { s with pktHdr := v })
      ∨ (off = 0x034 ∧ t = { s with pktAuth := { s.pktAuth with w0 := v } })
      ∨ (off = 0x038 ∧ t = { s with pktAuth := { s.pktAuth with w1 := v } })
      ∨ (off = 0x03C ∧ t = { s with pktAuth := { s.pktAuth with w2 := v } })
      ∨ (off = 0x040 ∧ t = { s with pktAuth := { s.pktAuth with w3 := v } })
      ∨ (off = 0x000 ∧ t = s) ∨ (off = 0x010 ∧ t = s) ∨ (0x044 ≤ off ∧ off < 0x1000 ∧ off % 4 = 0 ∧ t = s)) →
    ∃ r, step (s.before (.access (.write (s.params.regBase + off) 4 v))) = .next { t with response := r }

/-- Host writes while BUSY (10_state.md R54): a write to any register offset but CTRL and STATUS is ignored and sets
ACCESS_ERR; a read returns the current value. -/
def Obligations.BusyRegisterAccess : Prop :=
  ∀ (s : State) (off : Nat) (v : Word), s.phase = .busy → off < 0x1000 → off % 4 = 0 →
    (off ≠ 0x004 → off ≠ 0x00C →
      ∃ r, step (s.before (.access (.write (s.params.regBase + off) 4 v))) =
        .next { s with accessErr := true, response := r })
    ∧ step (s.before (.access (.read (s.params.regBase + off) 4))) = .next { s with response := some (s.readRegAt off) }

/-- A register-window access that is not 4 bytes wide and 4-aligned is ignored in either phase: a write changes nothing,
a read returns 0, and either sets ACCESS_ERR (20_memory.md R73). Alignment is measured inside the window, the model's
reading (log 6). -/
def Obligations.IllegalRegisterAccessIgnored : Prop :=
  ∀ (s : State) (off width : Nat) (v : Word), off < 0x1000 → (width ≠ 4 ∨ off % 4 ≠ 0) →
    (∃ r, step (s.before (.access (.write (s.params.regBase + off) width v))) =
      .next { s with accessErr := true, response := r })
    ∧ step (s.before (.access (.read (s.params.regBase + off) width))) =
        .next { s with accessErr := true, response := some 0#32 }

/-- CTRL (10_state.md R34) and the soft reset (70_reset_and_hazards.md R262): a write with bit 0 set, in either phase,
puts every register at its reset value and the phase to IDLE, keeps LMEM and leaves no trace of a running command; a
write with bit 0 clear has no effect; CTRL reads 0. -/
def Obligations.CtrlWriteSoftResets : Prop :=
  ∀ (s : State) (v : Word),
    (v.getLsbD 0 = true →
      ∃ r, step (s.before (.access (.write (s.params.regBase + 0x004) 4 v))) =
        .next { State.reset with lmem := s.lmem, params := s.params, inbox := s.inbox, response := r })
    ∧ (v.getLsbD 0 = false →
        ∃ r, step (s.before (.access (.write (s.params.regBase + 0x004) 4 v))) = .next { s with response := r })
    ∧ step (s.before (.access (.read (s.params.regBase + 0x004) 4))) = .next { s with response := some 0#32 }

/-- Power-on reset (70_reset_and_hazards.md R260): every register reads its reset value, ID 0x52434231 and every other
0; the engine is IDLE and no command is pending, so that its turn does nothing. -/
def Obligations.PowerOnResetValues : Prop :=
  (∀ r : RegName, State.reset.readReg r = if r = .ident then 0x52434231#32 else 0#32)
  ∧ State.reset.phase = .idle ∧ State.reset.op = 0#8 ∧ engineTurn State.reset = .next State.reset

/-- ACCESS_ERR is sticky (10_state.md R41): a step that clears it is a STATUS write with bit 4 set or a soft reset. -/
def Obligations.AccessErrIsSticky : Prop :=
  ∀ (s t : State), step s = .next t → s.accessErr = true → t.accessErr = false →
    ∃ v rest, (s.inbox = .access (.write (s.params.regBase + 0x00C) 4 v) :: rest ∧ v.getLsbD 4 = true)
      ∨ (s.inbox = .access (.write (s.params.regBase + 0x004) 4 v) :: rest ∧ v.getLsbD 0 = true)

/-- Sixteen bytes in four registers (10_state.md R46, R48): byte `j` is in register `j / 4`, bits `8 * (j % 4) + 7 : 8 *
(j % 4)`; and the registers give the bytes back. -/
def Obligations.AuthenticatorLaneOrder : Prop :=
  ∀ bs : List Byte, bs.length = 16 →
    (∀ j < 4, (Lanes.ofBytes bs).w0.extractLsb' (8 * j) 8 = bs.getD j 0#8
      ∧ (Lanes.ofBytes bs).w1.extractLsb' (8 * j) 8 = bs.getD (4 + j) 0#8
      ∧ (Lanes.ofBytes bs).w2.extractLsb' (8 * j) 8 = bs.getD (8 + j) 0#8
      ∧ (Lanes.ofBytes bs).w3.extractLsb' (8 * j) 8 = bs.getD (12 + j) 0#8)
    ∧ (Lanes.ofBytes bs).toBytes = bs

/-! ### The LMEM window -/

/-- A host LMEM write while IDLE stores its low `width` bytes in little-endian lanes and changes nothing else
(20_memory.md R72): 1, 2 or 4 bytes, naturally aligned. Alignment measured inside the window, and the place of a narrow
write's data, are the model's reading (logs 6, 8). -/
def Obligations.HostLmemWriteStores : Prop :=
  ∀ (s : State) (a width : Nat) (v : Word), s.params.wellFormed = true → s.phase = .idle → a < s.lmemSize →
    (width = 1 ∨ width = 2 ∨ width = 4) → a % width = 0 →
    ∃ t, step (s.before (.access (.write (s.params.lmemBase + a) width v))) = .next t
      ∧ t = { s with lmem := t.lmem, response := t.response }
      ∧ ∀ x, t.lmem.read x =
          if a ≤ x ∧ x < a + width then BitVec.ofNat 8 (v.toNat / 2 ^ (8 * (x - a))) else s.lmem.read x

/-- A host LMEM read, in either phase, returns the bytes in little-endian lanes, and changes nothing (20_memory.md R72,
R75, R80). Zero above a narrow read's bytes, and alignment measured inside the window, are the model's reading (logs 6,
8). -/
def Obligations.HostLmemReadReturnsLanes : Prop :=
  ∀ (s : State) (a width : Nat), s.params.wellFormed = true → a < s.lmemSize →
    (width = 1 ∨ width = 2 ∨ width = 4) → a % width = 0 →
    ∃ v : Word, step (s.before (.access (.read (s.params.lmemBase + a) width))) = .next { s with response := some v }
      ∧ v.toNat < 2 ^ (8 * width)
      ∧ ∀ k < width, BitVec.ofNat 8 (v.toNat / 2 ^ (8 * k)) = s.lmem.read (a + k)

/-- A host LMEM access of another width, or misaligned, does not reach LMEM; and while BUSY no LMEM write does
(20_memory.md R72, R74): a write changes nothing, a read returns 0, and ACCESS_ERR is set. Alignment is measured inside
the window, the model's reading (log 6). -/
def Obligations.IgnoredLmemAccess : Prop :=
  ∀ (s : State) (a width : Nat) (v : Word), s.params.wellFormed = true → a < s.lmemSize →
    (s.phase = .busy ∨ ¬ (width = 1 ∨ width = 2 ∨ width = 4) ∨ a % width ≠ 0 →
      ∃ r, step (s.before (.access (.write (s.params.lmemBase + a) width v))) =
        .next { s with accessErr := true, response := r })
    ∧ (¬ (width = 1 ∨ width = 2 ∨ width = 4) ∨ a % width ≠ 0 →
        step (s.before (.access (.read (s.params.lmemBase + a) width))) =
          .next { s with accessErr := true, response := some 0#32 })

/-- LMEM changes only at a host LMEM write while IDLE or at the engine's turn while BUSY (20_memory.md R74, R79,
10_state.md R50). -/
def Obligations.LmemChangesOnlyByWriteOrCommit : Prop :=
  ∀ (s t : State) (a : Nat), step s = .next t → t.lmem.read a ≠ s.lmem.read a →
    (s.phase = .idle ∧ ∃ x width v rest, s.inbox = .access (.write (s.params.lmemBase + x) width v) :: rest
      ∧ x ≤ a ∧ a < x + width)
    ∨ (s.phase = .busy ∧ (s.inbox = [] ∨ ∃ rest, s.inbox = .engine :: rest))

/-! ### Every command -/

/-- No command and no step is refused, and a step faults only on a host access outside both windows, which does not
reach the block (60_exceptions.md R226, 20_memory.md R71): that fault is the model's choice (log 7). -/
def Obligations.OnlyOutsideAccessesFault : Prop :=
  (∀ (i : Instr) (s : State), ∃ t, exec i s = .next t)
  ∧ (∀ (s : State) (r : Refusal), step s ≠ .refused r)
  ∧ (∀ (s : State) (f : Fault), step s = .fault f →
      ∃ a rest, s.inbox = .access a :: rest ∧ f = .outsideWindows (accessAddr a)
        ∧ ¬ (s.params.regBase ≤ accessAddr a ∧ accessAddr a < s.params.regBase + 0x1000)
        ∧ ¬ (s.params.lmemBase ≤ accessAddr a ∧ accessAddr a < s.params.lmemBase + s.lmemSize))

/-- No command writes an operand register, OP or ACCESS_ERR; every command ends with DONE = 1 and the engine IDLE
(10_state.md R44, R38, 60_exceptions.md R223). -/
def Obligations.CommitKeepsOperands : Prop :=
  ∀ (i : Instr) (s t : State), exec i s = .next t → SameOperands s t ∧ t.phase = .idle ∧ t.done = true

/-- An error discards every output (60_exceptions.md R224): after a commit that raised one, of any command or of a
reserved OP, only DONE, ERR, ERRCODE, ERRINFO and the phase may differ from before; and the code is one of
60_exceptions.md R221. -/
def Obligations.ErrorDiscardsOutputs : Prop :=
  ∀ s t : State, s.phase = .busy → step (s.before .engine) = .next t → t.err = true →
    t = { s with phase := .idle, done := true, err := true, errcode := t.errcode, errPos := t.errPos, errSub := t.errSub }
    ∧ t.errcode ∈ [0x01#8, 0x02#8, 0x10#8, 0x11#8, 0x12#8, 0x13#8, 0x14#8, 0x15#8, 0x16#8, 0x20#8, 0x21#8]

/-- After a command that raised none, ERR, ERRCODE and ERRINFO are 0 (10_state.md R39, R42, R43). -/
def Obligations.SuccessReportsNoError : Prop :=
  ∀ (i : Instr) (s t : State), exec i s = .next t → t.err = false →
    t.errcode = 0#8 ∧ t.errPos = 0#16 ∧ t.errSub = 0#8

/-- Only PKT_DECODE writes the header registers and TRAILING, and only RESP_SIGN the digest registers (10_state.md R40,
R45, R46, R48, R53). -/
def Obligations.HeaderAndDigestWriters : Prop :=
  ∀ (i : Instr) (s t : State), exec i s = .next t →
    (i ≠ .pktDecode → t.pktHdr = s.pktHdr ∧ t.pktAuth = s.pktAuth ∧ t.trailing = s.trailing)
    ∧ (i ≠ .respSign → t.digest = s.digest)

/-- What a command stores (20_memory.md R78, R79): outside its output region every LMEM byte reads as before, the region
is in bounds, and ATTR_DECODE and WIRE_LEN store nothing. -/
def Obligations.CommandsStoreOnlyToTheirRegion : Prop :=
  ∀ (i : Instr) (s t : State), exec i s = .next t → t.err = false →
    (∀ x, ¬ ((storeRegion s t i).1 ≤ x ∧ x < (storeRegion s t i).1 + (storeRegion s t i).2) →
      t.lmem.read x = s.lmem.read x)
    ∧ s.InBounds (storeRegion s t i).1 (storeRegion s t i).2
    ∧ (i = .attrDecode ∨ i = .wireLen → t.lmem = s.lmem)

/-- A `RUN` line of a host script (30_encoding.md R110, R111; where the engine's turn comes and how often the host polls
are the model's choices, logs 1 and 9): once all its bus accesses and the engine's turn have taken effect, the block
holds what the command leaves when run on the listed register values, the flags cleared, and the host has read a STATUS
word with BUSY = 0. How many polls found BUSY = 1 makes no difference. The listed registers are any of 10_state.md R32
but CMD, whose write would start another command first. -/
def Obligations.RunLineRunsCommand : Prop :=
  ∀ (s : State) (i : Instr) (regs : List (RegName × Word)) (polls : Nat), s.phase = .idle → s.inbox = [] →
    (∀ rv ∈ regs, rv.1 ≠ .cmd) →
    ∃ t u, Host.Core.run Sys2Proof.core (scriptInputs s.params (.run i regs polls)).length (s.deliver [.run i regs polls]) =
        .next t
      ∧ exec i (((regs.foldl (fun x rv => x.writeRegIdle rv.2 rv.1) s).clearStatus 0x1E#32).startCommand (opcode i)) = .next u
      ∧ t = { u with response := some u.statusWord } ∧ u.statusWord.getLsbD 0 = false

/-! ### The attribute codec -/

/-- ATTR_DECODE of a whole attribute (40_attribute_codec.md R131, R132): RES0 = L, RES1 = type and value length, RES2 =
the value's address; nothing else is written. -/
def Obligations.AttrDecodeResult : Prop :=
  ∀ (s : State) (len : Nat), s.srcAddr + s.srcCount ≤ s.lmemSize → s.auxCount + 2 ≤ s.srcCount →
    (s.lmem.read (s.srcAddr + s.auxCount + 1)).toNat = len → 2 ≤ len → s.auxCount + len ≤ s.srcCount →
    exec .attrDecode s =
      .next (s.succeeded len ((s.lmem.read (s.srcAddr + s.auxCount)).toNat + (len - 2) * 256) (s.srcAddr + s.auxCount + 2))

/-- The errors of ATTR_DECODE in their order (40_attribute_codec.md R130, R131). -/
def Obligations.AttrDecodeErrors : Prop :=
  ∀ (s : State) (len : Nat), (s.lmem.read (s.srcAddr + s.auxCount + 1)).toNat = len →
    (s.srcCount ≠ 0 ∧ s.lmemSize < s.srcAddr + s.srcCount → exec .attrDecode s = .next (s.failed 0x02#8 0 1))
    ∧ (s.InBounds s.srcAddr s.srcCount →
        (s.srcCount < s.auxCount + 2 → exec .attrDecode s = .next (s.failed 0x14#8 s.auxCount 1))
        ∧ (s.auxCount + 2 ≤ s.srcCount → len < 2 → exec .attrDecode s = .next (s.failed 0x14#8 s.auxCount 2))
        ∧ (s.auxCount + 2 ≤ s.srcCount → 2 ≤ len → s.srcCount < s.auxCount + len →
            exec .attrDecode s = .next (s.failed 0x14#8 s.auxCount 3)))

/-- ATTR_ENCODE (40_attribute_codec.md R133): type, length byte and value are stored at DST_PTR, RES0 = 2 + n; nothing
else is written. -/
def Obligations.AttrEncodeResult : Prop :=
  ∀ s : State, s.srcCount ≤ 253 → s.InBounds s.srcAddr s.srcCount → s.dstAddr + (2 + s.srcCount) ≤ s.lmemSize →
    ∃ t, exec .attrEncode s = .next t
      ∧ t = { s.succeeded (2 + s.srcCount) 0 0 with lmem := t.lmem }
      ∧ Stored s.lmem t.lmem s.dstAddr
          (s.aux.extractLsb' 0 8 :: BitVec.ofNat 8 (2 + s.srcCount) :: s.lmem.readBytes s.srcAddr s.srcCount)

/-- The errors of ATTR_ENCODE in their order (40_attribute_codec.md R133). -/
def Obligations.AttrEncodeErrors : Prop :=
  ∀ s : State,
    (253 < s.srcCount → exec .attrEncode s = .next (s.failed 0x15#8 s.srcCount 0))
    ∧ (s.srcCount ≤ 253 → ¬ s.InBounds s.srcAddr s.srcCount → exec .attrEncode s = .next (s.failed 0x02#8 0 1))
    ∧ (s.srcCount ≤ 253 → s.InBounds s.srcAddr s.srcCount → s.lmemSize < s.dstAddr + (2 + s.srcCount) →
        exec .attrEncode s = .next (s.failed 0x02#8 0 2))

/-- The attribute round trip, an inference the spec marks as its own (40_attribute_codec.md R134 "[derived: …]"):
decoding what ATTR_ENCODE stored gives back the type, the length and the value, which stands at DST_PTR + 2. -/
def Obligations.AttributeRoundTrip : Prop :=
  ∀ (s t : State), exec .attrEncode s = .next t → t.err = false →
    exec .attrDecode { t with srcPtr := s.dstPtr, srcLen := BitVec.ofNat 16 (2 + s.srcCount), aux := 0#16 } =
      .next ({ t with srcPtr := s.dstPtr, srcLen := BitVec.ofNat 16 (2 + s.srcCount), aux := 0#16 }.succeeded
        (2 + s.srcCount) ((s.aux.extractLsb' 0 8).toNat + s.srcCount * 256) (s.dstAddr + 2))
    ∧ t.lmem.readBytes (s.dstAddr + 2) s.srcCount = s.lmem.readBytes s.srcAddr s.srcCount

/-! ### The packet codec -/

/-- PKT_DECODE of a datagram that holds a well-formed packet and `extra` trailing bytes (41_packet_codec.md R155, R152,
R158): the header registers, one descriptor for each attribute in wire order, the counts and TRAILING; nothing else is
written. -/
def Obligations.PktDecodeResult : Prop :=
  ∀ (s : State) (code ident : Byte) (auth extra : List Byte) (attrs : List Attr),
    auth.length = 16 → (∀ a ∈ attrs, Attr.ok a) →
    s.lmem.readBytes s.srcAddr s.srcCount =
      packetBytes code ident (20 + (attrsBytes attrs).length) auth (attrsBytes attrs) ++ extra →
    s.srcCount ≤ 4096 → s.srcAddr + s.srcCount ≤ s.lmemSize → s.InBounds s.dstAddr (4 * attrs.length) →
    ∃ t, exec .pktDecode s = .next t
      ∧ t = { s.succeeded attrs.length extra.length 0 with
                pktHdr := BitVec.ofNat 16 (20 + (attrsBytes attrs).length) ++ ident ++ code
                pktAuth := Lanes.ofBytes auth, trailing := !extra.isEmpty, lmem := t.lmem }
      ∧ Stored s.lmem t.lmem s.dstAddr (descriptorBytes s.srcAddr 20 attrs)

/-- PKT_DECODE succeeds on nothing else (41_packet_codec.md R150 to R157): the datagram it accepts is a well-formed
packet of 20 to 4096 bytes followed by trailing bytes. -/
def Obligations.PktDecodeAcceptsOnlyPackets : Prop :=
  ∀ (s t : State), exec .pktDecode s = .next t → t.err = false →
    20 ≤ s.srcCount ∧ s.srcCount ≤ 4096 ∧ s.srcAddr + s.srcCount ≤ s.lmemSize
    ∧ ∃ (code ident : Byte) (auth extra : List Byte) (attrs : List Attr),
        auth.length = 16 ∧ (∀ a ∈ attrs, Attr.ok a)
        ∧ s.lmem.readBytes s.srcAddr s.srcCount =
            packetBytes code ident (20 + (attrsBytes attrs).length) auth (attrsBytes attrs) ++ extra
        ∧ t.res0.toNat = attrs.length ∧ t.res1.toNat = extra.length

/-- The length checks of PKT_DECODE in their order (41_packet_codec.md R151, R156, R157, 20_memory.md R78). -/
def Obligations.PktDecodeLengthErrors : Prop :=
  ∀ (s : State) (declared : Nat),
    (s.lmem.read (s.srcAddr + 2)).toNat * 256 + (s.lmem.read (s.srcAddr + 3)).toNat = declared →
    (s.srcCount < 20 ∨ 4096 < s.srcCount → exec .pktDecode s = .next (s.failed 0x10#8 s.srcCount 0))
    ∧ (20 ≤ s.srcCount → s.srcCount ≤ 4096 →
        (s.lmemSize < s.srcAddr + s.srcCount → exec .pktDecode s = .next (s.failed 0x02#8 0 1))
        ∧ (s.srcAddr + s.srcCount ≤ s.lmemSize →
            (declared < 20 → exec .pktDecode s = .next (s.failed 0x11#8 declared 0))
            ∧ (s.srcCount < declared → exec .pktDecode s = .next (s.failed 0x12#8 declared 0))))

/-- The attribute walk of PKT_DECODE (41_packet_codec.md R153, R154): the first attribute in wire order that is not
whole decides the error, named by its offset `o`: a lone byte before the declared length is TRUNCATED_ATTRIBUTE with sub
1, a length below 2 is MALFORMED_ATTRIBUTE with sub 2, a value past the declared length is TRUNCATED_ATTRIBUTE with sub
3. When every attribute is whole but the table does not fit LMEM, the error is BOUNDS of the DST region. -/
def Obligations.PktDecodeWalkErrors : Prop :=
  ∀ (s : State) (code ident : Byte) (auth rest : List Byte) (attrs : List Attr) (declared o : Nat),
    auth.length = 16 → (∀ a ∈ attrs, Attr.ok a) → o = 20 + (attrsBytes attrs).length →
    s.lmem.readBytes s.srcAddr s.srcCount = packetBytes code ident declared auth (attrsBytes attrs ++ rest) →
    declared ≤ s.srcCount → s.srcCount ≤ 4096 → s.srcAddr + s.srcCount ≤ s.lmemSize →
    (o + 1 = declared → exec .pktDecode s = .next (s.failed 0x13#8 o 1))
    ∧ (o + 2 ≤ declared → (rest.getD 1 0#8).toNat < 2 → exec .pktDecode s = .next (s.failed 0x14#8 o 2))
    ∧ (o + 2 ≤ declared → 2 ≤ (rest.getD 1 0#8).toNat → declared < o + (rest.getD 1 0#8).toNat →
        exec .pktDecode s = .next (s.failed 0x13#8 o 3))
    ∧ (o = declared → ¬ s.InBounds s.dstAddr (4 * attrs.length) → exec .pktDecode s = .next (s.failed 0x02#8 0 2))

/-- The length invariant, an inference the spec marks as its own (41_packet_codec.md R159 "[derived: …]"): after a
successful PKT_DECODE, PKT_HDR.LEN is 20 plus the sum of `vlen + 2` over the descriptors of the table it wrote. -/
def Obligations.DecodedLengthInvariant : Prop :=
  ∀ (s t : State), exec .pktDecode s = .next t → t.err = false →
    (t.pktHdr.extractLsb' 16 16).toNat =
      20 + ((List.range t.res0.toNat).map fun i => (t.lmem.read (s.dstAddr + 4 * i + 1)).toNat + 2).sum

/-- PKT_ENCODE (41_packet_codec.md R160): the header as PKT_HDR and PKT_AUTH0..3 hold it, then every attribute of the
descriptor table in order, stored at DST_PTR; RES0 = the bytes written; nothing else is written. The length field is
emitted as PKT_HDR.LEN holds it. -/
def Obligations.PktEncodeResult : Prop :=
  ∀ (s : State) (attrs : List Attr), attrs.length = s.auxCount → s.InBounds s.srcAddr (4 * s.auxCount) →
    TableHolds s s.srcAddr attrs → 20 + (attrsBytes attrs).length ≤ 4096 →
    s.dstAddr + (20 + (attrsBytes attrs).length) ≤ s.lmemSize →
    ∃ t, exec .pktEncode s = .next t
      ∧ t = { s.succeeded (20 + (attrsBytes attrs).length) 0 0 with lmem := t.lmem }
      ∧ Stored s.lmem t.lmem s.dstAddr
          (packetBytes (s.pktHdr.extractLsb' 0 8) (s.pktHdr.extractLsb' 8 8) (s.pktHdr.extractLsb' 16 16).toNat
            s.pktAuth.toBytes (attrsBytes attrs))

/-- WIRE_LEN (41_packet_codec.md R163): RES0 = the bytes PKT_ENCODE would write; nothing else is written. -/
def Obligations.WireLenResult : Prop :=
  ∀ (s : State) (attrs : List Attr), attrs.length = s.auxCount → s.InBounds s.srcAddr (4 * s.auxCount) →
    TableHolds s s.srcAddr attrs → 20 + (attrsBytes attrs).length ≤ 4096 →
    exec .wireLen s = .next (s.succeeded (20 + (attrsBytes attrs).length) 0 0)

/-- The errors PKT_ENCODE and WIRE_LEN share, in their order (41_packet_codec.md R160 to R163): the table region; the
first descriptor that fails, for a value length above 253 or a value region outside LMEM; the packet size. -/
def Obligations.EncodeErrors : Prop :=
  ∀ (i : Instr) (s : State) (attrs : List Attr), i = .pktEncode ∨ i = .wireLen → TableHolds s s.srcAddr attrs →
    (¬ s.InBounds s.srcAddr (4 * s.auxCount) → exec i s = .next (s.failed 0x02#8 0 1))
    ∧ (s.InBounds s.srcAddr (4 * s.auxCount) →
        (attrs.length < s.auxCount →
          (253 < (s.lmem.read (s.srcAddr + 4 * attrs.length + 1)).toNat →
            exec i s = .next (s.failed 0x15#8 attrs.length 0))
          ∧ ((s.lmem.read (s.srcAddr + 4 * attrs.length + 1)).toNat ≤ 253 →
              ¬ s.InBounds (voffAt s.lmem (s.srcAddr + 4 * attrs.length))
                  (s.lmem.read (s.srcAddr + 4 * attrs.length + 1)).toNat →
              exec i s = .next (s.failed 0x02#8 attrs.length 5)))
        ∧ (attrs.length = s.auxCount → 4096 < 20 + (attrsBytes attrs).length →
            exec i s = .next (s.failed 0x16#8 (min (20 + (attrsBytes attrs).length) 0xFFFF) 0)))

/-- What WIRE_LEN says of PKT_ENCODE, an inference the spec marks as its own (41_packet_codec.md R163, corner cases
"[derived: …]"): when it succeeds, PKT_ENCODE gives the same RES0 or fails with BOUNDS of the DST region; when it fails,
PKT_ENCODE fails with the same report. -/
def Obligations.WireLenPredictsEncode : Prop :=
  ∀ (s t u : State), exec .wireLen s = .next t → exec .pktEncode s = .next u →
    (t.err = false → (s.dstAddr + t.res0.toNat ≤ s.lmemSize → u.err = false ∧ u.res0 = t.res0)
      ∧ (s.lmemSize < s.dstAddr + t.res0.toNat → u = s.failed 0x02#8 0 2))
    ∧ (t.err = true → u = t)

/-- The packet round trip, an inference the spec marks as its own (41_packet_codec.md R164 "[derived: …]"). Run
PKT_ENCODE on a valid packet (PKT_HDR.LEN is the length it will have), then PKT_DECODE on what it stored, with a table
at `table` that is in bounds and lies apart from the encoded packet, or is empty, at any address. It succeeds, restores
PKT_HDR and PKT_AUTH0..3, counts the same attributes with none trailing, and its table holds the same attributes, type
and value, in order. -/
def Obligations.PacketRoundTrip : Prop :=
  ∀ (s t : State) (attrs : List Attr) (table : Half), attrs.length = s.auxCount → TableHolds s s.srcAddr attrs →
    exec .pktEncode s = .next t → t.err = false → (s.pktHdr.extractLsb' 16 16).toNat = t.res0.toNat →
    s.InBounds table.toNat (4 * s.auxCount) →
    (s.auxCount = 0 ∨ Apart s.dstAddr t.res0.toNat table.toNat (4 * s.auxCount)) →
    ∃ u, exec .pktDecode { t with srcPtr := s.dstPtr, srcLen := BitVec.ofNat 16 t.res0.toNat, dstPtr := table } = .next u
      ∧ u.err = false ∧ u.pktHdr = s.pktHdr ∧ u.pktAuth = s.pktAuth
      ∧ u.res0.toNat = s.auxCount ∧ u.res1 = 0#32 ∧ u.trailing = false
      ∧ TableHolds u table.toNat attrs

/-! ### MD5 -/

/-- The two known digests of 00_scope.md R20. -/
def Obligations.Md5KnownDigests : Prop :=
  md5 [] = [0xd4#8, 0x1d#8, 0x8c#8, 0xd9#8, 0x8f#8, 0x00#8, 0xb2#8, 0x04#8,
            0xe9#8, 0x80#8, 0x09#8, 0x98#8, 0xec#8, 0xf8#8, 0x42#8, 0x7e#8]
  ∧ md5 [0x61#8, 0x62#8, 0x63#8] =
      [0x90#8, 0x01#8, 0x50#8, 0x98#8, 0x3c#8, 0xd2#8, 0x4f#8, 0xb0#8,
       0xd6#8, 0x96#8, 0x3f#8, 0x7d#8, 0x28#8, 0xe1#8, 0x7f#8, 0x72#8]

/-- MD5's padding (00_scope.md R16): the message, 0x80, the least number of zeros that brings the length to 56 modulo
64, and the bit length modulo 2^64 in eight bytes, least significant first; and its digest is 16 bytes (R15, R19). -/
def Obligations.Md5PaddingAndLength : Prop :=
  ∀ msg : List Byte, ∃ (k : Nat) (lenBytes : List Byte),
    md5Pad msg = msg ++ 0x80#8 :: (List.replicate k 0#8 ++ lenBytes)
    ∧ (msg.length + 1 + k) % 64 = 56 ∧ (∀ j < k, (msg.length + 1 + j) % 64 ≠ 56)
    ∧ lenBytes.length = 8
    ∧ (∀ j < 8, lenBytes.getD j 0#8 = BitVec.ofNat 8 (8 * msg.length % 2 ^ 64 / 2 ^ (8 * j)))
    ∧ (md5Pad msg).length % 64 = 0 ∧ (md5 msg).length = 16

/-- MD5's block function (00_scope.md R18, with the constants and rotation amounts of R17): from the words of the chunk,
least significant byte first, the 64 steps on `(A, B, C, D)`, and the sums after them. -/
def Obligations.Md5BlockFunction : Prop :=
  ∀ (q : Md5Words) (chunk : List Byte), chunk.length = 64 →
    ∃ (W A B C D F : Nat → Word) (g : Nat → Nat),
      (∀ j < 16, W j = chunk.getD (4 * j + 3) 0#8 ++ chunk.getD (4 * j + 2) 0#8
        ++ chunk.getD (4 * j + 1) 0#8 ++ chunk.getD (4 * j) 0#8)
      ∧ (∀ i < 16, F i = (B i &&& C i) ||| (~~~B i &&& D i) ∧ g i = i)
      ∧ (∀ i, 16 ≤ i → i < 32 → F i = (D i &&& B i) ||| (~~~D i &&& C i) ∧ g i = (5 * i + 1) % 16)
      ∧ (∀ i, 32 ≤ i → i < 48 → F i = B i ^^^ C i ^^^ D i ∧ g i = (3 * i + 5) % 16)
      ∧ (∀ i, 48 ≤ i → i < 64 → F i = C i ^^^ (B i ||| ~~~D i) ∧ g i = (7 * i) % 16)
      ∧ A 0 = q.a ∧ B 0 = q.b ∧ C 0 = q.c ∧ D 0 = q.d
      ∧ (∀ i < 64, A (i + 1) = D i ∧ C (i + 1) = B i ∧ D (i + 1) = C i
        ∧ B (i + 1) = B i + (F i + A i + md5K i + W (g i)).rotateLeft (md5Shift i))
      ∧ md5Block q chunk = ⟨q.a + A 64, q.b + B 64, q.c + C 64, q.d + D 64⟩

/-- MD5 of a message of any number of chunks (00_scope.md R15, R17, R18, R19): from the four initial words, the block
function on every 64-byte chunk of the padded message in order; the digest is the four words that remain, each least
significant byte first. -/
def Obligations.Md5DigestsEveryChunk : Prop :=
  ∀ msg : List Byte, ∃ (chunks : List (List Byte)) (q : Nat → Md5Words),
    chunks.flatten = md5Pad msg ∧ (∀ c ∈ chunks, c.length = 64)
    ∧ q 0 = ⟨0x67452301#32, 0xefcdab89#32, 0x98badcfe#32, 0x10325476#32⟩
    ∧ (∀ k < chunks.length, q (k + 1) = md5Block (q k) (chunks.getD k []))
    ∧ (md5 msg).length = 16
    ∧ ∀ j < 4, (md5 msg).getD j 0#8 = (q chunks.length).a.extractLsb' (8 * j) 8
        ∧ (md5 msg).getD (4 + j) 0#8 = (q chunks.length).b.extractLsb' (8 * j) 8
        ∧ (md5 msg).getD (8 + j) 0#8 = (q chunks.length).c.extractLsb' (8 * j) 8
        ∧ (md5 msg).getD (12 + j) 0#8 = (q chunks.length).d.extractLsb' (8 * j) 8

/-! ### The password cipher -/

/-- PWD_HIDE (42_password_cipher.md R180, R181, R182): the ciphertext stored at DST_PTR has the length of the padded
plaintext, and its block `i` is the plaintext's block `i` xored with the MD5 of the secret and the block before it in
the CIPHERTEXT (the Request Authenticator for block 0); RES0 = its length; nothing else is written. -/
def Obligations.PwdHideResult : Prop :=
  ∀ s : State, s.srcCount ≤ 240 → s.InBounds s.srcAddr s.srcCount → s.InBounds s.keyAddr s.keyCount →
    s.raAddr + 16 ≤ s.lmemSize → s.dstAddr + cipherLength s.srcCount ≤ s.lmemSize →
    ∃ t cipher, exec .pwdHide s = .next t
      ∧ t = { s.succeeded cipher.length 0 0 with lmem := t.lmem }
      ∧ Stored s.lmem t.lmem s.dstAddr cipher
      ∧ cipher.length = (if s.srcCount = 0 then 16 else (s.srcCount + 15) / 16 * 16)
      ∧ ∀ i < cipher.length / 16,
          (cipher.drop (16 * i)).take 16 =
            List.zipWith (· ^^^ ·)
              (((s.lmem.readBytes s.srcAddr s.srcCount ++ List.replicate (cipher.length - s.srcCount) 0#8).drop
                (16 * i)).take 16)
              (md5 (s.lmem.readBytes s.keyAddr s.keyCount ++
                (if i = 0 then s.lmem.readBytes s.raAddr 16 else (cipher.drop (16 * (i - 1))).take 16)))

/-- The errors of PWD_HIDE in their order (42_password_cipher.md R182). -/
def Obligations.PwdHideErrors : Prop :=
  ∀ s : State,
    (240 < s.srcCount → exec .pwdHide s = .next (s.failed 0x20#8 s.srcCount 0))
    ∧ (s.srcCount ≤ 240 →
        (¬ s.InBounds s.srcAddr s.srcCount → exec .pwdHide s = .next (s.failed 0x02#8 0 1))
        ∧ (s.InBounds s.srcAddr s.srcCount →
            (¬ s.InBounds s.keyAddr s.keyCount → exec .pwdHide s = .next (s.failed 0x02#8 0 3))
            ∧ (s.InBounds s.keyAddr s.keyCount →
                (s.lmemSize < s.raAddr + 16 → exec .pwdHide s = .next (s.failed 0x02#8 0 4))
                ∧ (s.raAddr + 16 ≤ s.lmemSize → s.lmemSize < s.dstAddr + cipherLength s.srcCount →
                    exec .pwdHide s = .next (s.failed 0x02#8 0 2)))))

/-- PWD_UNHIDE (42_password_cipher.md R180, R184): the plaintext stored at DST_PTR is as long as the ciphertext, and its
block `i` is the ciphertext's block `i` xored with the MD5 of the secret and the INPUT ciphertext's block before it (the
Request Authenticator for block 0); RES0 = its length, RES1 = its length without its trailing zero bytes; nothing else
is written. -/
def Obligations.PwdUnhideResult : Prop :=
  ∀ s : State, s.srcCount ≠ 0 → s.srcCount % 16 = 0 → s.srcCount ≤ 240 → s.srcAddr + s.srcCount ≤ s.lmemSize →
    s.InBounds s.keyAddr s.keyCount → s.raAddr + 16 ≤ s.lmemSize → s.dstAddr + s.srcCount ≤ s.lmemSize →
    ∃ t plain stripped, exec .pwdUnhide s = .next t
      ∧ t = { s.succeeded s.srcCount stripped 0 with lmem := t.lmem }
      ∧ Stored s.lmem t.lmem s.dstAddr plain ∧ plain.length = s.srcCount
      ∧ stripped ≤ s.srcCount ∧ plain = plain.take stripped ++ List.replicate (s.srcCount - stripped) 0#8
      ∧ (stripped = 0 ∨ plain.getD (stripped - 1) 0#8 ≠ 0#8)
      ∧ ∀ i < s.srcCount / 16,
          (plain.drop (16 * i)).take 16 =
            List.zipWith (· ^^^ ·) (s.lmem.readBytes (s.srcAddr + 16 * i) 16)
              (md5 (s.lmem.readBytes s.keyAddr s.keyCount ++
                (if i = 0 then s.lmem.readBytes s.raAddr 16 else s.lmem.readBytes (s.srcAddr + 16 * (i - 1)) 16)))

/-- The errors of PWD_UNHIDE in their order (42_password_cipher.md R184). -/
def Obligations.PwdUnhideErrors : Prop :=
  ∀ s : State,
    (s.srcCount = 0 ∨ s.srcCount % 16 ≠ 0 ∨ 240 < s.srcCount →
      exec .pwdUnhide s = .next (s.failed 0x21#8 s.srcCount 0))
    ∧ (s.srcCount ≠ 0 → s.srcCount % 16 = 0 → s.srcCount ≤ 240 →
        (s.lmemSize < s.srcAddr + s.srcCount → exec .pwdUnhide s = .next (s.failed 0x02#8 0 1))
        ∧ (s.srcAddr + s.srcCount ≤ s.lmemSize →
            (¬ s.InBounds s.keyAddr s.keyCount → exec .pwdUnhide s = .next (s.failed 0x02#8 0 3))
            ∧ (s.InBounds s.keyAddr s.keyCount →
                (s.lmemSize < s.raAddr + 16 → exec .pwdUnhide s = .next (s.failed 0x02#8 0 4))
                ∧ (s.raAddr + 16 ≤ s.lmemSize → s.lmemSize < s.dstAddr + s.srcCount →
                    exec .pwdUnhide s = .next (s.failed 0x02#8 0 2)))))

/-- The involution of the cipher, an inference the spec marks as its own (42_password_cipher.md R185 "[derived: …]"):
PWD_UNHIDE of what PWD_HIDE stored, with the same secret and Request Authenticator (regions the hiding did not store to;
an empty secret may have any address), to a region `dst` in bounds, stores the padded plaintext; and RES1 is the
plaintext's length when it does not end in a zero byte. -/
def Obligations.CipherInvolution : Prop :=
  ∀ (s t : State) (dst : Half), exec .pwdHide s = .next t → t.err = false →
    (s.keyCount = 0 ∨ Apart s.dstAddr (cipherLength s.srcCount) s.keyAddr s.keyCount) →
    Apart s.dstAddr (cipherLength s.srcCount) s.raAddr 16 →
    dst.toNat + cipherLength s.srcCount ≤ s.lmemSize →
    ∃ u, exec .pwdUnhide { t with srcPtr := s.dstPtr, srcLen := BitVec.ofNat 16 (cipherLength s.srcCount), dstPtr := dst } =
          .next u
      ∧ u.err = false
      ∧ Stored t.lmem u.lmem dst.toNat
          (s.lmem.readBytes s.srcAddr s.srcCount ++ List.replicate (cipherLength s.srcCount - s.srcCount) 0#8)
      ∧ (s.srcCount = 0 ∨ s.lmem.read (s.srcAddr + s.srcCount - 1) ≠ 0#8 → u.res1.toNat = s.srcCount)

/-! ### The response authenticator -/

/-- RESP_SIGN (43_response_authenticator.md R200, R201): the MD5 of the response's first four bytes, the Request
Authenticator, the response's bytes from 20 on and the secret is stored in the response's authenticator field and in
DIGEST0..3; RES0 = 16; nothing else is written. -/
def Obligations.RespSignResult : Prop :=
  ∀ (s : State) (digest : List Byte), 20 ≤ s.srcCount → s.srcCount ≤ 4096 → s.srcAddr + s.srcCount ≤ s.lmemSize →
    s.InBounds s.keyAddr s.keyCount → s.raAddr + 16 ≤ s.lmemSize →
    digest = md5 (s.lmem.readBytes s.srcAddr 4 ++ (s.lmem.readBytes s.raAddr 16 ++
      (s.lmem.readBytes (s.srcAddr + 20) (s.srcCount - 20) ++ s.lmem.readBytes s.keyAddr s.keyCount))) →
    ∃ t, exec .respSign s = .next t
      ∧ t = { s.succeeded 16 0 0 with digest := Lanes.ofBytes digest, lmem := t.lmem }
      ∧ Stored s.lmem t.lmem (s.srcAddr + 4) digest

/-- The errors of RESP_SIGN in their order (43_response_authenticator.md R201). -/
def Obligations.RespSignErrors : Prop :=
  ∀ s : State,
    (s.srcCount < 20 ∨ 4096 < s.srcCount → exec .respSign s = .next (s.failed 0x10#8 s.srcCount 0))
    ∧ (20 ≤ s.srcCount → s.srcCount ≤ 4096 →
        (s.lmemSize < s.srcAddr + s.srcCount → exec .respSign s = .next (s.failed 0x02#8 0 1))
        ∧ (s.srcAddr + s.srcCount ≤ s.lmemSize →
            (¬ s.InBounds s.keyAddr s.keyCount → exec .respSign s = .next (s.failed 0x02#8 0 3))
            ∧ (s.InBounds s.keyAddr s.keyCount → s.lmemSize < s.raAddr + 16 →
                exec .respSign s = .next (s.failed 0x02#8 0 4))))

/-- Determinism of the signature, an inference the spec marks as its own (43_response_authenticator.md R203 "[derived:
…]"): two states of the same build and operands whose LMEM agrees outside the response's authenticator field, with the
Request Authenticator and the secret outside that field (an empty secret may have any address), get the same digest and
the same report: bytes R[4:20) never affect the output. -/
def Obligations.OldAuthenticatorNeverSigned : Prop :=
  ∀ (s s' t t' : State), s'.srcPtr = s.srcPtr → s'.srcLen = s.srcLen → s'.keyPtr = s.keyPtr → s'.keyLen = s.keyLen →
    s'.raPtr = s.raPtr → s'.params = s.params →
    (∀ x, ¬ (s.srcAddr + 4 ≤ x ∧ x < s.srcAddr + 20) → s'.lmem.read x = s.lmem.read x) →
    Apart (s.srcAddr + 4) 16 s.raAddr 16 →
    (s.keyCount = 0 ∨ Apart (s.srcAddr + 4) 16 s.keyAddr s.keyCount) →
    exec .respSign s = .next t → exec .respSign s' = .next t' →
    t'.err = t.err ∧ t'.errcode = t.errcode ∧ t'.errPos = t.errPos ∧ t'.errSub = t.errSub
      ∧ (t.err = false → t'.digest = t.digest)

/-! ### The invariant -/

/-- The invariant holds at reset. -/
def Obligations.ResetMeetsInvariant : Prop := State.reset.Inv

/-- Every step keeps the invariant, from every state that meets it: LMEM stays in canonical form inside LMEM; while BUSY
no report of an earlier command stands; the error report is none, or a code of 60_exceptions.md R221 with the SUB and
POS values that R222 and R221's causes give that code; the result registers stay in the ranges of 10_state.md R47, RES2
inside this build's LMEM. -/
def Obligations.StepKeepsInvariant : Prop :=
  ∀ (s t : State), s.Inv → step s = .next t → t.Inv
end

