-- ==== Sys2Proof/Laws/Memory.lean ====
section
/-! SUPPORT. LMEM: what a read gives after a write, what a byte string read gives, and that every write keeps the canonical
form. Later proofs cite these and never unfold the list. -/

namespace Sys2Proof.Machine

/-! ### Cells -/

theorem cellsFrom_append (a : Nat) (xs ys : List Byte) :
    cellsFrom a (xs ++ ys) = cellsFrom a xs ++ cellsFrom (a + xs.length) ys := by
  induction xs generalizing a with
  | nil => simp [cellsFrom]
  | cons x xs ih => simp [cellsFrom, ih, Nat.add_assoc, Nat.add_comm 1]

theorem mem_cellsFrom {a : Nat} {bs : List Byte} {c : Host.Cell} (h : c ∈ cellsFrom a bs) :
    a ≤ c.1 ∧ c.1 < a + bs.length := by
  induction bs generalizing a with
  | nil => simp [cellsFrom] at h
  | cons b bs ih =>
    simp only [cellsFrom, List.mem_cons] at h
    rcases h with rfl | h
    · simp
    · have := ih h
      simp only [List.length_cons]
      omega

theorem cellsFrom_pairwise (a : Nat) (bs : List Byte) : (cellsFrom a bs).Pairwise (fun c d => c.1 < d.1) := by
  induction bs generalizing a with
  | nil => simp [cellsFrom]
  | cons b bs ih =>
    refine List.pairwise_cons.2 ⟨fun c hc => ?_, ih (a + 1)⟩
    have := (mem_cellsFrom hc).1
    show a < c.1
    omega

/-! ### Looking a byte up -/

theorem Memory.lookup_append (m k : Memory) (x : Nat) :
    Memory.lookup (m ++ k) x = (Memory.lookup m x).or (Memory.lookup k x) := by
  simp only [Memory.lookup, List.find?_append]
  cases List.find? (fun c => c.1 == x) m <;> simp

theorem Memory.lookup_eq_none {m : Memory} {x : Nat} (h : ∀ c ∈ m, c.1 ≠ x) : Memory.lookup m x = none := by
  have : List.find? (fun c => c.1 == x) m = none := by
    rw [List.find?_eq_none]
    intro c hc
    simpa using h c hc
  simp [Memory.lookup, this]

theorem Memory.lookup_filter (m : Memory) (p : Nat → Bool) (x : Nat) :
    Memory.lookup (m.filter fun c => p c.1) x = if p x then Memory.lookup m x else none := by
  induction m with
  | nil => simp [Memory.lookup]
  | cons c m ih =>
    by_cases hc : c.1 = x
    · subst hc
      by_cases hp : p c.1
      · simp [Memory.lookup, hp]
      · simp only [hp, List.filter_cons, Bool.false_eq_true, if_false] at ih ⊢
        exact ih
    · have skip : ∀ l : Memory, Memory.lookup (c :: l) x = Memory.lookup l x := by
        intro l
        have : (c.1 == x) = false := by simpa using hc
        simp [Memory.lookup, this]
      by_cases hp : p c.1 = true
      · rw [List.filter_cons_of_pos (by simpa using hp), skip, skip, ih]
      · rw [List.filter_cons_of_neg (by simpa using hp), skip, ih]

theorem Memory.lookup_cellsFrom (a : Nat) (bs : List Byte) (x : Nat) :
    Memory.lookup (cellsFrom a bs) x = if a ≤ x ∧ x < a + bs.length then some (bs.getD (x - a) 0#8) else none := by
  induction bs generalizing a with
  | nil => simp [cellsFrom, Memory.lookup]
  | cons b bs ih =>
    by_cases hx : a = x
    · subst hx
      simp [cellsFrom, Memory.lookup]
    · have hne : (a == x) = false := by simpa using hx
      have : Memory.lookup (cellsFrom a (b :: bs)) x = Memory.lookup (cellsFrom (a + 1) bs) x := by
        simp [cellsFrom, Memory.lookup, hne]
      rw [this, ih]
      by_cases h : a + 1 ≤ x ∧ x < a + 1 + bs.length
      · have h' : a ≤ x ∧ x < a + (b :: bs).length := by simp only [List.length_cons]; omega
        rw [if_pos h, if_pos h']
        obtain ⟨k, rfl⟩ := Nat.exists_eq_add_of_le h.1
        have e1 : a + 1 + k - (a + 1) = k := by omega
        have e2 : a + 1 + k - a = k + 1 := by omega
        simp [e1, e2]
      · have h' : ¬ (a ≤ x ∧ x < a + (b :: bs).length) := by simp only [List.length_cons]; omega
        rw [if_neg h, if_neg h']

/-! ### Reading after writing -/

/-- The one law of a write: inside the region a read gives the string's byte, outside it what it gave before. -/
theorem Memory.read_writeBytes (m : Memory) (a : Nat) (bs : List Byte) (x : Nat) :
    (m.writeBytes a bs).read x =
      if a ≤ x ∧ x < a + bs.length then bs.getD (x - a) 0#8 else m.read x := by
  have hlo := Memory.lookup_filter m (fun k => decide (k < a)) x
  have hhi := Memory.lookup_filter m (fun k => decide (a + bs.length ≤ k)) x
  simp only [Memory.read, Memory.writeBytes, Memory.lookup_append, hlo, hhi, Memory.lookup_cellsFrom]
  by_cases h1 : x < a
  · have : ¬ (a ≤ x ∧ x < a + bs.length) := by omega
    have h2 : ¬ (a + bs.length ≤ x) := by omega
    simp [h1, this, h2]
  · by_cases h2 : a + bs.length ≤ x
    · have : ¬ (a ≤ x ∧ x < a + bs.length) := by omega
      simp [h1, this, h2]
    · have : a ≤ x ∧ x < a + bs.length := by omega
      simp [h1, this]

theorem Memory.read_writeBytes_outside {m : Memory} {a : Nat} {bs : List Byte} {x : Nat}
    (h : ¬ (a ≤ x ∧ x < a + bs.length)) : (m.writeBytes a bs).read x = m.read x := by
  rw [Memory.read_writeBytes, if_neg h]

/-! ### Reading byte strings -/

@[simp] theorem Memory.readBytes_length (m : Memory) (a n : Nat) : (m.readBytes a n).length = n := by
  simp [Memory.readBytes]

@[simp] theorem Memory.readBytes_zero (m : Memory) (a : Nat) : m.readBytes a 0 = [] := rfl

theorem Memory.readBytes_succ (m : Memory) (a n : Nat) : m.readBytes a (n + 1) = m.read a :: m.readBytes (a + 1) n := by
  simp [Memory.readBytes, List.range'_succ]

theorem Memory.readBytes_getD {m : Memory} {a n i : Nat} (h : i < n) : (m.readBytes a n).getD i 0#8 = m.read (a + i) := by
  simp [Memory.readBytes, List.getD, h]

theorem Memory.readBytes_append (m : Memory) (a n k : Nat) :
    m.readBytes a (n + k) = m.readBytes a n ++ m.readBytes (a + n) k := by
  induction n generalizing a with
  | zero => simp
  | succ n ih =>
    rw [Nat.add_right_comm, Memory.readBytes_succ, ih, Memory.readBytes_succ, List.cons_append, Nat.add_right_comm a 1 n]
    rfl

theorem Memory.readBytes_take (m : Memory) (a : Nat) {n k : Nat} (h : k ≤ n) :
    (m.readBytes a n).take k = m.readBytes a k := by
  obtain ⟨j, rfl⟩ := Nat.exists_eq_add_of_le h
  rw [Memory.readBytes_append, List.take_append_of_le_length (by simp), List.take_of_length_le (by simp)]

theorem Memory.readBytes_drop (m : Memory) (a : Nat) {n k : Nat} (h : k ≤ n) :
    (m.readBytes a n).drop k = m.readBytes (a + k) (n - k) := by
  obtain ⟨j, rfl⟩ := Nat.exists_eq_add_of_le h
  rw [Memory.readBytes_append, List.drop_append_of_le_length (by simp), List.drop_of_length_le (by simp)]
  simp

/-- Two memories that read alike on a region give the same byte string of it. -/
theorem Memory.readBytes_congr {m k : Memory} {a n : Nat} (h : ∀ x, a ≤ x → x < a + n → m.read x = k.read x) :
    m.readBytes a n = k.readBytes a n := by
  induction n generalizing a with
  | zero => rfl
  | succ n ih =>
    rw [Memory.readBytes_succ, Memory.readBytes_succ, h a (Nat.le_refl a) (by omega),
      ih (fun x h1 h2 => h x (by omega) (by omega))]

/-- A memory that reads as the string on its region gives the string. -/
theorem Memory.readBytes_eq_of_read {m : Memory} {a : Nat} {bs : List Byte}
    (h : ∀ x, a ≤ x → x < a + bs.length → m.read x = bs.getD (x - a) 0#8) : m.readBytes a bs.length = bs := by
  induction bs generalizing a with
  | nil => rfl
  | cons b bs ih =>
    rw [List.length_cons, Memory.readBytes_succ, h a (Nat.le_refl a) (by simp), ih]
    · simp
    · intro x h1 h2
      rw [h x (by omega) (by simp only [List.length_cons]; omega)]
      obtain ⟨k, rfl⟩ := Nat.exists_eq_add_of_le h1
      have e1 : a + 1 + k - a = k + 1 := by omega
      have e2 : a + 1 + k - (a + 1) = k := by omega
      rw [e1, e2]
      rfl

theorem Memory.readBytes_writeBytes_same (m : Memory) (a : Nat) (bs : List Byte) :
    (m.writeBytes a bs).readBytes a bs.length = bs :=
  Memory.readBytes_eq_of_read fun x h1 h2 => by rw [Memory.read_writeBytes, if_pos ⟨h1, h2⟩]

theorem Memory.readBytes_writeBytes_apart {m : Memory} {a b n : Nat} {bs : List Byte}
    (h : a + bs.length ≤ b ∨ b + n ≤ a) : (m.writeBytes a bs).readBytes b n = m.readBytes b n :=
  Memory.readBytes_congr fun x h1 h2 => Memory.read_writeBytes_outside (by omega)

/-! ### The canonical form -/

theorem Memory.wf_nil (size : Nat) : Memory.wf [] size := ⟨List.Pairwise.nil, fun _ h => nomatch h⟩

/-- A write inside LMEM keeps the canonical form; so does a write of no bytes. -/
theorem Memory.wf_writeBytes {m : Memory} {size a : Nat} {bs : List Byte} (hm : m.wf size)
    (hb : bs = [] ∨ a + bs.length ≤ size) : (m.writeBytes a bs).wf size := by
  obtain ⟨hp, hs⟩ := hm
  refine ⟨?_, ?_⟩
  · refine List.pairwise_append.2 ⟨hp.filter _, List.pairwise_append.2 ⟨cellsFrom_pairwise a bs, hp.filter _, ?_⟩, ?_⟩
    · intro c hc d hd
      have h1 := mem_cellsFrom hc
      have h2 : a + bs.length ≤ d.1 := by simpa using (List.mem_filter.1 hd).2
      omega
    · intro c hc d hd
      have h1 : c.1 < a := by simpa using (List.mem_filter.1 hc).2
      rcases List.mem_append.1 hd with hd | hd
      · have := mem_cellsFrom hd
        omega
      · have h2 : a + bs.length ≤ d.1 := by simpa using (List.mem_filter.1 hd).2
        omega
  · intro c hc
    rcases List.mem_append.1 hc with hc | hc
    · exact hs c (List.mem_filter.1 hc).1
    rcases List.mem_append.1 hc with hc | hc
    · have := mem_cellsFrom hc
      rcases hb with rfl | hb
      · simp [cellsFrom] at hc
      · omega
    · exact hs c (List.mem_filter.1 hc).1

/-- Applying a command's write keeps the canonical form when the write is inside LMEM. -/
theorem Memory.wf_apply {m : Memory} {size : Nat} {w : Option (Nat × List Byte)} (hm : m.wf size)
    (hw : ∀ a bs, w = some (a, bs) → bs = [] ∨ a + bs.length ≤ size) : (m.apply w).wf size := by
  cases w with
  | none => exact hm
  | some p => exact Memory.wf_writeBytes hm (hw p.1 p.2 rfl)

end Sys2Proof.Machine
end

