-- ==== Sys2Proof/Laws/Attribute.lean ====
section
/-! SUPPORT. The attribute codec: everything `decodeAttr`, ATTR_DECODE and ATTR_ENCODE can answer. -/

namespace Sys2Proof.Machine

/-- When decoding one attribute succeeds, and with what (40_attribute_codec.md R130). -/
theorem decodeAttr_eq_attr {bs : List Byte} {o len : Nat} {type : Byte} {value : List Byte} :
    decodeAttr bs o = .attr type len value ↔
      o + 2 ≤ bs.length ∧ len = (bs.getD (o + 1) 0#8).toNat ∧ 2 ≤ len ∧ o + len ≤ bs.length
        ∧ type = bs.getD o 0#8 ∧ value = (bs.drop (o + 2)).take (len - 2) := by
  unfold decodeAttr
  dsimp only
  constructor
  · intro h
    split at h
    · cases h
    split at h
    · cases h
    split at h
    · cases h
    cases h
    exact ⟨by omega, rfl, by omega, by omega, rfl, rfl⟩
  · rintro ⟨h1, rfl, h2, h3, rfl, rfl⟩
    rw [if_neg (by omega), if_neg (by omega), if_neg (by omega)]

/-- When decoding one attribute fails, and for which sub-reason (40_attribute_codec.md R130). -/
theorem decodeAttr_eq_malformed {bs : List Byte} {o sub : Nat} :
    decodeAttr bs o = .malformed sub ↔
      (bs.length < o + 2 ∧ sub = 1)
        ∨ (o + 2 ≤ bs.length ∧ (bs.getD (o + 1) 0#8).toNat < 2 ∧ sub = 2)
        ∨ (o + 2 ≤ bs.length ∧ 2 ≤ (bs.getD (o + 1) 0#8).toNat ∧ bs.length < o + (bs.getD (o + 1) 0#8).toNat
            ∧ sub = 3) := by
  unfold decodeAttr
  dsimp only
  constructor
  · intro h
    split at h
    · cases h
      omega
    split at h
    · cases h
      omega
    split at h
    · cases h
      omega
    cases h
  · rintro (⟨h1, rfl⟩ | ⟨h1, h2, rfl⟩ | ⟨h1, h2, h3, rfl⟩)
    · rw [if_pos (by omega)]
    · rw [if_neg (by omega), if_pos (by omega)]
    · rw [if_neg (by omega), if_neg (by omega), if_pos (by omega)]

/-- The wire form of an attribute decodes to it, wherever it stands and whatever follows (30_encoding.md R105). -/
theorem decodeAttr_encodeAttr (pre rest value : List Byte) (type : Byte) (h : value.length ≤ 253) :
    decodeAttr (pre ++ (encodeAttr type value ++ rest)) pre.length = .attr type (2 + value.length) value := by
  rw [decodeAttr_eq_attr]
  have hlen : (BitVec.ofNat 8 (2 + value.length)).toNat = 2 + value.length := by
    simp only [BitVec.toNat_ofNat]
    omega
  refine ⟨?_, ?_, by omega, ?_, ?_, ?_⟩
  · simp [encodeAttr]
  · simp [encodeAttr, List.getD, hlen]
  · simp [encodeAttr]
    omega
  · simp [encodeAttr, List.getD]
  · rw [List.drop_append]
    have h1 : pre.length + 2 - pre.length = 2 := by omega
    have h2 : List.drop (pre.length + 2) pre = [] := List.drop_of_length_le (by omega)
    simp [encodeAttr, h1, h2]

/-- Everything a successful ATTR_DECODE answers (40_attribute_codec.md R131). -/
theorem attrDecodeCmd_ok {s : State} {o : Outputs} (h : attrDecodeCmd s = .ok o) :
    ∃ len, s.srcAddr + s.srcCount ≤ s.lmemSize ∧ s.auxCount + 2 ≤ s.srcCount
      ∧ len = (s.lmem.read (s.srcAddr + s.auxCount + 1)).toNat ∧ 2 ≤ len ∧ s.auxCount + len ≤ s.srcCount
      ∧ o = { res0 := len
              res1 := (s.lmem.read (s.srcAddr + s.auxCount)).toNat + (len - 2) * 2 ^ 8
              res2 := s.srcAddr + s.auxCount + 2 } := by
  unfold attrDecodeCmd at h
  split at h
  · cases h
  rename_i hb
  split at h
  · cases h
  rename_i type len value hd
  cases h
  obtain ⟨h1, h2, h3, h4, rfl, -⟩ := decodeAttr_eq_attr.1 hd
  rw [Memory.readBytes_length] at h1 h4
  rw [Memory.readBytes_getD (by omega)] at h2
  refine ⟨len, ?_, h1, ?_, h3, h4, ?_⟩
  · rcases Decidable.not_not.1 hb with hb | hb
    · omega
    · exact hb
  · rw [h2, Nat.add_assoc]
  · rw [Memory.readBytes_getD (by omega)]

/-- Everything a failed ATTR_DECODE answers (40_attribute_codec.md R131). -/
theorem attrDecodeCmd_error {s : State} {e : CmdError} (h : attrDecodeCmd s = .error e) :
    e = boundsError 0 regionSrc
      ∨ ∃ sub, (sub = 1 ∨ sub = 2 ∨ sub = 3) ∧ e = { code := .malformedAttribute, pos := s.auxCount, sub := sub } := by
  unfold attrDecodeCmd at h
  split at h
  · cases h
    exact .inl rfl
  split at h
  · rename_i sub hd
    cases h
    refine .inr ⟨sub, ?_, rfl⟩
    rcases decodeAttr_eq_malformed.1 hd with ⟨-, rfl⟩ | ⟨-, -, rfl⟩ | ⟨-, -, -, rfl⟩ <;> simp
  · cases h

/-- Everything a successful ATTR_ENCODE answers (40_attribute_codec.md R133). -/
theorem attrEncodeCmd_ok {s : State} {o : Outputs} (h : attrEncodeCmd s = .ok o) :
    s.srcCount ≤ 253 ∧ s.InBounds s.srcAddr s.srcCount ∧ s.dstAddr + (2 + s.srcCount) ≤ s.lmemSize
      ∧ o = { write := some (s.dstAddr, encodeAttr s.auxType (s.lmem.readBytes s.srcAddr s.srcCount))
              res0 := 2 + s.srcCount } := by
  unfold attrEncodeCmd at h
  split at h
  · cases h
  rename_i h1
  split at h
  · cases h
  rename_i h2
  split at h
  · cases h
  rename_i h3
  cases h
  refine ⟨by simpa [valueMax] using h1, Decidable.not_not.1 h2, ?_, rfl⟩
  rcases Decidable.not_not.1 h3 with h | h
  · omega
  · exact h

/-- Everything a failed ATTR_ENCODE answers (40_attribute_codec.md R133). -/
theorem attrEncodeCmd_error {s : State} {e : CmdError} (h : attrEncodeCmd s = .error e) :
    e = { code := .attributeTooLarge, pos := s.srcCount, sub := 0 } ∨ e = boundsError 0 regionSrc
      ∨ e = boundsError 0 regionDst := by
  unfold attrEncodeCmd at h
  split at h
  · cases h
    exact .inl rfl
  split at h
  · cases h
    exact .inr (.inl rfl)
  split at h
  · cases h
    exact .inr (.inr rfl)
  · cases h

@[simp] theorem encodeAttr_length (type : Byte) (value : List Byte) :
    (encodeAttr type value).length = 2 + value.length := by
  simp [encodeAttr]
  omega

end Sys2Proof.Machine
end

