-- ==== Sys2Proof/Laws/Bytes.lean ====
section
/-! SUPPORT. Byte order: the byte-level reading of words, half words and register lanes, and back. -/

namespace Sys2Proof.Machine

@[simp] theorem bytesOfWord_length (v : Word) : (bytesOfWord v).length = 4 := rfl

@[simp] theorem be16_length (v : Half) : (be16 v).length = 2 := rfl

@[simp] theorem toBytes_length (l : Lanes) : l.toBytes.length = 16 := rfl

/-- A word's bytes give the word back. -/
theorem wordOfBytes_bytesOfWord (v : Word) :
    wordOfBytes (v.extractLsb' 0 8) (v.extractLsb' 8 8) (v.extractLsb' 16 8) (v.extractLsb' 24 8) = v := by
  apply BitVec.eq_of_getLsbD_eq
  intro i hi
  simp only [wordOfBytes, BitVec.getLsbD_append, BitVec.getLsbD_extractLsb']
  by_cases h1 : i < 8
  · simp [h1]
  by_cases h2 : i < 16
  · simp [h1, show i - 8 < 8 by omega, show 8 + (i - 8) = i by omega]
  by_cases h3 : i < 24
  · simp [h1, show ¬ (i - 8 < 8) by omega, show i - 8 - 8 < 8 by omega, show 16 + (i - 8 - 8) = i by omega]
  · simp [h1, show ¬ (i - 8 < 8) by omega, show ¬ (i - 8 - 8 < 8) by omega, show i - 8 - 8 - 8 < 8 by omega,
      show 24 + (i - 8 - 8 - 8) = i by omega]

/-- Byte `j` of a word put together from four bytes. -/
theorem extract_wordOfBytes (b0 b1 b2 b3 : Byte) :
    (wordOfBytes b0 b1 b2 b3).extractLsb' 0 8 = b0 ∧ (wordOfBytes b0 b1 b2 b3).extractLsb' 8 8 = b1
      ∧ (wordOfBytes b0 b1 b2 b3).extractLsb' 16 8 = b2 ∧ (wordOfBytes b0 b1 b2 b3).extractLsb' 24 8 = b3 := by
  refine ⟨?_, ?_, ?_, ?_⟩ <;> apply BitVec.eq_of_getLsbD_eq <;> intro i hi <;>
    simp only [wordOfBytes, BitVec.getLsbD_append, BitVec.getLsbD_extractLsb']
  · simp [hi]
  · simp [hi, show ¬ (8 + i < 8) by omega, show 8 + i - 8 = i by omega]
  · simp [hi, show ¬ (16 + i < 8) by omega, show ¬ (16 + i - 8 < 8) by omega, show 16 + i - 8 - 8 = i by omega]
  · simp [hi, show ¬ (24 + i < 8) by omega, show ¬ (24 + i - 8 < 8) by omega, show ¬ (24 + i - 8 - 8 < 8) by omega,
      show 24 + i - 8 - 8 - 8 = i by omega]

theorem bytesOfWord_wordOfBytes (b0 b1 b2 b3 : Byte) : bytesOfWord (wordOfBytes b0 b1 b2 b3) = [b0, b1, b2, b3] := by
  obtain ⟨h0, h1, h2, h3⟩ := extract_wordOfBytes b0 b1 b2 b3
  simp [bytesOfWord, h0, h1, h2, h3]

/-- The registers give the sixteen bytes back (10_state.md R46). -/
theorem toBytes_ofBytes {bs : List Byte} (h : bs.length = 16) : (Lanes.ofBytes bs).toBytes = bs := by
  match bs, h with
  | [b0, b1, b2, b3, b4, b5, b6, b7, b8, b9, b10, b11, b12, b13, b14, b15], _ =>
    simp [Lanes.ofBytes, Lanes.toBytes, bytesOfWord_wordOfBytes]

/-- Sixteen bytes read from the registers put the registers back (10_state.md R46). -/
theorem ofBytes_toBytes (l : Lanes) : Lanes.ofBytes l.toBytes = l := by
  obtain ⟨w0, w1, w2, w3⟩ := l
  simp [Lanes.ofBytes, Lanes.toBytes, bytesOfWord, wordOfBytes_bytesOfWord]

/-! ### Half words -/

/-- A half word's number from its two bytes, high first (00_scope.md R9). -/
theorem fromBe16_toNat (b0 b1 : Byte) : (fromBe16 b0 b1).toNat = b0.toNat * 256 + b1.toNat := by
  simp only [fromBe16, BitVec.toNat_append]
  rw [← Nat.shiftLeft_add_eq_or_of_lt b1.isLt, Nat.shiftLeft_eq]

/-- The two bytes of a number taken as a half word, high first. -/
theorem be16_ofNat (n : Nat) : be16 (BitVec.ofNat 16 n) = [BitVec.ofNat 8 (n / 256), BitVec.ofNat 8 n] := by
  have h1 : (BitVec.ofNat 16 n).extractLsb' 8 8 = BitVec.ofNat 8 (n / 256) := by
    apply BitVec.eq_of_toNat_eq
    simp only [BitVec.extractLsb'_toNat, BitVec.toNat_ofNat, Nat.shiftRight_eq_div_pow]
    omega
  have h2 : (BitVec.ofNat 16 n).extractLsb' 0 8 = BitVec.ofNat 8 n := by
    apply BitVec.eq_of_toNat_eq
    simp only [BitVec.extractLsb'_toNat, BitVec.toNat_ofNat, Nat.shiftRight_eq_div_pow]
    omega
  simp [be16, h1, h2]

theorem be16_eq (v : Half) : be16 v = [BitVec.ofNat 8 (v.toNat / 256), BitVec.ofNat 8 v.toNat] := by
  rw [← be16_ofNat, BitVec.ofNat_toNat]
  rfl

theorem fromBe16_be16 (n : Nat) : fromBe16 (BitVec.ofNat 8 (n / 256)) (BitVec.ofNat 8 n) = BitVec.ofNat 16 n := by
  apply BitVec.eq_of_toNat_eq
  rw [fromBe16_toNat]
  simp only [BitVec.toNat_ofNat]
  omega

/-! ### The header word -/

theorem hdrWord_code (c i : Byte) (l : Half) : (hdrWord c i l).extractLsb' 0 8 = c := by
  apply BitVec.eq_of_getLsbD_eq
  intro k hk
  simp only [hdrWord, BitVec.getLsbD_append, BitVec.getLsbD_extractLsb']
  simp [hk]

theorem hdrWord_ident (c i : Byte) (l : Half) : (hdrWord c i l).extractLsb' 8 8 = i := by
  apply BitVec.eq_of_getLsbD_eq
  intro k hk
  simp only [hdrWord, BitVec.getLsbD_append, BitVec.getLsbD_extractLsb']
  simp [hk, show ¬ (8 + k < 8) by omega, show 8 + k - 8 = k by omega]

theorem hdrWord_length (c i : Byte) (l : Half) : (hdrWord c i l).extractLsb' 16 16 = l := by
  apply BitVec.eq_of_getLsbD_eq
  intro k hk
  simp only [hdrWord, BitVec.getLsbD_append, BitVec.getLsbD_extractLsb']
  simp [hk, show ¬ (16 + k < 8) by omega, show ¬ (16 + k - 8 < 8) by omega, show 16 + k - 8 - 8 = k by omega]

/-- A header word is put together from its three fields (10_state.md R45). -/
theorem hdrWord_eta (w : Word) : hdrWord (w.extractLsb' 0 8) (w.extractLsb' 8 8) (w.extractLsb' 16 16) = w := by
  apply BitVec.eq_of_getLsbD_eq
  intro k hk
  simp only [hdrWord, BitVec.getLsbD_append, BitVec.getLsbD_extractLsb']
  by_cases h1 : k < 8
  · simp [h1]
  by_cases h2 : k < 16
  · simp [h1, show k - 8 < 8 by omega, show 8 + (k - 8) = k by omega]
  · simp [h1, show ¬ (k - 8 < 8) by omega, show k - 8 - 8 < 16 by omega, show 16 + (k - 8 - 8) = k by omega]

/-! ### Host lanes -/

theorem lanesOfWord_length {v : Word} {width : Nat} (h : width ≤ 4) : (lanesOfWord v width).length = width := by
  simp [lanesOfWord, h]

/-- Byte `k` of a host write's data (20_memory.md R72). -/
theorem lanesOfWord_getD {v : Word} {width k : Nat} (hk : k < width) (hw : width ≤ 4) :
    (lanesOfWord v width).getD k 0#8 = BitVec.ofNat 8 (v.toNat / 2 ^ (8 * k)) := by
  have key : ∀ j, v.extractLsb' (8 * j) 8 = BitVec.ofNat 8 (v.toNat / 2 ^ (8 * j)) := by
    intro j
    apply BitVec.eq_of_toNat_eq
    simp [BitVec.extractLsb'_toNat, Nat.shiftRight_eq_div_pow]
  have h0 := key 0
  have h1 := key 1
  have h2 := key 2
  have h3 := key 3
  have : (lanesOfWord v width).getD k 0#8 = (bytesOfWord v).getD k 0#8 := by
    simp [lanesOfWord, List.getD, hk]
  rw [this]
  have hk4 : k < 4 := by omega
  interval_cases k
  · simpa [bytesOfWord] using h0
  · simpa [bytesOfWord] using h1
  · simpa [bytesOfWord] using h2
  · simpa [bytesOfWord] using h3

/-- The number of a word put together from four bytes, least significant first (20_memory.md R72). -/
theorem wordOfBytes_toNat (b0 b1 b2 b3 : Byte) :
    (wordOfBytes b0 b1 b2 b3).toNat =
      b0.toNat + b1.toNat * 2 ^ 8 + b2.toNat * 2 ^ 16 + b3.toNat * 2 ^ 24 := by
  simp only [wordOfBytes, BitVec.toNat_append]
  rw [← Nat.shiftLeft_add_eq_or_of_lt b0.isLt, ← Nat.shiftLeft_add_eq_or_of_lt b1.isLt,
    ← Nat.shiftLeft_add_eq_or_of_lt b2.isLt]
  simp only [Nat.shiftLeft_eq]
  omega

end Sys2Proof.Machine
end

