-- ==== Sys2Proof/Laws/State.lean ====
section
/-! SUPPORT. One lemma per field per named update of State, true by unfolding once, so that no later proof unfolds a record
update. The name says the update and the field. -/

namespace Sys2Proof.Machine

/-! ### The reset state (10_state.md R32, 70_reset_and_hazards.md R260) -/

@[simp] theorem State.reset_phase : State.reset.phase = .idle := rfl
@[simp] theorem State.reset_op : State.reset.op = 0#8 := rfl
@[simp] theorem State.reset_done : State.reset.done = false := rfl
@[simp] theorem State.reset_err : State.reset.err = false := rfl
@[simp] theorem State.reset_trailing : State.reset.trailing = false := rfl
@[simp] theorem State.reset_accessErr : State.reset.accessErr = false := rfl
@[simp] theorem State.reset_errcode : State.reset.errcode = 0#8 := rfl
@[simp] theorem State.reset_errPos : State.reset.errPos = 0#16 := rfl
@[simp] theorem State.reset_errSub : State.reset.errSub = 0#8 := rfl
@[simp] theorem State.reset_srcPtr : State.reset.srcPtr = 0#16 := rfl
@[simp] theorem State.reset_srcLen : State.reset.srcLen = 0#16 := rfl
@[simp] theorem State.reset_dstPtr : State.reset.dstPtr = 0#16 := rfl
@[simp] theorem State.reset_keyPtr : State.reset.keyPtr = 0#16 := rfl
@[simp] theorem State.reset_keyLen : State.reset.keyLen = 0#16 := rfl
@[simp] theorem State.reset_raPtr : State.reset.raPtr = 0#16 := rfl
@[simp] theorem State.reset_aux : State.reset.aux = 0#16 := rfl
@[simp] theorem State.reset_pktHdr : State.reset.pktHdr = 0#32 := rfl
@[simp] theorem State.reset_pktAuth : State.reset.pktAuth = ⟨0#32, 0#32, 0#32, 0#32⟩ := rfl
@[simp] theorem State.reset_res0 : State.reset.res0 = 0#32 := rfl
@[simp] theorem State.reset_res1 : State.reset.res1 = 0#32 := rfl
@[simp] theorem State.reset_res2 : State.reset.res2 = 0#32 := rfl
@[simp] theorem State.reset_digest : State.reset.digest = ⟨0#32, 0#32, 0#32, 0#32⟩ := rfl
@[simp] theorem State.reset_lmem : State.reset.lmem = [] := rfl
@[simp] theorem State.reset_params : State.reset.params = Params.default := rfl
@[simp] theorem State.reset_inbox : State.reset.inbox = [] := rfl
@[simp] theorem State.reset_response : State.reset.response = none := rfl

/-! ### commitOk -/

@[simp] theorem State.commitOk_phase (s : State) (o : Outputs) : (s.commitOk o).phase = .idle := rfl
@[simp] theorem State.commitOk_op (s : State) (o : Outputs) : (s.commitOk o).op = s.op := rfl
@[simp] theorem State.commitOk_done (s : State) (o : Outputs) : (s.commitOk o).done = true := rfl
@[simp] theorem State.commitOk_err (s : State) (o : Outputs) : (s.commitOk o).err = false := rfl
@[simp] theorem State.commitOk_trailing (s : State) (o : Outputs) : (s.commitOk o).trailing = o.trailing.getD s.trailing := rfl
@[simp] theorem State.commitOk_accessErr (s : State) (o : Outputs) : (s.commitOk o).accessErr = s.accessErr := rfl
@[simp] theorem State.commitOk_errcode (s : State) (o : Outputs) : (s.commitOk o).errcode = 0#8 := rfl
@[simp] theorem State.commitOk_errPos (s : State) (o : Outputs) : (s.commitOk o).errPos = 0#16 := rfl
@[simp] theorem State.commitOk_errSub (s : State) (o : Outputs) : (s.commitOk o).errSub = 0#8 := rfl
@[simp] theorem State.commitOk_srcPtr (s : State) (o : Outputs) : (s.commitOk o).srcPtr = s.srcPtr := rfl
@[simp] theorem State.commitOk_srcLen (s : State) (o : Outputs) : (s.commitOk o).srcLen = s.srcLen := rfl
@[simp] theorem State.commitOk_dstPtr (s : State) (o : Outputs) : (s.commitOk o).dstPtr = s.dstPtr := rfl
@[simp] theorem State.commitOk_keyPtr (s : State) (o : Outputs) : (s.commitOk o).keyPtr = s.keyPtr := rfl
@[simp] theorem State.commitOk_keyLen (s : State) (o : Outputs) : (s.commitOk o).keyLen = s.keyLen := rfl
@[simp] theorem State.commitOk_raPtr (s : State) (o : Outputs) : (s.commitOk o).raPtr = s.raPtr := rfl
@[simp] theorem State.commitOk_aux (s : State) (o : Outputs) : (s.commitOk o).aux = s.aux := rfl
@[simp] theorem State.commitOk_pktHdr (s : State) (o : Outputs) : (s.commitOk o).pktHdr = (o.header.map Prod.fst).getD s.pktHdr := rfl
@[simp] theorem State.commitOk_pktAuth (s : State) (o : Outputs) : (s.commitOk o).pktAuth = (o.header.map Prod.snd).getD s.pktAuth := rfl
@[simp] theorem State.commitOk_res0 (s : State) (o : Outputs) : (s.commitOk o).res0 = BitVec.ofNat 32 o.res0 := rfl
@[simp] theorem State.commitOk_res1 (s : State) (o : Outputs) : (s.commitOk o).res1 = BitVec.ofNat 32 o.res1 := rfl
@[simp] theorem State.commitOk_res2 (s : State) (o : Outputs) : (s.commitOk o).res2 = BitVec.ofNat 32 o.res2 := rfl
@[simp] theorem State.commitOk_digest (s : State) (o : Outputs) : (s.commitOk o).digest = o.digest.getD s.digest := rfl
@[simp] theorem State.commitOk_lmem (s : State) (o : Outputs) : (s.commitOk o).lmem = s.lmem.apply o.write := rfl
@[simp] theorem State.commitOk_params (s : State) (o : Outputs) : (s.commitOk o).params = s.params := rfl
@[simp] theorem State.commitOk_inbox (s : State) (o : Outputs) : (s.commitOk o).inbox = s.inbox := rfl
@[simp] theorem State.commitOk_response (s : State) (o : Outputs) : (s.commitOk o).response = s.response := rfl

/-! ### commitErr -/

@[simp] theorem State.commitErr_phase (s : State) (e : CmdError) : (s.commitErr e).phase = .idle := rfl
@[simp] theorem State.commitErr_op (s : State) (e : CmdError) : (s.commitErr e).op = s.op := rfl
@[simp] theorem State.commitErr_done (s : State) (e : CmdError) : (s.commitErr e).done = true := rfl
@[simp] theorem State.commitErr_err (s : State) (e : CmdError) : (s.commitErr e).err = true := rfl
@[simp] theorem State.commitErr_trailing (s : State) (e : CmdError) : (s.commitErr e).trailing = s.trailing := rfl
@[simp] theorem State.commitErr_accessErr (s : State) (e : CmdError) : (s.commitErr e).accessErr = s.accessErr := rfl
@[simp] theorem State.commitErr_errcode (s : State) (e : CmdError) : (s.commitErr e).errcode = e.code.value := rfl
@[simp] theorem State.commitErr_errPos (s : State) (e : CmdError) : (s.commitErr e).errPos = BitVec.ofNat 16 e.pos := rfl
@[simp] theorem State.commitErr_errSub (s : State) (e : CmdError) : (s.commitErr e).errSub = BitVec.ofNat 8 e.sub := rfl
@[simp] theorem State.commitErr_srcPtr (s : State) (e : CmdError) : (s.commitErr e).srcPtr = s.srcPtr := rfl
@[simp] theorem State.commitErr_srcLen (s : State) (e : CmdError) : (s.commitErr e).srcLen = s.srcLen := rfl
@[simp] theorem State.commitErr_dstPtr (s : State) (e : CmdError) : (s.commitErr e).dstPtr = s.dstPtr := rfl
@[simp] theorem State.commitErr_keyPtr (s : State) (e : CmdError) : (s.commitErr e).keyPtr = s.keyPtr := rfl
@[simp] theorem State.commitErr_keyLen (s : State) (e : CmdError) : (s.commitErr e).keyLen = s.keyLen := rfl
@[simp] theorem State.commitErr_raPtr (s : State) (e : CmdError) : (s.commitErr e).raPtr = s.raPtr := rfl
@[simp] theorem State.commitErr_aux (s : State) (e : CmdError) : (s.commitErr e).aux = s.aux := rfl
@[simp] theorem State.commitErr_pktHdr (s : State) (e : CmdError) : (s.commitErr e).pktHdr = s.pktHdr := rfl
@[simp] theorem State.commitErr_pktAuth (s : State) (e : CmdError) : (s.commitErr e).pktAuth = s.pktAuth := rfl
@[simp] theorem State.commitErr_res0 (s : State) (e : CmdError) : (s.commitErr e).res0 = s.res0 := rfl
@[simp] theorem State.commitErr_res1 (s : State) (e : CmdError) : (s.commitErr e).res1 = s.res1 := rfl
@[simp] theorem State.commitErr_res2 (s : State) (e : CmdError) : (s.commitErr e).res2 = s.res2 := rfl
@[simp] theorem State.commitErr_digest (s : State) (e : CmdError) : (s.commitErr e).digest = s.digest := rfl
@[simp] theorem State.commitErr_lmem (s : State) (e : CmdError) : (s.commitErr e).lmem = s.lmem := rfl
@[simp] theorem State.commitErr_params (s : State) (e : CmdError) : (s.commitErr e).params = s.params := rfl
@[simp] theorem State.commitErr_inbox (s : State) (e : CmdError) : (s.commitErr e).inbox = s.inbox := rfl
@[simp] theorem State.commitErr_response (s : State) (e : CmdError) : (s.commitErr e).response = s.response := rfl

/-! ### startCommand -/

@[simp] theorem State.startCommand_phase (s : State) (op : Byte) : (s.startCommand op).phase = .busy := rfl
@[simp] theorem State.startCommand_op (s : State) (op : Byte) : (s.startCommand op).op = op := rfl
@[simp] theorem State.startCommand_done (s : State) (op : Byte) : (s.startCommand op).done = false := rfl
@[simp] theorem State.startCommand_err (s : State) (op : Byte) : (s.startCommand op).err = false := rfl
@[simp] theorem State.startCommand_trailing (s : State) (op : Byte) : (s.startCommand op).trailing = false := rfl
@[simp] theorem State.startCommand_accessErr (s : State) (op : Byte) : (s.startCommand op).accessErr = s.accessErr := rfl
@[simp] theorem State.startCommand_errcode (s : State) (op : Byte) : (s.startCommand op).errcode = 0#8 := rfl
@[simp] theorem State.startCommand_errPos (s : State) (op : Byte) : (s.startCommand op).errPos = 0#16 := rfl
@[simp] theorem State.startCommand_errSub (s : State) (op : Byte) : (s.startCommand op).errSub = 0#8 := rfl
@[simp] theorem State.startCommand_srcPtr (s : State) (op : Byte) : (s.startCommand op).srcPtr = s.srcPtr := rfl
@[simp] theorem State.startCommand_srcLen (s : State) (op : Byte) : (s.startCommand op).srcLen = s.srcLen := rfl
@[simp] theorem State.startCommand_dstPtr (s : State) (op : Byte) : (s.startCommand op).dstPtr = s.dstPtr := rfl
@[simp] theorem State.startCommand_keyPtr (s : State) (op : Byte) : (s.startCommand op).keyPtr = s.keyPtr := rfl
@[simp] theorem State.startCommand_keyLen (s : State) (op : Byte) : (s.startCommand op).keyLen = s.keyLen := rfl
@[simp] theorem State.startCommand_raPtr (s : State) (op : Byte) : (s.startCommand op).raPtr = s.raPtr := rfl
@[simp] theorem State.startCommand_aux (s : State) (op : Byte) : (s.startCommand op).aux = s.aux := rfl
@[simp] theorem State.startCommand_pktHdr (s : State) (op : Byte) : (s.startCommand op).pktHdr = s.pktHdr := rfl
@[simp] theorem State.startCommand_pktAuth (s : State) (op : Byte) : (s.startCommand op).pktAuth = s.pktAuth := rfl
@[simp] theorem State.startCommand_res0 (s : State) (op : Byte) : (s.startCommand op).res0 = s.res0 := rfl
@[simp] theorem State.startCommand_res1 (s : State) (op : Byte) : (s.startCommand op).res1 = s.res1 := rfl
@[simp] theorem State.startCommand_res2 (s : State) (op : Byte) : (s.startCommand op).res2 = s.res2 := rfl
@[simp] theorem State.startCommand_digest (s : State) (op : Byte) : (s.startCommand op).digest = s.digest := rfl
@[simp] theorem State.startCommand_lmem (s : State) (op : Byte) : (s.startCommand op).lmem = s.lmem := rfl
@[simp] theorem State.startCommand_params (s : State) (op : Byte) : (s.startCommand op).params = s.params := rfl
@[simp] theorem State.startCommand_inbox (s : State) (op : Byte) : (s.startCommand op).inbox = s.inbox := rfl
@[simp] theorem State.startCommand_response (s : State) (op : Byte) : (s.startCommand op).response = s.response := rfl

/-! ### softReset -/

@[simp] theorem State.softReset_phase (s : State) : s.softReset.phase = State.reset.phase := rfl
@[simp] theorem State.softReset_op (s : State) : s.softReset.op = State.reset.op := rfl
@[simp] theorem State.softReset_done (s : State) : s.softReset.done = State.reset.done := rfl
@[simp] theorem State.softReset_err (s : State) : s.softReset.err = State.reset.err := rfl
@[simp] theorem State.softReset_trailing (s : State) : s.softReset.trailing = State.reset.trailing := rfl
@[simp] theorem State.softReset_accessErr (s : State) : s.softReset.accessErr = State.reset.accessErr := rfl
@[simp] theorem State.softReset_errcode (s : State) : s.softReset.errcode = State.reset.errcode := rfl
@[simp] theorem State.softReset_errPos (s : State) : s.softReset.errPos = State.reset.errPos := rfl
@[simp] theorem State.softReset_errSub (s : State) : s.softReset.errSub = State.reset.errSub := rfl
@[simp] theorem State.softReset_srcPtr (s : State) : s.softReset.srcPtr = State.reset.srcPtr := rfl
@[simp] theorem State.softReset_srcLen (s : State) : s.softReset.srcLen = State.reset.srcLen := rfl
@[simp] theorem State.softReset_dstPtr (s : State) : s.softReset.dstPtr = State.reset.dstPtr := rfl
@[simp] theorem State.softReset_keyPtr (s : State) : s.softReset.keyPtr = State.reset.keyPtr := rfl
@[simp] theorem State.softReset_keyLen (s : State) : s.softReset.keyLen = State.reset.keyLen := rfl
@[simp] theorem State.softReset_raPtr (s : State) : s.softReset.raPtr = State.reset.raPtr := rfl
@[simp] theorem State.softReset_aux (s : State) : s.softReset.aux = State.reset.aux := rfl
@[simp] theorem State.softReset_pktHdr (s : State) : s.softReset.pktHdr = State.reset.pktHdr := rfl
@[simp] theorem State.softReset_pktAuth (s : State) : s.softReset.pktAuth = State.reset.pktAuth := rfl
@[simp] theorem State.softReset_res0 (s : State) : s.softReset.res0 = State.reset.res0 := rfl
@[simp] theorem State.softReset_res1 (s : State) : s.softReset.res1 = State.reset.res1 := rfl
@[simp] theorem State.softReset_res2 (s : State) : s.softReset.res2 = State.reset.res2 := rfl
@[simp] theorem State.softReset_digest (s : State) : s.softReset.digest = State.reset.digest := rfl
@[simp] theorem State.softReset_lmem (s : State) : s.softReset.lmem = s.lmem := rfl
@[simp] theorem State.softReset_params (s : State) : s.softReset.params = s.params := rfl
@[simp] theorem State.softReset_inbox (s : State) : s.softReset.inbox = s.inbox := rfl
@[simp] theorem State.softReset_response (s : State) : s.softReset.response = s.response := rfl

/-! ### clearStatus -/

@[simp] theorem State.clearStatus_phase (s : State) (v : Word) : (s.clearStatus v).phase = s.phase := rfl
@[simp] theorem State.clearStatus_op (s : State) (v : Word) : (s.clearStatus v).op = s.op := rfl
@[simp] theorem State.clearStatus_done (s : State) (v : Word) : (s.clearStatus v).done = (s.done && !v.getLsbD 1) := rfl
@[simp] theorem State.clearStatus_err (s : State) (v : Word) : (s.clearStatus v).err = (s.err && !v.getLsbD 2) := rfl
@[simp] theorem State.clearStatus_trailing (s : State) (v : Word) : (s.clearStatus v).trailing = (s.trailing && !v.getLsbD 3) := rfl
@[simp] theorem State.clearStatus_accessErr (s : State) (v : Word) : (s.clearStatus v).accessErr = (s.accessErr && !v.getLsbD 4) := rfl
@[simp] theorem State.clearStatus_errcode (s : State) (v : Word) : (s.clearStatus v).errcode = s.errcode := rfl
@[simp] theorem State.clearStatus_errPos (s : State) (v : Word) : (s.clearStatus v).errPos = s.errPos := rfl
@[simp] theorem State.clearStatus_errSub (s : State) (v : Word) : (s.clearStatus v).errSub = s.errSub := rfl
@[simp] theorem State.clearStatus_srcPtr (s : State) (v : Word) : (s.clearStatus v).srcPtr = s.srcPtr := rfl
@[simp] theorem State.clearStatus_srcLen (s : State) (v : Word) : (s.clearStatus v).srcLen = s.srcLen := rfl
@[simp] theorem State.clearStatus_dstPtr (s : State) (v : Word) : (s.clearStatus v).dstPtr = s.dstPtr := rfl
@[simp] theorem State.clearStatus_keyPtr (s : State) (v : Word) : (s.clearStatus v).keyPtr = s.keyPtr := rfl
@[simp] theorem State.clearStatus_keyLen (s : State) (v : Word) : (s.clearStatus v).keyLen = s.keyLen := rfl
@[simp] theorem State.clearStatus_raPtr (s : State) (v : Word) : (s.clearStatus v).raPtr = s.raPtr := rfl
@[simp] theorem State.clearStatus_aux (s : State) (v : Word) : (s.clearStatus v).aux = s.aux := rfl
@[simp] theorem State.clearStatus_pktHdr (s : State) (v : Word) : (s.clearStatus v).pktHdr = s.pktHdr := rfl
@[simp] theorem State.clearStatus_pktAuth (s : State) (v : Word) : (s.clearStatus v).pktAuth = s.pktAuth := rfl
@[simp] theorem State.clearStatus_res0 (s : State) (v : Word) : (s.clearStatus v).res0 = s.res0 := rfl
@[simp] theorem State.clearStatus_res1 (s : State) (v : Word) : (s.clearStatus v).res1 = s.res1 := rfl
@[simp] theorem State.clearStatus_res2 (s : State) (v : Word) : (s.clearStatus v).res2 = s.res2 := rfl
@[simp] theorem State.clearStatus_digest (s : State) (v : Word) : (s.clearStatus v).digest = s.digest := rfl
@[simp] theorem State.clearStatus_lmem (s : State) (v : Word) : (s.clearStatus v).lmem = s.lmem := rfl
@[simp] theorem State.clearStatus_params (s : State) (v : Word) : (s.clearStatus v).params = s.params := rfl
@[simp] theorem State.clearStatus_inbox (s : State) (v : Word) : (s.clearStatus v).inbox = s.inbox := rfl
@[simp] theorem State.clearStatus_response (s : State) (v : Word) : (s.clearStatus v).response = s.response := rfl

/-! ### flagAccessErr -/

@[simp] theorem State.flagAccessErr_phase (s : State) : s.flagAccessErr.phase = s.phase := rfl
@[simp] theorem State.flagAccessErr_op (s : State) : s.flagAccessErr.op = s.op := rfl
@[simp] theorem State.flagAccessErr_done (s : State) : s.flagAccessErr.done = s.done := rfl
@[simp] theorem State.flagAccessErr_err (s : State) : s.flagAccessErr.err = s.err := rfl
@[simp] theorem State.flagAccessErr_trailing (s : State) : s.flagAccessErr.trailing = s.trailing := rfl
@[simp] theorem State.flagAccessErr_accessErr (s : State) : s.flagAccessErr.accessErr = true := rfl
@[simp] theorem State.flagAccessErr_errcode (s : State) : s.flagAccessErr.errcode = s.errcode := rfl
@[simp] theorem State.flagAccessErr_errPos (s : State) : s.flagAccessErr.errPos = s.errPos := rfl
@[simp] theorem State.flagAccessErr_errSub (s : State) : s.flagAccessErr.errSub = s.errSub := rfl
@[simp] theorem State.flagAccessErr_srcPtr (s : State) : s.flagAccessErr.srcPtr = s.srcPtr := rfl
@[simp] theorem State.flagAccessErr_srcLen (s : State) : s.flagAccessErr.srcLen = s.srcLen := rfl
@[simp] theorem State.flagAccessErr_dstPtr (s : State) : s.flagAccessErr.dstPtr = s.dstPtr := rfl
@[simp] theorem State.flagAccessErr_keyPtr (s : State) : s.flagAccessErr.keyPtr = s.keyPtr := rfl
@[simp] theorem State.flagAccessErr_keyLen (s : State) : s.flagAccessErr.keyLen = s.keyLen := rfl
@[simp] theorem State.flagAccessErr_raPtr (s : State) : s.flagAccessErr.raPtr = s.raPtr := rfl
@[simp] theorem State.flagAccessErr_aux (s : State) : s.flagAccessErr.aux = s.aux := rfl
@[simp] theorem State.flagAccessErr_pktHdr (s : State) : s.flagAccessErr.pktHdr = s.pktHdr := rfl
@[simp] theorem State.flagAccessErr_pktAuth (s : State) : s.flagAccessErr.pktAuth = s.pktAuth := rfl
@[simp] theorem State.flagAccessErr_res0 (s : State) : s.flagAccessErr.res0 = s.res0 := rfl
@[simp] theorem State.flagAccessErr_res1 (s : State) : s.flagAccessErr.res1 = s.res1 := rfl
@[simp] theorem State.flagAccessErr_res2 (s : State) : s.flagAccessErr.res2 = s.res2 := rfl
@[simp] theorem State.flagAccessErr_digest (s : State) : s.flagAccessErr.digest = s.digest := rfl
@[simp] theorem State.flagAccessErr_lmem (s : State) : s.flagAccessErr.lmem = s.lmem := rfl
@[simp] theorem State.flagAccessErr_params (s : State) : s.flagAccessErr.params = s.params := rfl
@[simp] theorem State.flagAccessErr_inbox (s : State) : s.flagAccessErr.inbox = s.inbox := rfl
@[simp] theorem State.flagAccessErr_response (s : State) : s.flagAccessErr.response = s.response := rfl

/-! ### Derived readings of a commit -/

@[simp] theorem State.commitOk_lmemSize (s : State) (o : Outputs) : (s.commitOk o).lmemSize = s.lmemSize := rfl
@[simp] theorem State.commitErr_lmemSize (s : State) (e : CmdError) : (s.commitErr e).lmemSize = s.lmemSize := rfl
@[simp] theorem State.startCommand_lmemSize (s : State) (op : Byte) : (s.startCommand op).lmemSize = s.lmemSize := rfl
@[simp] theorem State.clearStatus_lmemSize (s : State) (v : Word) : (s.clearStatus v).lmemSize = s.lmemSize := rfl
@[simp] theorem State.flagAccessErr_lmemSize (s : State) : s.flagAccessErr.lmemSize = s.lmemSize := rfl
@[simp] theorem State.softReset_lmemSize (s : State) : s.softReset.lmemSize = s.lmemSize := rfl

end Sys2Proof.Machine
end

