-- ==== Sys2Proof/Laws/Bus.lean ====
section
/-! SUPPORT. The host's accesses: where an address lies, which register an offset names, and everything one access can do.
Later proofs cite these and never unfold `hostAccess`. -/

namespace Sys2Proof.Machine

/-! ### Windows and offsets (20_memory.md R70, R71) -/

theorem target_reg {s : State} {off : Nat} (h : off < 0x1000) : s.target (s.params.regBase + off) = .reg off := by
  unfold State.target
  rw [if_pos (by simp only [regWindowBytes]; omega), Nat.add_sub_cancel_left]

theorem target_lmem {s : State} {a : Nat} (hw : s.params.wellFormed = true) (h : a < s.lmemSize) :
    s.target (s.params.lmemBase + a) = .lmem a := by
  simp only [Params.wellFormed, Bool.or_eq_true, decide_eq_true_eq] at hw
  unfold State.target State.lmemSize at *
  rw [if_neg (by omega), if_pos (by omega), Nat.add_sub_cancel_left]

theorem target_eq_reg {s : State} {addr off : Nat} (h : s.target addr = .reg off) :
    addr = s.params.regBase + off ∧ off < 0x1000 := by
  unfold State.target at h
  split at h
  · rename_i hr
    cases h
    simp only [regWindowBytes] at hr
    omega
  · split at h <;> cases h

theorem target_eq_lmem {s : State} {addr a : Nat} (h : s.target addr = .lmem a) :
    addr = s.params.lmemBase + a ∧ a < s.lmemSize := by
  unfold State.target at h
  split at h
  · cases h
  split at h
  · rename_i hr
    cases h
    omega
  · cases h

theorem target_eq_outside {s : State} {addr : Nat} (h : s.target addr = .outside) :
    ¬ (s.params.regBase ≤ addr ∧ addr < s.params.regBase + 0x1000)
      ∧ ¬ (s.params.lmemBase ≤ addr ∧ addr < s.params.lmemBase + s.lmemSize) := by
  unfold State.target at h
  split at h
  · cases h
  rename_i h1
  split at h
  · cases h
  rename_i h2
  exact ⟨by simpa only [regWindowBytes] using h1, h2⟩

/-- The register file by offset (10_state.md R32). -/
theorem regAt_regOffset (r : RegName) : regAt (regOffset r) = some r := by
  cases r <;> rfl

theorem regAt_eq_some {off : Nat} {r : RegName} (h : regAt off = some r) : regOffset r = off := by
  have := List.find?_some h
  simpa using this

theorem regOffset_lt (r : RegName) : regOffset r < 0x060 := by
  cases r <;> decide

/-- The offsets 0x060 to 0xFFC are reserved (10_state.md R49). -/
theorem regAt_reserved {off : Nat} (h : 0x060 ≤ off) : regAt off = none := by
  cases hr : regAt off with
  | none => rfl
  | some r =>
    have := regAt_eq_some hr
    have := regOffset_lt r
    omega

theorem writeRegAt_idle {s : State} {off : Nat} {v : Word} {r : RegName} (hp : s.phase = .idle)
    (hr : regAt off = some r) : s.writeRegAt off v = s.writeRegIdle v r := by
  simp only [State.writeRegAt, hp, hr]

theorem writeRegAt_idle_reserved {s : State} {off : Nat} {v : Word} (hp : s.phase = .idle) (hr : regAt off = none) :
    s.writeRegAt off v = s := by
  simp only [State.writeRegAt, hp, hr]

theorem writeRegAt_busy {s : State} {off : Nat} {v : Word} {r : RegName} (hp : s.phase = .busy)
    (hr : regAt off = some r) : s.writeRegAt off v = s.writeRegBusy v r := by
  simp only [State.writeRegAt, hp, hr]

theorem writeRegAt_busy_reserved {s : State} {off : Nat} {v : Word} (hp : s.phase = .busy) (hr : regAt off = none) :
    s.writeRegAt off v = s.flagAccessErr := by
  simp only [State.writeRegAt, hp, hr]

/-- CTRL and STATUS take a write in either phase (10_state.md R54). -/
theorem writeRegAt_ctrl (s : State) (v : Word) : s.writeRegAt 0x004 v = s.writeCtrl v := by
  have hr : regAt 0x004 = some .ctrl := rfl
  cases hp : s.phase with
  | idle => rw [writeRegAt_idle hp hr]; rfl
  | busy => rw [writeRegAt_busy hp hr]; rfl

theorem writeRegAt_status (s : State) (v : Word) : s.writeRegAt 0x00C v = s.clearStatus v := by
  have hr : regAt 0x00C = some .status := rfl
  cases hp : s.phase with
  | idle => rw [writeRegAt_idle hp hr]; rfl
  | busy => rw [writeRegAt_busy hp hr]; rfl

/-! ### What one access does -/

theorem regAccessLegal_iff {off width : Nat} : regAccessLegal off width = true ↔ width = 4 ∧ off % 4 = 0 := by
  simp [regAccessLegal]

theorem lmemAccessLegal_iff {a width : Nat} :
    lmemAccessLegal a width = true ↔ (width = 1 ∨ width = 2 ∨ width = 4) ∧ a % width = 0 := by
  simp [lmemAccessLegal, or_assoc]

theorem hostAccess_readReg {s : State} {off : Nat} (h : off < 0x1000) (ha : off % 4 = 0) :
    hostAccess (.read (s.params.regBase + off) 4) s = .next { s with response := some (s.readRegAt off) } := by
  simp only [hostAccess, target_reg h, State.hostReadReg, regAccessLegal_iff.2 ⟨rfl, ha⟩, if_true]

theorem hostAccess_writeReg {s : State} {off : Nat} {v : Word} (h : off < 0x1000) (ha : off % 4 = 0) :
    hostAccess (.write (s.params.regBase + off) 4 v) s = .next { s.writeRegAt off v with response := none } := by
  simp only [hostAccess, target_reg h, State.hostWriteReg, regAccessLegal_iff.2 ⟨rfl, ha⟩, if_true]

theorem hostAccess_readLmem {s : State} {a width : Nat} (hw : s.params.wellFormed = true) (h : a < s.lmemSize) :
    hostAccess (.read (s.params.lmemBase + a) width) s = .next (s.hostReadLmem a width) := by
  simp only [hostAccess, target_lmem hw h]

theorem hostAccess_writeLmem {s : State} {a width : Nat} {v : Word} (hw : s.params.wellFormed = true)
    (h : a < s.lmemSize) :
    hostAccess (.write (s.params.lmemBase + a) width v) s = .next (s.hostWriteLmem a width v) := by
  simp only [hostAccess, target_lmem hw h]

/-- Everything one host access can do: answer a read; be ignored and flagged; write a register; write LMEM. -/
theorem hostAccess_cases {a : HostAccess} {s t : State} (h : hostAccess a s = .next t) :
    ∃ resp : Option Word,
      t = { s with response := resp }
      ∨ t = { s.flagAccessErr with response := resp }
      ∨ (∃ r v, a = .write (s.params.regBase + regOffset r) 4 v ∧ s.phase = .idle
          ∧ t = { s.writeRegIdle v r with response := resp })
      ∨ (∃ r v, a = .write (s.params.regBase + regOffset r) 4 v ∧ s.phase = .busy
          ∧ t = { s.writeRegBusy v r with response := resp })
      ∨ (∃ x width v, a = .write (s.params.lmemBase + x) width v ∧ s.phase = .idle ∧ x < s.lmemSize
          ∧ (width = 1 ∨ width = 2 ∨ width = 4) ∧ x % width = 0
          ∧ t = { s with lmem := s.lmem.writeBytes x (lanesOfWord v width), response := resp }) := by
  cases a with
  | read addr width =>
    simp only [hostAccess] at h
    split at h
    · cases h
      unfold State.hostReadReg
      split
      · exact ⟨_, .inl rfl⟩
      · exact ⟨_, .inr (.inl rfl)⟩
    · cases h
      unfold State.hostReadLmem
      split
      · exact ⟨_, .inl rfl⟩
      · exact ⟨_, .inr (.inl rfl)⟩
    · cases h
  | write addr width v =>
    simp only [hostAccess] at h
    split at h
    · rename_i off ht
      cases h
      obtain ⟨rfl, -⟩ := target_eq_reg ht
      unfold State.hostWriteReg
      split
      · rename_i hl
        obtain ⟨rfl, -⟩ := regAccessLegal_iff.1 hl
        refine ⟨none, ?_⟩
        unfold State.writeRegAt
        split
        · rename_i r hp hr
          cases regAt_eq_some hr
          exact .inr (.inr (.inl ⟨r, v, rfl, hp, rfl⟩))
        · exact .inl rfl
        · rename_i r hp hr
          cases regAt_eq_some hr
          exact .inr (.inr (.inr (.inl ⟨r, v, rfl, hp, rfl⟩)))
        · exact .inr (.inl rfl)
      · exact ⟨none, .inr (.inl rfl)⟩
    · rename_i x ht
      cases h
      obtain ⟨rfl, hx⟩ := target_eq_lmem ht
      unfold State.hostWriteLmem
      split
      · rename_i hl
        obtain ⟨h1, h2⟩ := lmemAccessLegal_iff.1 hl.1
        exact ⟨none, .inr (.inr (.inr (.inr ⟨x, width, v, rfl, hl.2, hx, h1, h2, rfl⟩)))⟩
      · exact ⟨none, .inr (.inl rfl)⟩
    · cases h

/-- An access inside the windows gives a next state. -/
theorem hostAccess_next {a : HostAccess} {s : State} (h : s.target (accessAddr a) ≠ .outside) :
    ∃ t, hostAccess a s = .next t := by
  cases a <;> simp only [accessAddr] at h <;> simp only [hostAccess] <;> split <;>
    first | exact ⟨_, rfl⟩ | (rename_i ht; exact absurd ht h)

/-- A register write while BUSY: the soft reset, the write-one-to-clear of STATUS, a CTRL write with bit 0 clear, or the
flag (10_state.md R54). -/
theorem writeRegBusy_cases (s : State) (v : Word) (r : RegName) :
    (r = .ctrl ∧ v.getLsbD 0 = true ∧ s.writeRegBusy v r = s.softReset)
      ∨ (r = .ctrl ∧ v.getLsbD 0 = false ∧ s.writeRegBusy v r = s)
      ∨ (r = .status ∧ s.writeRegBusy v r = s.clearStatus v)
      ∨ (r ≠ .ctrl ∧ r ≠ .status ∧ s.writeRegBusy v r = s.flagAccessErr) := by
  cases r with
  | ctrl =>
    simp only [State.writeRegBusy, State.writeCtrl]
    cases v.getLsbD 0 <;> simp
  | _ => simp [State.writeRegBusy]

/-- An LMEM write of an aligned access ends within LMEM (20_memory.md R72): LMEM_SIZE is a multiple of 4. -/
theorem aligned_le_lmemSize {s : State} {x width : Nat} (hx : x < s.lmemSize) (hw : width = 1 ∨ width = 2 ∨ width = 4)
    (ha : x % width = 0) : x + width ≤ s.lmemSize := by
  have : s.lmemSize % 4 = 0 := by
    unfold State.lmemSize LmemSize.bytes
    cases s.params.lmemSize <;> rfl
  rcases hw with rfl | rfl | rfl <;> omega

theorem lmemSize_le (s : State) : s.lmemSize ≤ 0x8000 := by
  unfold State.lmemSize LmemSize.bytes
  cases s.params.lmemSize <;> decide

end Sys2Proof.Machine
end

