-- ==== Sys2Proof/Laws/Md5.lean ====
section
/-! SUPPORT. MD5: what later proofs need of it, and nothing of what it computes. -/

namespace Sys2Proof.Machine

/-- A digest is 16 bytes (00_scope.md R15). -/
@[simp] theorem md5_length (msg : List Byte) : (md5 msg).length = 16 := by simp [md5]

@[simp] theorem le64_length (v : Nat) : (le64 v).length = 8 := by simp [le64]

/-- A padded message is whole chunks (00_scope.md R16). -/
theorem md5Pad_chunks (msg : List Byte) : (md5Pad msg).length % 64 = 0 := by
  simp only [md5Pad, List.length_append, List.length_cons, List.length_replicate, le64_length]
  omega

/-- Word `j` of a chunk is its bytes `4 * j` to `4 * j + 3`, least significant first (00_scope.md R18). -/
theorem wordsOfBytes_getD {n : Nat} {bs : List Byte} (h : bs.length = 4 * n) {j : Nat} (hj : j < n) :
    (wordsOfBytes bs).getD j 0#32 =
      bs.getD (4 * j + 3) 0#8 ++ bs.getD (4 * j + 2) 0#8 ++ bs.getD (4 * j + 1) 0#8 ++ bs.getD (4 * j) 0#8 := by
  induction n generalizing bs j with
  | zero => omega
  | succ n ih =>
    match bs, h with
    | b0 :: b1 :: b2 :: b3 :: rest, h =>
      cases j with
      | zero => rfl
      | succ j =>
        have hr : rest.length = 4 * n := by
          simp only [List.length_cons] at h
          omega
        simp only [wordsOfBytes, List.getD_cons_succ, ih hr (Nat.lt_of_succ_lt_succ hj),
          show 4 * (j + 1) = 4 * j + 1 + 1 + 1 + 1 by omega]

end Sys2Proof.Machine
end

