-- ==== Sys2Proof/Laws/Cipher.lean ====
section
/-! SUPPORT. The password cipher block by block, its involution on byte strings, and everything PWD_HIDE, PWD_UNHIDE and
RESP_SIGN can answer. -/

namespace Sys2Proof.Machine

/-! ### Exclusive or -/

@[simp] theorem xorBytes_length (xs ys : List Byte) : (xorBytes xs ys).length = min xs.length ys.length := by
  simp [xorBytes]

/-- Exclusive or with the same bytes twice gives the string back. -/
theorem xorBytes_xorBytes {xs ys : List Byte} (h : xs.length ≤ ys.length) : xorBytes (xorBytes xs ys) ys = xs := by
  induction xs generalizing ys with
  | nil => simp [xorBytes]
  | cons x xs ih =>
    cases ys with
    | nil => simp at h
    | cons y ys =>
      have := ih (ys := ys) (by simpa using h)
      simp only [xorBytes] at this
      simp only [xorBytes, List.zipWith_cons_cons, this, BitVec.xor_assoc, BitVec.xor_self, BitVec.xor_zero]

/-! ### The two block loops (42_password_cipher.md R180) -/

theorem hideBlocks_length (key : List Byte) : ∀ (q : Nat) (prev pp : List Byte), pp.length = 16 * q →
    (hideBlocks key q prev pp).length = 16 * q
  | 0, _, _, _ => rfl
  | q + 1, prev, pp, h => by
    have ih := hideBlocks_length key q (xorBytes (pp.take 16) (md5 (key ++ prev))) (pp.drop 16) (by simp; omega)
    simp only [hideBlocks, blk, List.length_append, ih, xorBytes_length, md5_length, List.length_take]
    omega

theorem unhideBlocks_length (key : List Byte) : ∀ (q : Nat) (prev cs : List Byte), cs.length = 16 * q →
    (unhideBlocks key q prev cs).length = 16 * q
  | 0, _, _, _ => rfl
  | q + 1, prev, cs, h => by
    have ih := unhideBlocks_length key q (cs.take 16) (cs.drop 16) (by simp; omega)
    simp only [unhideBlocks, blk, List.length_append, ih, xorBytes_length, md5_length, List.length_take]
    omega

/-- Unhiding what was hidden with the same secret and first chaining block gives the padded plaintext (42_password_cipher.md
R185). -/
theorem unhideBlocks_hideBlocks (key : List Byte) : ∀ (q : Nat) (prev pp : List Byte), pp.length = 16 * q →
    unhideBlocks key q prev (hideBlocks key q prev pp) = pp
  | 0, _, pp, h => by
    have : pp = [] := List.length_eq_zero_iff.1 (by simpa using h)
    simp [this, unhideBlocks]
  | q + 1, prev, pp, h => by
    have hc : (xorBytes (pp.take 16) (md5 (key ++ prev))).length = 16 := by simp; omega
    have ih := unhideBlocks_hideBlocks key q (xorBytes (pp.take 16) (md5 (key ++ prev))) (pp.drop 16) (by simp; omega)
    simp only [hideBlocks, unhideBlocks, blk]
    rw [List.take_append_of_le_length (by omega), List.take_of_length_le (by omega),
      List.drop_left' hc, ih,
      xorBytes_xorBytes (by simp), List.take_append_drop]

/-- Block `i` of a ciphertext (42_password_cipher.md R180, R182). -/
theorem hideBlocks_block (key : List Byte) : ∀ (q : Nat) (prev pp : List Byte), pp.length = 16 * q → ∀ i < q,
    ((hideBlocks key q prev pp).drop (16 * i)).take 16 =
      xorBytes ((pp.drop (16 * i)).take 16)
        (md5 (key ++ if i = 0 then prev else ((hideBlocks key q prev pp).drop (16 * (i - 1))).take 16))
  | 0, _, _, _ => by simp
  | q + 1, prev, pp, h => by
    intro i hi
    have hc : (xorBytes (pp.take 16) (md5 (key ++ prev))).length = 16 := by simp; omega
    have ih := hideBlocks_block key q (xorBytes (pp.take 16) (md5 (key ++ prev))) (pp.drop 16) (by simp; omega)
    have hdrop : ∀ j, (hideBlocks key (q + 1) prev pp).drop (16 * (j + 1)) =
        (hideBlocks key q (xorBytes (pp.take 16) (md5 (key ++ prev))) (pp.drop 16)).drop (16 * j) := by
      intro j
      rw [show 16 * (j + 1) = 16 + 16 * j by omega, ← List.drop_drop]
      simp only [hideBlocks, blk]
      rw [List.drop_left' hc]
    have htake : (hideBlocks key (q + 1) prev pp).take 16 = xorBytes (pp.take 16) (md5 (key ++ prev)) := by
      simp only [hideBlocks, blk]
      rw [List.take_append_of_le_length (by omega), List.take_of_length_le (by omega)]
    cases i with
    | zero => simp [htake]
    | succ i =>
      rw [hdrop, ih i (by omega), List.drop_drop, show 16 + 16 * i = 16 * (i + 1) by omega]
      cases i with
      | zero => simp [htake]
      | succ i =>
        have := hdrop i
        simp only [Nat.add_one_ne_zero, if_false, Nat.add_one_sub_one, this]

/-- Block `i` of an unhidden plaintext (42_password_cipher.md R180, R184). -/
theorem unhideBlocks_block (key : List Byte) : ∀ (q : Nat) (prev cs : List Byte), cs.length = 16 * q → ∀ i < q,
    ((unhideBlocks key q prev cs).drop (16 * i)).take 16 =
      xorBytes ((cs.drop (16 * i)).take 16)
        (md5 (key ++ if i = 0 then prev else (cs.drop (16 * (i - 1))).take 16))
  | 0, _, _, _ => by simp
  | q + 1, prev, cs, h => by
    intro i hi
    have hc : (xorBytes (cs.take 16) (md5 (key ++ prev))).length = 16 := by simp; omega
    have ih := unhideBlocks_block key q (cs.take 16) (cs.drop 16) (by simp; omega)
    have hdrop : ∀ j, (unhideBlocks key (q + 1) prev cs).drop (16 * (j + 1)) =
        (unhideBlocks key q (cs.take 16) (cs.drop 16)).drop (16 * j) := by
      intro j
      rw [show 16 * (j + 1) = 16 + 16 * j by omega, ← List.drop_drop]
      simp only [unhideBlocks, blk]
      rw [List.drop_left' hc]
    cases i with
    | zero =>
      simp only [unhideBlocks, blk, Nat.mul_zero, List.drop_zero, if_true]
      rw [List.take_append_of_le_length (by omega), List.take_of_length_le (by omega)]
    | succ i =>
      rw [hdrop, ih i (by omega), List.drop_drop, show 16 + 16 * i = 16 * (i + 1) by omega]
      cases i with
      | zero => simp
      | succ i =>
        simp only [Nat.add_one_ne_zero, if_false, Nat.add_one_sub_one, List.drop_drop]
        rw [show 16 + 16 * i = 16 * (i + 1) by omega]

/-! ### Padding and stripping (42_password_cipher.md R181, R184) -/

theorem cipherLength_mod (n : Nat) : cipherLength n % 16 = 0 := by
  simp only [cipherLength, pad16, blk]
  split <;> omega

theorem le_cipherLength (n : Nat) : n ≤ cipherLength n := by
  simp only [cipherLength, pad16, blk]
  split <;> omega

theorem cipherLength_pos (n : Nat) : 16 ≤ cipherLength n := by
  simp only [cipherLength, pad16, blk]
  split <;> omega

theorem cipherLength_le {n : Nat} (h : n ≤ 240) : cipherLength n ≤ 240 := by
  simp only [cipherLength, pad16, blk]
  split <;> omega

@[simp] theorem padPlain_length (p : List Byte) : (padPlain p).length = cipherLength p.length := by
  have := le_cipherLength p.length
  simp [padPlain, this]

theorem strippedLength_le (p : List Byte) : strippedLength p ≤ p.length := Nat.sub_le _ _

/-- Stripping what ends in a byte that is not zero, and then in zeros, gives the length of the first part. -/
theorem strippedLength_append_zeros {p : List Byte} {k : Nat} (h : p = [] ∨ p.getD (p.length - 1) 0#8 ≠ 0#8) :
    strippedLength (p ++ List.replicate k 0#8) = p.length := by
  have h1 : List.takeWhile (· == 0#8) (List.replicate k 0#8 ++ p.reverse) = List.replicate k 0#8 := by
    rw [List.takeWhile_append_of_pos (by simp)]
    rcases h with rfl | h
    · simp
    · cases hp : p.reverse with
      | nil => simp
      | cons b bs =>
        have hb : b = p.getD (p.length - 1) 0#8 := by
          have e : p = bs.reverse ++ [b] := by rw [← List.reverse_reverse p, hp]; simp
          rw [e]
          simp [List.getD]
        have : (b == 0#8) = false := by rw [hb]; simpa using h
        simp [List.takeWhile, this]
  unfold strippedLength
  rw [List.reverse_append, List.reverse_replicate, h1]
  simp

/-- A byte string is its stripped part followed by zeros, and the stripped part does not end in a zero byte. -/
theorem strippedLength_spec (p : List Byte) :
    p = p.take (strippedLength p) ++ List.replicate (p.length - strippedLength p) 0#8
      ∧ (strippedLength p = 0 ∨ p.getD (strippedLength p - 1) 0#8 ≠ 0#8) := by
  have hsplit := List.takeWhile_append_dropWhile (p := (· == 0#8)) (l := p.reverse)
  have hz : (p.reverse.takeWhile (· == 0#8)) = List.replicate (p.reverse.takeWhile (· == 0#8)).length 0#8 := by
    rw [List.eq_replicate_iff]
    exact ⟨rfl, fun b hb => by simpa using List.mem_takeWhile_imp hb⟩
  have hp : p = (p.reverse.dropWhile (· == 0#8)).reverse ++ List.replicate (p.reverse.takeWhile (· == 0#8)).length 0#8 := by
    conv_lhs => rw [← List.reverse_reverse p, ← hsplit, hz]
    simp
  have hlen : (p.reverse.dropWhile (· == 0#8)).reverse.length = strippedLength p := by
    have := congrArg List.length hp
    simp only [List.length_append, List.length_replicate] at this
    unfold strippedLength
    omega
  have hsum : p.length - strippedLength p = (p.reverse.takeWhile (· == 0#8)).length := by
    have := congrArg List.length hp
    simp only [List.length_append, List.length_replicate, hlen] at this
    omega
  have htake : p.take (strippedLength p) = (p.reverse.dropWhile (· == 0#8)).reverse := by
    have := congrArg (List.take (strippedLength p)) hp
    rwa [← hlen, List.take_left, hlen] at this
  refine ⟨by rw [htake, hsum]; exact hp, ?_⟩
  cases hd : p.reverse.dropWhile (· == 0#8) with
  | nil => exact .inl (by rw [← hlen, hd]; rfl)
  | cons b bs =>
    right
    have hb : ¬ (b == 0#8) = true := by
      have := List.head_dropWhile_not (l := p.reverse) (fun x : Byte => x == 0#8) (by rw [hd]; simp)
      simpa [hd] using this
    have hget : (p.take (strippedLength p)).getD (strippedLength p - 1) 0#8 = b := by
      rw [htake, ← hlen, hd]
      simp [List.getD]
    have hpos : 0 < strippedLength p := by rw [← hlen, hd]; simp
    have : p.getD (strippedLength p - 1) 0#8 = b := by
      rw [← hget]
      simp only [List.getD, List.getElem?_take, if_pos (show strippedLength p - 1 < strippedLength p by omega)]
    rw [this]
    simpa using hb

/-! ### What the three commands answer -/

/-- The region checks of the cipher pass exactly when all three regions are in bounds (60_exceptions.md R225). -/
theorem cipherBounds_eq_none {s : State} :
    cipherBounds s = none ↔
      s.InBounds s.srcAddr s.srcCount ∧ s.InBounds s.keyAddr s.keyCount ∧ s.raAddr + 16 ≤ s.lmemSize := by
  have hra : s.InBounds s.raAddr blk ↔ s.raAddr + 16 ≤ s.lmemSize := by
    simp [State.InBounds]
  rw [← hra]
  unfold cipherBounds
  split
  · rename_i h
    exact ⟨nofun, fun k => absurd k.1 h⟩
  split
  · rename_i h
    exact ⟨nofun, fun k => absurd k.2.1 h⟩
  split
  · rename_i h
    exact ⟨nofun, fun k => absurd k.2.2 h⟩
  · rename_i h1 h2 h3
    exact ⟨fun _ => ⟨Decidable.not_not.1 h1, Decidable.not_not.1 h2, Decidable.not_not.1 h3⟩, fun _ => rfl⟩

/-- The errors of the region checks (60_exceptions.md R222, R225). -/
theorem cipherBounds_eq_some {s : State} {e : CmdError} (h : cipherBounds s = some e) :
    e = boundsError 0 regionSrc ∨ e = boundsError 0 regionKey ∨ e = boundsError 0 regionRa := by
  unfold cipherBounds at h
  split at h
  · cases h
    exact .inl rfl
  split at h
  · cases h
    exact .inr (.inl rfl)
  split at h
  · cases h
    exact .inr (.inr rfl)
  · cases h

/-- The ciphertext PWD_HIDE computes from LMEM (42_password_cipher.md R182). -/
def hidden (s : State) : List Byte :=
  hideBlocks (s.lmem.readBytes s.keyAddr s.keyCount) (cipherLength s.srcCount / blk) (s.lmem.readBytes s.raAddr blk)
    (padPlain (s.lmem.readBytes s.srcAddr s.srcCount))

@[simp] theorem hidden_length (s : State) : (hidden s).length = cipherLength s.srcCount := by
  have := cipherLength_mod s.srcCount
  unfold hidden
  rw [hideBlocks_length] <;> simp only [padPlain_length, Memory.readBytes_length, blk] <;> omega

theorem unhidden_length {s : State} (h : s.srcCount % 16 = 0) : (unhidden s).length = s.srcCount := by
  unfold unhidden
  rw [unhideBlocks_length] <;> simp only [Memory.readBytes_length, blk] <;> omega

/-- Everything a successful PWD_HIDE answers (42_password_cipher.md R182). -/
theorem pwdHideCmd_ok {s : State} {o : Outputs} (h : pwdHideCmd s = .ok o) :
    s.srcCount ≤ 240 ∧ s.InBounds s.srcAddr s.srcCount ∧ s.InBounds s.keyAddr s.keyCount ∧ s.raAddr + 16 ≤ s.lmemSize
      ∧ s.dstAddr + cipherLength s.srcCount ≤ s.lmemSize
      ∧ o = { write := some (s.dstAddr, hidden s), res0 := cipherLength s.srcCount } := by
  unfold pwdHideCmd at h
  split at h
  · cases h
  rename_i h1
  split at h
  · cases h
  rename_i hb
  split at h
  · cases h
  rename_i h2
  cases h
  obtain ⟨ha, hk, hr⟩ := cipherBounds_eq_none.1 hb
  refine ⟨by simpa using h1, ha, hk, hr, ?_, rfl⟩
  have := cipherLength_pos s.srcCount
  rcases Decidable.not_not.1 h2 with h | h
  · omega
  · exact h

/-- PWD_HIDE succeeds whenever its length and its regions allow (42_password_cipher.md R182). -/
theorem pwdHideCmd_eq {s : State} (h1 : s.srcCount ≤ 240) (h2 : s.InBounds s.srcAddr s.srcCount)
    (h3 : s.InBounds s.keyAddr s.keyCount) (h4 : s.raAddr + 16 ≤ s.lmemSize)
    (h5 : s.dstAddr + cipherLength s.srcCount ≤ s.lmemSize) :
    pwdHideCmd s = .ok { write := some (s.dstAddr, hidden s), res0 := cipherLength s.srcCount } := by
  have hb := cipherBounds_eq_none.2 ⟨h2, h3, h4⟩
  unfold pwdHideCmd
  rw [if_neg (by simpa using h1), hb]
  dsimp only
  rw [if_neg (not_not.2 (.inr h5))]
  rfl

/-- The only errors of PWD_HIDE (42_password_cipher.md R182). -/
theorem pwdHideCmd_error {s : State} {e : CmdError} (h : pwdHideCmd s = .error e) :
    (240 < s.srcCount ∧ e = { code := .passwordLength, pos := s.srcCount, sub := 0 }) ∨ cipherBounds s = some e
      ∨ e = boundsError 0 regionDst := by
  unfold pwdHideCmd at h
  split at h
  · rename_i hl
    cases h
    exact .inl ⟨hl, rfl⟩
  split at h
  · rename_i hb
    cases h
    exact .inr (.inl hb)
  split at h
  · cases h
    exact .inr (.inr rfl)
  · cases h

/-- Everything a successful PWD_UNHIDE answers (42_password_cipher.md R184). -/
theorem pwdUnhideCmd_ok {s : State} {o : Outputs} (h : pwdUnhideCmd s = .ok o) :
    s.srcCount ≠ 0 ∧ s.srcCount % 16 = 0 ∧ s.srcCount ≤ 240 ∧ s.InBounds s.srcAddr s.srcCount
      ∧ s.InBounds s.keyAddr s.keyCount ∧ s.raAddr + 16 ≤ s.lmemSize ∧ s.dstAddr + s.srcCount ≤ s.lmemSize
      ∧ o = { write := some (s.dstAddr, unhidden s), res0 := s.srcCount, res1 := strippedLength (unhidden s) } := by
  unfold pwdUnhideCmd at h
  split at h
  · cases h
  rename_i h1
  split at h
  · cases h
  rename_i hb
  split at h
  · cases h
  rename_i h2
  cases h
  obtain ⟨ha, hk, hr⟩ := cipherBounds_eq_none.1 hb
  simp only [blk, hideMax, not_or, not_not, ne_eq] at h1
  refine ⟨by omega, by omega, by omega, ha, hk, hr, ?_, rfl⟩
  rcases Decidable.not_not.1 h2 with h | h
  · omega
  · exact h

/-- PWD_UNHIDE succeeds whenever its length and its regions allow (42_password_cipher.md R184). -/
theorem pwdUnhideCmd_eq {s : State} (h0 : s.srcCount ≠ 0) (hm : s.srcCount % 16 = 0) (h1 : s.srcCount ≤ 240)
    (h2 : s.InBounds s.srcAddr s.srcCount) (h3 : s.InBounds s.keyAddr s.keyCount) (h4 : s.raAddr + 16 ≤ s.lmemSize)
    (h5 : s.dstAddr + s.srcCount ≤ s.lmemSize) :
    pwdUnhideCmd s =
      .ok { write := some (s.dstAddr, unhidden s), res0 := s.srcCount, res1 := strippedLength (unhidden s) } := by
  have hb := cipherBounds_eq_none.2 ⟨h2, h3, h4⟩
  unfold pwdUnhideCmd
  rw [if_neg (by simp only [blk, hideMax]; omega), hb]
  dsimp only
  rw [if_neg (not_not.2 (.inr h5))]

/-- The only errors of PWD_UNHIDE (42_password_cipher.md R184). -/
theorem pwdUnhideCmd_error {s : State} {e : CmdError} (h : pwdUnhideCmd s = .error e) :
    ((s.srcCount = 0 ∨ s.srcCount % 16 ≠ 0 ∨ 240 < s.srcCount)
        ∧ e = { code := .cipherLength, pos := s.srcCount, sub := 0 })
      ∨ cipherBounds s = some e ∨ e = boundsError 0 regionDst := by
  unfold pwdUnhideCmd at h
  split at h
  · rename_i hl
    cases h
    exact .inl ⟨hl, rfl⟩
  split at h
  · rename_i hb
    cases h
    exact .inr (.inl hb)
  split at h
  · cases h
    exact .inr (.inr rfl)
  · cases h

@[simp] theorem responseDigest_length (s : State) : (responseDigest s).length = 16 := md5_length _

/-- Everything a successful RESP_SIGN answers (43_response_authenticator.md R201). -/
theorem respSignCmd_ok {s : State} {o : Outputs} (h : respSignCmd s = .ok o) :
    20 ≤ s.srcCount ∧ s.srcCount ≤ 4096 ∧ s.srcAddr + s.srcCount ≤ s.lmemSize ∧ s.InBounds s.keyAddr s.keyCount
      ∧ s.raAddr + 16 ≤ s.lmemSize
      ∧ o = { write := some (s.srcAddr + 4, responseDigest s), digest := some (Lanes.ofBytes (responseDigest s)),
              res0 := 16 } := by
  unfold respSignCmd at h
  split at h
  · cases h
  rename_i h1
  split at h
  · cases h
  rename_i h2
  split at h
  · cases h
  rename_i h3
  split at h
  · cases h
  rename_i h4
  cases h
  simp only [pktMin, pktMax] at h1
  refine ⟨by omega, by omega, ?_, Decidable.not_not.1 h3, ?_, rfl⟩
  · rcases Decidable.not_not.1 h2 with h | h
    · omega
    · exact h
  · rcases Decidable.not_not.1 h4 with h | h
    · omega
    · exact h

/-- RESP_SIGN succeeds whenever its length and its regions allow (43_response_authenticator.md R201). -/
theorem respSignCmd_eq {s : State} (h1 : 20 ≤ s.srcCount) (h2 : s.srcCount ≤ 4096)
    (h3 : s.srcAddr + s.srcCount ≤ s.lmemSize) (h4 : s.InBounds s.keyAddr s.keyCount) (h5 : s.raAddr + 16 ≤ s.lmemSize) :
    respSignCmd s =
      .ok { write := some (s.srcAddr + 4, responseDigest s), digest := some (Lanes.ofBytes (responseDigest s)),
            res0 := 16 } := by
  unfold respSignCmd
  rw [if_neg (by simp only [pktMin, pktMax]; omega), if_neg (not_not.2 (.inr h3)), if_neg (not_not.2 h4),
    if_neg (not_not.2 (.inr h5))]

/-- The only errors of RESP_SIGN (43_response_authenticator.md R201). -/
theorem respSignCmd_error {s : State} {e : CmdError} (h : respSignCmd s = .error e) :
    ((s.srcCount < 20 ∨ 4096 < s.srcCount) ∧ e = { code := .packetLengthOutOfRange, pos := s.srcCount, sub := 0 })
      ∨ e = boundsError 0 regionSrc ∨ e = boundsError 0 regionKey ∨ e = boundsError 0 regionRa := by
  unfold respSignCmd at h
  split at h
  · rename_i hl
    cases h
    exact .inl ⟨hl, rfl⟩
  split at h
  · cases h
    exact .inr (.inl rfl)
  split at h
  · cases h
    exact .inr (.inr (.inl rfl))
  split at h
  · cases h
    exact .inr (.inr (.inr rfl))
  · cases h

end Sys2Proof.Machine
end

