-- ==== Sys2Proof/Laws/Packet.lean ====
section
/-! SUPPORT. The packet codec: the attribute walk over a list of attributes, what it accepts, and the descriptor table read
back as a list of attributes. -/

namespace Sys2Proof.Machine

/-! ### The wire form of a list of attributes -/

theorem attrsBytes_cons (a : Attr) (as : List Attr) : attrsBytes (a :: as) = encodeAttr a.1 a.2 ++ attrsBytes as := by
  simp [attrsBytes, encodeAttr]

theorem attrsBytes_append (as bs : List Attr) : attrsBytes (as ++ bs) = attrsBytes as ++ attrsBytes bs := by
  induction as with
  | nil => rfl
  | cons a as ih => simp [attrsBytes, ih]

/-- Every attribute takes at least two bytes. -/
theorem two_mul_length_le_attrsBytes (as : List Attr) : 2 * as.length ≤ (attrsBytes as).length := by
  induction as with
  | nil => simp
  | cons a as ih =>
    simp only [attrsBytes, List.length_cons, List.length_append]
    omega

/-- The descriptors of a list of attributes that stand from offset `o` of a datagram at address `r` (30_encoding.md R106). -/
def descriptorsOf (r : Nat) : Nat → List Attr → List Descriptor
  | _, [] => []
  | o, a :: as =>
    { type := a.1, vlen := BitVec.ofNat 8 a.2.length, voff := BitVec.ofNat 16 (r + o + 2) }
      :: descriptorsOf r (o + 2 + a.2.length) as

@[simp] theorem descriptorsOf_length (r o : Nat) (as : List Attr) : (descriptorsOf r o as).length = as.length := by
  induction as generalizing o with
  | nil => rfl
  | cons a as ih => simp [descriptorsOf, ih]

theorem tableBytes_descriptorsOf (r o : Nat) (as : List Attr) :
    tableBytes (descriptorsOf r o as) = descriptorBytes r o as := by
  induction as generalizing o with
  | nil => rfl
  | cons a as ih =>
    have := ih (o + 2 + a.2.length)
    simp only [tableBytes] at this
    simp [descriptorsOf, descriptorBytes, tableBytes, Descriptor.toBytes, be16_ofNat, this]

@[simp] theorem tableBytes_length (ds : List Descriptor) : (tableBytes ds).length = 4 * ds.length := by
  induction ds with
  | nil => rfl
  | cons d ds ih =>
    simp only [tableBytes] at ih
    simp only [tableBytes, List.flatMap_cons, List.length_append, ih, List.length_cons, Descriptor.toBytes, be16_length]
    omega

@[simp] theorem descriptorBytes_length (r o : Nat) (as : List Attr) : (descriptorBytes r o as).length = 4 * as.length := by
  rw [← tableBytes_descriptorsOf, tableBytes_length, descriptorsOf_length]

/-! ### The walk -/

/-- A walk that stands at a whole attribute takes it and goes on behind it (41_packet_codec.md R153). -/
theorem walkAttrs_cons {p rest : List Byte} {r turns o : Nat} {a : Attr} (ha : Attr.ok a) (ho : o ≤ p.length)
    (h : p.drop o = encodeAttr a.1 a.2 ++ rest) :
    walkAttrs p r (turns + 1) o =
      match walkAttrs p r turns (o + 2 + a.2.length) with
      | .error e => .error e
      | .ok ds => .ok ({ type := a.1, vlen := BitVec.ofNat 8 a.2.length, voff := BitVec.ofNat 16 (r + o + 2) } :: ds) := by
  have hp : p = p.take o ++ (encodeAttr a.1 a.2 ++ rest) := by rw [← h, List.take_append_drop]
  have hlen : (p.take o).length = o := by simp [ho]
  have hd : decodeAttr p o = .attr a.1 (2 + a.2.length) a.2 := by
    have := decodeAttr_encodeAttr (p.take o) rest a.2 a.1 ha
    rwa [← hp, hlen] at this
  have hlt : o < p.length := by
    have : 0 < (p.drop o).length := by rw [h]; simp
    simp at this
    exact this
  have e1 : 2 + a.2.length - 2 = a.2.length := by omega
  have e2 : o + (2 + a.2.length) = o + 2 + a.2.length := by omega
  cases hw : walkAttrs p r turns (o + 2 + a.2.length) <;> simp only [walkAttrs, if_pos hlt, hd, e1, e2, hw]

/-- A walk passes over any list of whole attributes and gives their descriptors (41_packet_codec.md R153). -/
theorem walkAttrs_append (p : List Byte) (r : Nat) (as : List Attr) (has : ∀ a ∈ as, Attr.ok a) :
    ∀ (turns o : Nat) (rest : List Byte), o ≤ p.length → p.drop o = attrsBytes as ++ rest →
      walkAttrs p r (as.length + turns) o =
        match walkAttrs p r turns (o + (attrsBytes as).length) with
        | .error e => .error e
        | .ok ds => .ok (descriptorsOf r o as ++ ds) := by
  induction as with
  | nil =>
    intro turns o rest _ _
    simp only [List.length_nil, Nat.zero_add, attrsBytes, Nat.add_zero, descriptorsOf, List.nil_append]
    cases walkAttrs p r turns o <;> rfl
  | cons a as ih =>
    intro turns o rest ho h
    rw [attrsBytes_cons, List.append_assoc] at h
    have hdrop : p.drop (o + 2 + a.2.length) = attrsBytes as ++ rest := by
      rw [Nat.add_assoc, ← List.drop_drop, h, ← encodeAttr_length a.1 a.2, List.drop_left]
    have ho' : o + 2 + a.2.length ≤ p.length := by
      have h2 : (p.drop o).length = (encodeAttr a.1 a.2 ++ (attrsBytes as ++ rest)).length := by rw [h]
      simp only [List.length_drop, List.length_append, encodeAttr_length] at h2
      omega
    have e : (a :: as).length + turns = as.length + turns + 1 := by simp only [List.length_cons]; omega
    have e2 : o + (attrsBytes (a :: as)).length = o + 2 + a.2.length + (attrsBytes as).length := by
      rw [attrsBytes_cons]
      simp only [List.length_append, encodeAttr_length]
      omega
    rw [e, walkAttrs_cons (has a (by simp)) ho h, ih (fun b hb => has b (by simp [hb])) turns _ rest ho' hdrop, e2]
    cases walkAttrs p r turns (o + 2 + a.2.length + (attrsBytes as).length) <;> simp [descriptorsOf]

/-- A walk that has reached the bound is over (41_packet_codec.md R153). -/
theorem walkAttrs_done {p : List Byte} {r turns o : Nat} (h : p.length ≤ o) : walkAttrs p r turns o = .ok [] := by
  cases turns with
  | zero => rfl
  | succ n => simp only [walkAttrs, if_neg (by omega : ¬ o < p.length)]

/-- A walk that stands at an attribute that is not whole raises its error (41_packet_codec.md R153, R154). -/
theorem walkAttrs_malformed {p : List Byte} {r turns o sub : Nat} (ho : o < p.length) (h : decodeAttr p o = .malformed sub) :
    walkAttrs p r (turns + 1) o =
      if sub = 2 then .error { code := .malformedAttribute, pos := o, sub := 2 }
      else .error { code := .truncatedAttribute, pos := o, sub := sub } := by
  simp only [walkAttrs, if_pos ho, h]

/-- A walk over exactly a list of whole attributes succeeds with their descriptors (41_packet_codec.md R153). -/
theorem walkAttrs_attrsBytes {p : List Byte} {r turns o : Nat} {as : List Attr} (has : ∀ a ∈ as, Attr.ok a)
    (ho : o ≤ p.length) (h : p.drop o = attrsBytes as) (ht : as.length ≤ turns) :
    walkAttrs p r turns o = .ok (descriptorsOf r o as) := by
  obtain ⟨k, rfl⟩ := Nat.exists_eq_add_of_le ht
  have hend : p.length ≤ o + (attrsBytes as).length := by
    have : (p.drop o).length = (attrsBytes as).length := by rw [h]
    simp only [List.length_drop] at this
    omega
  rw [walkAttrs_append p r as has k o [] ho (by simpa using h), walkAttrs_done hend]
  simp

/-- What a successful walk has passed over: whole attributes, up to the bound (41_packet_codec.md R153, R159). -/
theorem walkAttrs_ok {p : List Byte} {r turns o : Nat} {ds : List Descriptor} (ho : o ≤ p.length)
    (ht : p.length ≤ o + turns) (h : walkAttrs p r turns o = .ok ds) :
    ∃ as : List Attr, (∀ a ∈ as, Attr.ok a) ∧ p.drop o = attrsBytes as ∧ ds = descriptorsOf r o as := by
  induction turns generalizing o ds with
  | zero =>
    cases h
    exact ⟨[], by simp, by rw [List.drop_of_length_le (by omega)]; rfl, rfl⟩
  | succ n ih =>
    by_cases hlt : o < p.length
    · simp only [walkAttrs, if_pos hlt] at h
      split at h
      · split at h <;> cases h
      · rename_i type len value hd
        split at h
        · cases h
        rename_i ds' hw
        cases h
        obtain ⟨h1, h2, h3, h4, rfl, rfl⟩ := decodeAttr_eq_attr.1 hd
        obtain ⟨as, has, hdrop, rfl⟩ := ih (by omega) (by omega) hw
        have hb := (p.getD (o + 1) 0#8).isLt
        have hv : ((p.drop (o + 2)).take (len - 2)).length = len - 2 := by simp; omega
        refine ⟨(p.getD o 0#8, (p.drop (o + 2)).take (len - 2)) :: as, ?_, ?_, ?_⟩
        · intro a ha
          rcases List.mem_cons.1 ha with rfl | ha
          · simp only [Attr.ok, hv]
            omega
          · exact has a ha
        · have hL : BitVec.ofNat 8 (2 + (len - 2)) = p.getD (o + 1) 0#8 := by
            rw [show 2 + (len - 2) = len by omega, h2, BitVec.ofNat_toNat]
            rfl
          have e0 : p.drop o = p.getD o 0#8 :: p.getD (o + 1) 0#8 :: p.drop (o + 2) := by
            have g0 : p.getD o 0#8 = p[o] := by simp [List.getD, hlt]
            have g1 : p.getD (o + 1) 0#8 = p[o + 1] := by simp [List.getD, show o + 1 < p.length by omega]
            rw [g0, g1, List.drop_eq_getElem_cons hlt, List.drop_eq_getElem_cons (show o + 1 < p.length by omega)]
          have e1 : p.drop (o + 2) = (p.drop (o + 2)).take (len - 2) ++ p.drop (o + len) := by
            conv_lhs => rw [← List.take_append_drop (len - 2) (p.drop (o + 2))]
            rw [List.drop_drop, show o + 2 + (len - 2) = o + len by omega]
          simp only [attrsBytes, hv, hL]
          rw [e0, ← hdrop, ← e1]
        · simp only [descriptorsOf, hv]
          rw [show o + 2 + (len - 2) = o + len by omega]
    · rw [walkAttrs_done (by omega)] at h
      cases h
      exact ⟨[], by simp, by rw [List.drop_of_length_le (by omega)]; rfl, rfl⟩

/-- The only errors of a walk (41_packet_codec.md R154). -/
theorem walkAttrs_error {p : List Byte} {r turns o : Nat} {e : CmdError} (h : walkAttrs p r turns o = .error e) :
    e.pos < p.length ∧ ((e.code = .malformedAttribute ∧ e.sub = 2)
      ∨ (e.code = .truncatedAttribute ∧ (e.sub = 1 ∨ e.sub = 3))) := by
  induction turns generalizing o with
  | zero => cases h
  | succ n ih =>
    simp only [walkAttrs] at h
    split at h
    · rename_i ho
      split at h
      · rename_i sub hd
        split at h
        · cases h
          exact ⟨ho, .inl ⟨rfl, rfl⟩⟩
        · rename_i hsub
          cases h
          refine ⟨ho, .inr ⟨rfl, ?_⟩⟩
          rcases decodeAttr_eq_malformed.1 hd with ⟨-, rfl⟩ | ⟨-, -, rfl⟩ | ⟨-, -, -, rfl⟩
          · exact .inl rfl
          · exact absurd rfl hsub
          · exact .inr rfl
      · split at h
        · rename_i hw
          cases h
          exact ih hw
        · cases h
    · cases h

/-- An error as 60_exceptions.md R221 and R222 name it for a command: any code but ILLEGAL_OP, the SUB and POS of that
code, and a POS that fits its 16 bits (log 15). -/
def CommandError (e : CmdError) : Prop :=
  e.code ≠ .illegalOp ∧ RaisedError e.code.value e.pos e.sub ∧ e.pos ≤ 0xFFFF

theorem commandError_boundsError {pos sub : Nat} (h : (pos = 0 ∧ 1 ≤ sub ∧ sub ≤ 4) ∨ sub = 5) (hp : pos ≤ 0xFFFF) :
    CommandError (boundsError pos sub) :=
  ⟨nofun, .inr (.inl ⟨rfl, h⟩), hp⟩

/-! ### PKT_DECODE -/

/-- Everything a successful PKT_DECODE answers (41_packet_codec.md R150 to R158). -/
theorem pktDecodeCmd_ok {s : State} {o : Outputs} (h : pktDecodeCmd s = .ok o) :
    20 ≤ s.srcCount ∧ s.srcCount ≤ 4096 ∧ s.srcAddr + s.srcCount ≤ s.lmemSize
      ∧ 20 ≤ (declaredLength (s.lmem.readBytes s.srcAddr s.srcCount)).toNat
      ∧ (declaredLength (s.lmem.readBytes s.srcAddr s.srcCount)).toNat ≤ s.srcCount
      ∧ ∃ as : List Attr, (∀ a ∈ as, Attr.ok a)
        ∧ ((s.lmem.readBytes s.srcAddr s.srcCount).take
            (declaredLength (s.lmem.readBytes s.srcAddr s.srcCount)).toNat).drop 20 = attrsBytes as
        ∧ s.InBounds s.dstAddr (4 * as.length)
        ∧ o = decodedOutputs (s.lmem.readBytes s.srcAddr s.srcCount) s.dstAddr (descriptorsOf s.srcAddr 20 as) := by
  unfold pktDecodeCmd at h
  split at h
  · cases h
  rename_i h1
  simp only [pktMin, pktMax] at h1
  split at h
  · cases h
  rename_i h2
  split at h
  · cases h
  rename_i ds hd
  split at h
  · cases h
  rename_i h3
  cases h
  unfold decodeDatagram at hd
  dsimp only at hd
  split at hd
  · cases hd
  rename_i h4
  split at hd
  · cases hd
  rename_i h5
  simp only [pktMin, Memory.readBytes_length] at h4 h5
  have hlen : ((s.lmem.readBytes s.srcAddr s.srcCount).take
      (declaredLength (s.lmem.readBytes s.srcAddr s.srcCount)).toNat).length =
        (declaredLength (s.lmem.readBytes s.srcAddr s.srcCount)).toNat := by
    simp
    omega
  obtain ⟨as, has, hdrop, rfl⟩ := walkAttrs_ok (by rw [hlen]; simp only [hdrLen]; omega) (by omega) hd
  refine ⟨by omega, by omega, ?_, by omega, by omega, as, has, hdrop, ?_, rfl⟩
  · rcases Decidable.not_not.1 h2 with h2 | h2
    · omega
    · exact h2
  · simpa using Decidable.not_not.1 h3

/-- The only errors of PKT_DECODE (60_exceptions.md R221, R222). -/
theorem pktDecodeCmd_error {s : State} {e : CmdError} (h : pktDecodeCmd s = .error e) : CommandError e := by
  unfold pktDecodeCmd at h
  split at h
  · rename_i hn
    cases h
    have := s.srcLen.isLt
    exact ⟨nofun, by simpa [RaisedError, ErrCode.value] using hn, by dsimp only [State.srcCount]; omega⟩
  rename_i hn
  split at h
  · cases h
    exact commandError_boundsError (.inl (by decide)) (by decide)
  split at h
  · rename_i e' hd
    cases h
    have hl := (declaredLength (s.lmem.readBytes s.srcAddr s.srcCount)).isLt
    unfold decodeDatagram at hd
    dsimp only at hd
    split at hd
    · rename_i hlt
      cases hd
      exact ⟨nofun, by simpa [RaisedError, ErrCode.value] using hlt, by dsimp only; omega⟩
    split at hd
    · rename_i hgt
      cases hd
      rw [Memory.readBytes_length] at hgt
      refine ⟨nofun, .inr (.inr (.inr (.inr (.inl ⟨rfl, ?_, rfl⟩)))), by dsimp only; omega⟩
      simp only [pktMin] at hn ⊢
      omega
    · obtain ⟨hp, hc⟩ := walkAttrs_error hd
      rw [List.length_take, Memory.readBytes_length] at hp
      refine ⟨?_, ?_, by omega⟩
      · rcases hc with ⟨hc, -⟩ | ⟨hc, -⟩ <;> rw [hc] <;> exact nofun
      · rcases hc with ⟨hc, hs⟩ | ⟨hc, hs | hs⟩ <;> simp [RaisedError, ErrCode.value, hc, hs]
  split at h
  · cases h
    exact commandError_boundsError (.inl (by decide)) (by decide)
  · cases h

/-! ### The descriptor table -/

theorem parseTable_readBytes_succ (m : Memory) (t n : Nat) :
    parseTable (m.readBytes t (4 * (n + 1))) =
      { type := m.read t, vlen := m.read (t + 1), voff := fromBe16 (m.read (t + 2)) (m.read (t + 3)) }
        :: parseTable (m.readBytes (t + 4) (4 * n)) := by
  rw [show 4 * (n + 1) = 4 * n + 1 + 1 + 1 + 1 by omega]
  simp only [Memory.readBytes_succ, parseTable]

@[simp] theorem parseTable_zero (m : Memory) (t : Nat) : parseTable (m.readBytes t (4 * 0)) = [] := rfl

theorem voffAt_eq (m : Memory) (d : Nat) : voffAt m d = (fromBe16 (m.read (d + 2)) (m.read (d + 3))).toNat := by
  rw [fromBe16_toNat]
  rfl

/-- Encoding a table that begins with these attributes gives their wire bytes, then those of the rest of the table
(41_packet_codec.md R160, R161). -/
theorem encodeTable_tableHolds (s : State) (as : List Attr) :
    ∀ (i t n : Nat), TableHolds s t as →
      encodeTable s i (parseTable (s.lmem.readBytes t (4 * (as.length + n)))) =
        match encodeTable s (i + as.length) (parseTable (s.lmem.readBytes (t + 4 * as.length) (4 * n))) with
        | .error e => .error e
        | .ok body => .ok (attrsBytes as ++ body) := by
  induction as with
  | nil =>
    intro i t n _
    simp only [List.length_nil, Nat.zero_add, Nat.mul_zero, Nat.add_zero, attrsBytes, List.nil_append]
    cases encodeTable s i (parseTable (s.lmem.readBytes t (4 * n))) <;> rfl
  | cons a as ih =>
    intro i t n h
    obtain ⟨⟨ht, hv, hok, hin, hval⟩, hrest⟩ := h
    have e1 : (a :: as).length + n = as.length + n + 1 := by simp only [List.length_cons]; omega
    have e2 : i + (a :: as).length = i + 1 + as.length := by simp only [List.length_cons]; omega
    have e3 : t + 4 * (a :: as).length = t + 4 + 4 * as.length := by simp only [List.length_cons]; omega
    rw [voffAt_eq] at hin hval
    rw [e1, parseTable_readBytes_succ, e2, e3, attrsBytes_cons]
    simp only [encodeTable, hv, ht, valueMax]
    rw [if_neg (by omega), if_neg (not_not.2 hin), ih (i + 1) (t + 4) n hrest, hval]
    cases encodeTable s (i + 1 + as.length) (parseTable (s.lmem.readBytes (t + 4 + 4 * as.length) (4 * n))) <;> simp

/-- What a successful encoding of a table has read: a list of whole attributes, one for each descriptor
(41_packet_codec.md R160, R161). -/
theorem encodeTable_ok {s : State} {n i t : Nat} {body : List Byte}
    (h : encodeTable s i (parseTable (s.lmem.readBytes t (4 * n))) = .ok body) :
    ∃ as : List Attr, as.length = n ∧ TableHolds s t as ∧ body = attrsBytes as := by
  induction n generalizing i t body with
  | zero =>
    cases h
    exact ⟨[], rfl, trivial, rfl⟩
  | succ n ih =>
    rw [parseTable_readBytes_succ] at h
    simp only [encodeTable, valueMax] at h
    split at h
    · cases h
    rename_i h1
    split at h
    · cases h
    rename_i h2
    split at h
    · cases h
    rename_i body' hw
    cases h
    obtain ⟨as, hlen, has, rfl⟩ := ih hw
    refine ⟨(s.lmem.read t, s.lmem.readBytes (voffAt s.lmem t) (s.lmem.read (t + 1)).toNat) :: as, by simp [hlen],
      ⟨⟨rfl, by simp, by simpa using h1, ?_, by simp⟩, has⟩, ?_⟩
    · rw [voffAt_eq]
      simpa using Decidable.not_not.1 h2
    · rw [attrsBytes_cons, voffAt_eq]

/-- Encoding a table reads LMEM alone: it takes nothing from the registers. -/
theorem encodeTable_congr {s s' : State} (hm : s'.lmem = s.lmem) (hp : s'.params = s.params) (i : Nat)
    (ds : List Descriptor) : encodeTable s' i ds = encodeTable s i ds := by
  induction ds generalizing i with
  | nil => rfl
  | cons d ds ih =>
    simp only [encodeTable, State.InBounds, State.lmemSize, hm, hp, ih]
    congr

/-- The only errors of encoding a table (41_packet_codec.md R161). -/
theorem encodeTable_error {s : State} {i : Nat} {ds : List Descriptor} {e : CmdError} (h : encodeTable s i ds = .error e) :
    e.pos < i + ds.length ∧ ((e.code = .attributeTooLarge ∧ e.sub = 0) ∨ (e.code = .bounds ∧ e.sub = 5)) := by
  induction ds generalizing i with
  | nil => cases h
  | cons d ds ih =>
    simp only [encodeTable] at h
    rw [List.length_cons]
    split at h
    · cases h
      exact ⟨by dsimp only; omega, .inl ⟨rfl, rfl⟩⟩
    split at h
    · cases h
      exact ⟨by simp only [boundsError]; omega, .inr ⟨rfl, rfl⟩⟩
    split at h
    · rename_i hw
      cases h
      obtain ⟨hp, hc⟩ := ih hw
      exact ⟨by omega, hc⟩
    · cases h

/-- A table of `n` descriptors is `n` descriptors (30_encoding.md R107). -/
@[simp] theorem parseTable_length (m : Memory) (t n : Nat) : (parseTable (m.readBytes t (4 * n))).length = n := by
  induction n generalizing t with
  | zero => rfl
  | succ n ih => rw [parseTable_readBytes_succ, List.length_cons, ih]

/-- Everything the shared part of PKT_ENCODE and WIRE_LEN answers when it succeeds (41_packet_codec.md R160 to R163). -/
theorem packetBody_ok {s : State} {body : List Byte} (h : packetBody s = .ok body) :
    s.InBounds s.srcAddr (4 * s.auxCount) ∧ 20 + body.length ≤ 4096
      ∧ ∃ as : List Attr, as.length = s.auxCount ∧ TableHolds s s.srcAddr as ∧ body = attrsBytes as := by
  unfold packetBody at h
  split at h
  · cases h
  rename_i h1
  split at h
  · cases h
  rename_i body' hw
  split at h
  · cases h
  rename_i h2
  cases h
  exact ⟨Decidable.not_not.1 h1, by simpa [hdrLen, pktMax] using h2, encodeTable_ok hw⟩

/-- The shared part succeeds on a table that holds attributes of a packet that is not too large (41_packet_codec.md
R160). -/
theorem packetBody_eq {s : State} {as : List Attr} (hn : as.length = s.auxCount)
    (hb : s.InBounds s.srcAddr (4 * s.auxCount)) (ht : TableHolds s s.srcAddr as) (hm : 20 + (attrsBytes as).length ≤ 4096) :
    packetBody s = .ok (attrsBytes as) := by
  have := encodeTable_tableHolds s as 0 s.srcAddr 0 ht
  rw [Nat.add_zero, hn] at this
  simp only [packetBody, not_not.2 hb, if_false, this, Nat.mul_zero, Memory.readBytes_zero, parseTable, encodeTable,
    List.append_nil, hdrLen, pktMax]
  rw [if_neg (by omega)]

/-- The only errors of the shared part (41_packet_codec.md R161, R162). -/
theorem packetBody_error {s : State} {e : CmdError} (h : packetBody s = .error e) : CommandError e := by
  unfold packetBody at h
  split at h
  · cases h
    exact commandError_boundsError (.inl (by decide)) (by decide)
  split at h
  · rename_i hw
    cases h
    obtain ⟨hp, hc⟩ := encodeTable_error hw
    rw [parseTable_length] at hp
    have := s.aux.isLt
    refine ⟨?_, ?_, by simp only [State.auxCount] at hp; omega⟩
    · rcases hc with ⟨hc, -⟩ | ⟨hc, -⟩ <;> rw [hc] <;> exact nofun
    · rcases hc with ⟨hc, hs⟩ | ⟨hc, hs⟩ <;> simp [RaisedError, ErrCode.value, hc, hs]
  split at h
  · rename_i hm
    cases h
    simp only [hdrLen, pktMax] at hm
    refine ⟨nofun, ?_, Nat.min_le_right _ _⟩
    simp only [RaisedError, ErrCode.value, hdrLen]
    exact .inr (.inr (.inr (.inr (.inr (.inr (.inr (.inr (.inl ⟨trivial, by omega, trivial⟩))))))))
  · cases h

/-- Everything a successful PKT_ENCODE answers (41_packet_codec.md R160). -/
theorem pktEncodeCmd_ok {s : State} {o : Outputs} (h : pktEncodeCmd s = .ok o) :
    ∃ body, packetBody s = .ok body ∧ s.dstAddr + (20 + body.length) ≤ s.lmemSize
      ∧ o = { write := some (s.dstAddr, headerBytes s ++ body), res0 := 20 + body.length } := by
  unfold pktEncodeCmd at h
  split at h
  · cases h
  rename_i body hb
  split at h
  · cases h
  rename_i h1
  cases h
  refine ⟨body, hb, ?_, rfl⟩
  rcases Decidable.not_not.1 h1 with h1 | h1
  · simp only [hdrLen] at h1
    omega
  · exact h1

/-- The only errors of PKT_ENCODE (41_packet_codec.md R160). -/
theorem pktEncodeCmd_error {s : State} {e : CmdError} (h : pktEncodeCmd s = .error e) :
    packetBody s = .error e ∨ e = boundsError 0 regionDst := by
  unfold pktEncodeCmd at h
  split at h
  · rename_i hb
    cases h
    exact .inl hb
  split at h
  · cases h
    exact .inr rfl
  · cases h

/-- Everything a successful WIRE_LEN answers (41_packet_codec.md R163). -/
theorem wireLenCmd_ok {s : State} {o : Outputs} (h : wireLenCmd s = .ok o) :
    ∃ body, packetBody s = .ok body ∧ o = { res0 := 20 + body.length } := by
  unfold wireLenCmd at h
  split at h
  · cases h
  rename_i body hb
  cases h
  exact ⟨body, hb, rfl⟩

/-- The only errors of WIRE_LEN (41_packet_codec.md R163). -/
theorem wireLenCmd_error {s : State} {e : CmdError} (h : wireLenCmd s = .error e) : packetBody s = .error e := by
  unfold wireLenCmd at h
  split at h
  · rename_i hb
    cases h
    exact hb
  · cases h

@[simp] theorem headerBytes_length (s : State) : (headerBytes s).length = 20 := by simp [headerBytes]

/-- The header PKT_ENCODE emits, as the wire format lays it out (30_encoding.md R104, 41_packet_codec.md R160). -/
theorem headerBytes_append (s : State) (body : List Byte) :
    headerBytes s ++ body = packetBytes s.hdrCode s.hdrIdent s.hdrLength.toNat s.pktAuth.toBytes body := by
  simp [headerBytes, packetBytes, be16_eq]

end Sys2Proof.Machine
end

