-- ==== Sys2Proof/Laws/Commit.lean ====
section
/-! SUPPORT. The commit of every command at once: `exec` is a commit of what the command function answers, and what any
command function can answer. Later proofs cite these and never unfold `exec`. -/

namespace Sys2Proof.Machine

/-- The command function of each command (60_exceptions.md R223). -/
def commandOf : Instr → State → CmdResult
  | .attrDecode => attrDecodeCmd
  | .attrEncode => attrEncodeCmd
  | .pktDecode => pktDecodeCmd
  | .pktEncode => pktEncodeCmd
  | .wireLen => wireLenCmd
  | .pwdHide => pwdHideCmd
  | .pwdUnhide => pwdUnhideCmd
  | .respSign => respSignCmd

theorem exec_eq (i : Instr) (s : State) : exec i s = .next (s.commit (commandOf i s)) := by
  cases i <;> rfl

theorem exec_next {i : Instr} {s t : State} (h : exec i s = .next t) : t = s.commit (commandOf i s) := by
  rw [exec_eq] at h
  exact (Host.Outcome.next.inj h).symm

theorem exec_of_ok {i : Instr} {s : State} {o : Outputs} (h : commandOf i s = .ok o) :
    exec i s = .next (s.commitOk o) := by
  rw [exec_eq, h]
  rfl

theorem exec_of_error {i : Instr} {s : State} {e : CmdError} (h : commandOf i s = .error e) :
    exec i s = .next (s.commitErr e) := by
  rw [exec_eq, h]
  rfl

/-- A command commits a success or an error, and ERR says which (60_exceptions.md R223). -/
theorem exec_cases {i : Instr} {s t : State} (h : exec i s = .next t) :
    (∃ o, commandOf i s = .ok o ∧ t = s.commitOk o) ∨ (∃ e, commandOf i s = .error e ∧ t = s.commitErr e) := by
  have := exec_next h
  cases hc : commandOf i s with
  | ok o => exact .inl ⟨o, rfl, by rw [this, hc]; rfl⟩
  | error e => exact .inr ⟨e, rfl, by rw [this, hc]; rfl⟩

theorem exec_ok {i : Instr} {s t : State} (h : exec i s = .next t) (he : t.err = false) :
    ∃ o, commandOf i s = .ok o ∧ t = s.commitOk o := by
  rcases exec_cases h with h | ⟨e, -, rfl⟩
  · exact h
  · simp at he

theorem exec_error {i : Instr} {s t : State} (h : exec i s = .next t) (he : t.err = true) :
    ∃ e, commandOf i s = .error e ∧ t = s.commitErr e := by
  rcases exec_cases h with ⟨o, -, rfl⟩ | h
  · simp at he
  · exact h

/-- A command function reads the operand registers, the header registers and LMEM, and nothing else: two states alike in
these answer alike (30_encoding.md R103). -/
theorem commandOf_congr {s s' : State} (i : Instr) (h : SameCore s s') : commandOf i s' = commandOf i s := by
  have table : encodeTable s' = encodeTable s :=
    funext fun k => funext fun ds => encodeTable_congr h.2.2.2.2.2.2.2.2.2.2.2.2.2.2.1 h.2.2.2.2.2.2.2.2.2.2.2.2.2.2.2 k ds
  cases s
  cases s'
  simp only [SameCore] at h
  obtain ⟨rfl, rfl, rfl, rfl, rfl, rfl, rfl, rfl, rfl, rfl, rfl, rfl, rfl, rfl, rfl, rfl⟩ := h
  cases i
  case pktEncode =>
    simp only [commandOf, pktEncodeCmd, packetBody, table]
    rfl
  case wireLen =>
    simp only [commandOf, wireLenCmd, packetBody, table]
    rfl
  all_goals rfl

/-- A commit of a success that names no header, no digest and no TRAILING. -/
theorem commitOk_eq_succeeded {s : State} {o : Outputs} (hh : o.header = none) (hd : o.digest = none)
    (ht : o.trailing = none) :
    s.commitOk o = { s.succeeded o.res0 o.res1 o.res2 with lmem := s.lmem.apply o.write } := by
  obtain ⟨w, r0, r1, r2, h, d, tr⟩ := o
  subst hh hd ht
  rfl

theorem commitErr_eq_failed (s : State) (e : CmdError) : s.commitErr e = s.failed e.code.value e.pos e.sub := rfl

/-- What a write of outputs stores (60_exceptions.md R223). -/
theorem stored_writeBytes (m : Memory) (a : Nat) (bs : List Byte) : Stored m (m.writeBytes a bs) a bs :=
  fun x => Memory.read_writeBytes m a bs x

/-- Everything a command that succeeds can answer: results in the ranges of 10_state.md R47, a write inside LMEM
(20_memory.md R78), and the header and TRAILING written by PKT_DECODE alone, the digest by RESP_SIGN alone. -/
theorem commandOf_ok {i : Instr} {s : State} {o : Outputs} (h : commandOf i s = .ok o) :
    o.res0 ≤ 4096 ∧ o.res1 ≤ 0xFDFF ∧ o.res2 ≤ s.lmemSize
      ∧ (∀ a bs, o.write = some (a, bs) → bs = [] ∨ a + bs.length ≤ s.lmemSize)
      ∧ (i ≠ .pktDecode → o.header = none ∧ o.trailing = none) ∧ (i ≠ .respSign → o.digest = none) := by
  cases i with
  | attrDecode =>
    obtain ⟨len, h1, h2, h3, h4, h5, rfl⟩ := attrDecodeCmd_ok h
    have := (s.lmem.read (s.srcAddr + s.auxCount)).isLt
    have := (s.lmem.read (s.srcAddr + s.auxCount + 1)).isLt
    refine ⟨by dsimp only; omega, by dsimp only; omega, by dsimp only; omega, ?_, by simp, by simp⟩
    intro a bs hw
    cases hw
  | attrEncode =>
    obtain ⟨h1, h2, h3, rfl⟩ := attrEncodeCmd_ok h
    refine ⟨by dsimp only; omega, by simp, by simp, ?_, by simp, by simp⟩
    intro a bs hw
    cases hw
    simp only [encodeAttr_length, Memory.readBytes_length]
    exact .inr h3
  | pktDecode =>
    obtain ⟨h1, h2, h3, h4, h5, as, has, hdrop, hb, rfl⟩ := pktDecodeCmd_ok h
    have h6 := two_mul_length_le_attrsBytes as
    rw [← hdrop] at h6
    simp only [List.length_drop, List.length_take, Memory.readBytes_length] at h6
    refine ⟨?_, ?_, by simp [decodedOutputs], ?_, by simp, fun _ => rfl⟩
    · simp only [decodedOutputs, descriptorsOf_length]
      omega
    · simp only [decodedOutputs, Memory.readBytes_length]
      omega
    · intro a bs hw
      simp only [decodedOutputs, Option.some.injEq, Prod.mk.injEq] at hw
      obtain ⟨rfl, rfl⟩ := hw
      rw [tableBytes_length, descriptorsOf_length]
      rcases hb with hb | hb
      · exact .inl (List.length_eq_zero_iff.1 (by rw [tableBytes_length, descriptorsOf_length, hb]))
      · exact .inr hb
  | pktEncode =>
    obtain ⟨body, h1, h2, rfl⟩ := pktEncodeCmd_ok h
    have := (packetBody_ok h1).2.1
    refine ⟨by dsimp only; omega, by simp, by simp, ?_, by simp, by simp⟩
    intro a bs hw
    cases hw
    simp only [List.length_append, headerBytes_length]
    exact .inr h2
  | wireLen =>
    obtain ⟨body, h1, rfl⟩ := wireLenCmd_ok h
    have := (packetBody_ok h1).2.1
    refine ⟨by dsimp only; omega, by simp, by simp, ?_, by simp, by simp⟩
    intro a bs hw
    cases hw
  | pwdHide =>
    obtain ⟨h1, -, -, -, h5, rfl⟩ := pwdHideCmd_ok h
    have := cipherLength_le h1
    refine ⟨by dsimp only; omega, by simp, by simp, ?_, by simp, by simp⟩
    intro a bs hw
    cases hw
    rw [hidden_length]
    exact .inr h5
  | pwdUnhide =>
    obtain ⟨h0, hm, h1, -, -, -, h5, rfl⟩ := pwdUnhideCmd_ok h
    have := strippedLength_le (unhidden s)
    have hl := unhidden_length hm
    refine ⟨by dsimp only; omega, by dsimp only; omega, by simp, ?_, by simp, by simp⟩
    intro a bs hw
    cases hw
    rw [hl]
    exact .inr h5
  | respSign =>
    obtain ⟨h1, -, h3, -, -, rfl⟩ := respSignCmd_ok h
    refine ⟨by simp, by simp, by simp, ?_, by simp, by simp⟩
    intro a bs hw
    cases hw
    rw [responseDigest_length]
    exact .inr (by omega)

/-- Every error a command can raise is one of 60_exceptions.md R221 but ILLEGAL_OP, with the POS and SUB of R222. -/
theorem commandOf_error {i : Instr} {s : State} {e : CmdError} (h : commandOf i s = .error e) : CommandError e := by
  have hn := s.srcLen.isLt
  have region : ∀ r, 1 ≤ r ∧ r ≤ 4 → CommandError (boundsError 0 r) := fun r hr =>
    commandError_boundsError (.inl ⟨rfl, hr⟩) (Nat.zero_le _)
  have cipher : ∀ e, cipherBounds s = some e → CommandError e := by
    intro e he
    rcases cipherBounds_eq_some he with rfl | rfl | rfl <;> exact region _ (by decide)
  have fits : s.srcCount ≤ 0xFFFF := by
    simp only [State.srcCount]
    omega
  cases i with
  | attrDecode =>
    rcases attrDecodeCmd_error h with rfl | ⟨sub, hs, rfl⟩
    · exact region _ (by decide)
    · have := s.aux.isLt
      refine ⟨nofun, by simpa [RaisedError, ErrCode.value] using hs, ?_⟩
      simp only [State.auxCount]
      omega
  | attrEncode =>
    rcases attrEncodeCmd_error h with rfl | rfl | rfl
    · exact ⟨nofun, by simp [RaisedError, ErrCode.value], fits⟩
    · exact region _ (by decide)
    · exact region _ (by decide)
  | pktDecode => exact pktDecodeCmd_error h
  | pktEncode =>
    rcases pktEncodeCmd_error h with h | rfl
    · exact packetBody_error h
    · exact region _ (by decide)
  | wireLen => exact packetBody_error (wireLenCmd_error h)
  | pwdHide =>
    rcases pwdHideCmd_error h with ⟨hl, rfl⟩ | h | rfl
    · exact ⟨nofun, by simpa [RaisedError, ErrCode.value] using hl, fits⟩
    · exact cipher e h
    · exact region _ (by decide)
  | pwdUnhide =>
    rcases pwdUnhideCmd_error h with ⟨hl, rfl⟩ | h | rfl
    · exact ⟨nofun, by simpa [RaisedError, ErrCode.value] using hl, fits⟩
    · exact cipher e h
    · exact region _ (by decide)
  | respSign =>
    rcases respSignCmd_error h with ⟨hl, rfl⟩ | rfl | rfl | rfl
    · exact ⟨nofun, by simpa [RaisedError, ErrCode.value] using hl, fits⟩
    all_goals exact region _ (by decide)

end Sys2Proof.Machine
end

