-- ==== Sys2Proof/Laws/PerInstr.lean ====
section
/-! SUPPORT. What holds of each command as syntax, one lemma per constructor of `Instr`: its code, its word, and that the
decoder reads the word back (30_encoding.md R100 to R102). -/

namespace Sys2Proof.Laws

/-- A command's code is one of 0x01 to 0x08 (30_encoding.md R101); its command word holds that code in bits 7:0 and nothing
above (R102); the decoder reads the word, and the table's view of it, back. -/
def CommandWord.Statement (i : Instr) : Prop :=
  1 ≤ (opcode i).toNat ∧ (opcode i).toNat ≤ 8
    ∧ (encode i).extractLsb' 0 8 = opcode i ∧ (encode i).extractLsb' 8 24 = 0#24
    ∧ i.wellFormed = true ∧ decodeWord (encode i) = .ok i ∧ decodeTableWord 32 (encode i).toNat = some i

theorem CommandWord.attrDecode : CommandWord.Statement .attrDecode := by unfold CommandWord.Statement; decide

theorem CommandWord.attrEncode : CommandWord.Statement .attrEncode := by unfold CommandWord.Statement; decide

theorem CommandWord.pktDecode : CommandWord.Statement .pktDecode := by unfold CommandWord.Statement; decide

theorem CommandWord.pktEncode : CommandWord.Statement .pktEncode := by unfold CommandWord.Statement; decide

theorem CommandWord.wireLen : CommandWord.Statement .wireLen := by unfold CommandWord.Statement; decide

theorem CommandWord.pwdHide : CommandWord.Statement .pwdHide := by unfold CommandWord.Statement; decide

theorem CommandWord.pwdUnhide : CommandWord.Statement .pwdUnhide := by unfold CommandWord.Statement; decide

theorem CommandWord.respSign : CommandWord.Statement .respSign := by unfold CommandWord.Statement; decide

end Sys2Proof.Laws
end

