-- ==== Sys2Proof/Laws/Step.lean ====
section
/-! SUPPORT. Everything one step can do. Later proofs cite these and never unfold `step`. -/

namespace Sys2Proof.Machine

/-- The opcode map read back (30_encoding.md R101): OP stands for a command exactly when it is the command's code. -/
theorem decodeOp_eq_ok {op : Byte} {i : Instr} : decodeOp op = .ok i ↔ op = opcode i := by
  constructor
  · intro h
    apply BitVec.eq_of_toNat_eq
    unfold decodeOp at h
    split at h <;> cases h
    all_goals assumption
  · rintro rfl
    cases i <;> rfl

/-- OP stands for no command exactly when it is reserved (30_encoding.md R101, R109). -/
theorem decodeOp_eq_error {op : Byte} {e : DecodeError} :
    decodeOp op = .error e ↔ (op = 0x00#8 ∨ 0x09 ≤ op.toNat) ∧ e = .reservedOp op := by
  constructor
  · intro h
    unfold decodeOp at h
    split at h <;> cases h
    rename_i h1 h2 h3 h4 h5 h6 h7 h8
    refine ⟨?_, rfl⟩
    by_cases h0 : op.toNat = 0
    · exact .inl (BitVec.eq_of_toNat_eq h0)
    · right
      simp only [imp_false] at h1 h2 h3 h4 h5 h6 h7 h8
      omega
  · rintro ⟨h, rfl⟩
    have hn : op.toNat = 0 ∨ 9 ≤ op.toNat := by
      rcases h with rfl | h
      · exact .inl rfl
      · exact .inr h
    unfold decodeOp
    split <;> first | rfl | omega

/-- What the engine's turn does: nothing while IDLE, else the commit of the latched command (60_exceptions.md R223). -/
theorem engineTurn_cases {s t : State} (h : engineTurn s = .next t) :
    (s.phase = .idle ∧ t = s)
      ∨ (s.phase = .busy ∧ ∃ i, s.op = opcode i ∧ exec i s = .next t)
      ∨ (s.phase = .busy ∧ (s.op = 0x00#8 ∨ 0x09 ≤ s.op.toNat) ∧ t = s.commitErr (illegalOpError s.op)) := by
  unfold engineTurn at h
  split at h
  · rename_i hp
    exact .inl ⟨hp, (Host.Outcome.next.inj h).symm⟩
  · rename_i hp
    split at h
    · rename_i i hi
      exact .inr (.inl ⟨hp, i, decodeOp_eq_ok.1 hi, h⟩)
    · rename_i e he
      exact .inr (.inr ⟨hp, (decodeOp_eq_error.1 he).1, (Host.Outcome.next.inj h).symm⟩)

/-- A step is a host access or the engine's turn (20_memory.md R83; log 1). -/
theorem step_cases {s t : State} (h : step s = .next t) :
    (∃ a rest, s.inbox = .access a :: rest ∧ hostAccess a { s with inbox := rest } = .next t)
      ∨ (∃ rest, (s.inbox = .engine :: rest ∨ (s.inbox = [] ∧ rest = []))
          ∧ engineTurn { s with inbox := rest } = .next t) := by
  unfold step nextEvent at h
  split at h
  · rename_i hi
    refine .inr ⟨[], .inr ⟨hi, rfl⟩, ?_⟩
    rw [← hi]
    exact h
  · rename_i rest hi
    exact .inr ⟨rest, .inl hi, h⟩
  · rename_i a rest hi
    exact .inl ⟨a, rest, hi, h⟩

/-- A step whose next event is an access is that access (20_memory.md R83). -/
theorem step_before_access (s : State) (a : HostAccess) : step (s.before (.access a)) = hostAccess a s := rfl

/-- A step whose next event is the engine's turn is that turn (20_memory.md R83). -/
theorem step_before_engine (s : State) : step (s.before .engine) = engineTurn s := rfl

/-- A run of the machine, one step at a time. -/
theorem run_succ {k : Nat} {s t : State} (h : step s = .next t) :
    Host.Core.run Sys2Proof.core (k + 1) s = Host.Core.run Sys2Proof.core k t := by
  have hc : Sys2Proof.core.step s = .next t := h
  simp only [Host.Core.run, hc]

/-- A run of `j + k` steps is a run of `j` and then one of `k`. -/
theorem run_add {j k : Nat} {s t : State} (h : Host.Core.run Sys2Proof.core j s = .next t) :
    Host.Core.run Sys2Proof.core (j + k) s = Host.Core.run Sys2Proof.core k t := by
  induction j generalizing s with
  | zero =>
    cases h
    rw [Nat.zero_add]
  | succ j ih =>
    rw [Nat.add_right_comm]
    cases hs : Sys2Proof.core.step s with
    | next s' =>
      simp only [Host.Core.run, hs] at h ⊢
      exact ih h
    | fault r => simp [Host.Core.run, hs] at h
    | refused r => simp [Host.Core.run, hs] at h

theorem step_empty {s : State} (h : s.inbox = []) : step s = engineTurn s := by
  unfold step nextEvent
  rw [h]

end Sys2Proof.Machine
end

