-- ==== Sys2Proof/Tests/Slice0.lean ====
section
/-! SUPPORT. Tests of the model on fixed values, taken from spec/ (the vectors of 95_test_vectors.md are named by their ids),
and for each statement with hypotheses a witness that meets them. -/

namespace Sys2Proof.Tests

-- The kernel evaluates these tests one after the other: side by side they need a thread each.
set_option Elab.async false

open Sys2Proof Sys2Proof.Machine

/-! ### Helpers -/

/-- The outcome is a next state with the property `p`. -/
def holds (o : Host.Outcome State Fault Refusal) (p : State → Bool) : Bool :=
  match o with
  | .next t => p t
  | _ => false

theorem next_of_holds {o : Host.Outcome State Fault Refusal} {p : State → Bool} (h : holds o p = true) :
    ∃ t, o = .next t ∧ p t = true := by
  cases o with
  | next t => exact ⟨t, rfl, h⟩
  | fault f => exact nomatch h
  | refused r => exact nomatch h

/-- `RA0` of 95_test_vectors.md. -/
def ra0 : List Byte := (List.range 16).map (BitVec.ofNat 8)

/-- The registers PKT_AUTH0..3 that hold `RA0` (95_test_vectors.md §2.2). -/
def ra0Lanes : Lanes := ⟨0x03020100#32, 0x07060504#32, 0x0B0A0908#32, 0x0F0E0D0C#32⟩

/-- "frans1". -/
def frans1 : List Byte := [0x66#8, 0x72#8, 0x61#8, 0x6E#8, 0x73#8, 0x31#8]

/-- The attribute `01 08 66 72 61 6E 73 31`. -/
def userName : List Byte := 0x01#8 :: 0x08#8 :: frans1

/-- "fran123!". -/
def fran123 : List Byte := [0x66#8, 0x72#8, 0x61#8, 0x6E#8, 0x31#8, 0x32#8, 0x33#8, 0x21#8]

/-- The ciphertext of V-H1. -/
def cipherH1 : List Byte :=
  [0x8E#8, 0xB5#8, 0x53#8, 0x55#8, 0xC6#8, 0xEF#8, 0x97#8, 0x71#8,
   0xD4#8, 0xA4#8, 0x36#8, 0xA2#8, 0xB5#8, 0x3F#8, 0x30#8, 0x04#8]

/-- The digest of V-S1. -/
def digestS1 : List Byte :=
  [0xE7#8, 0xAC#8, 0x43#8, 0x5E#8, 0xBB#8, 0x75#8, 0xC4#8, 0x70#8,
   0x20#8, 0xBF#8, 0x17#8, 0xC4#8, 0xDF#8, 0x4A#8, 0x95#8, 0x0C#8]

/-- LMEM with one byte string written. -/
def mem (a : Nat) (bs : List Byte) : Memory := Memory.writeBytes [] a bs

/-- `PKT(c, id, len, attrs)` of 95_test_vectors.md §2.2. -/
def pkt (code ident len : Nat) (attrs : List Byte) : List Byte :=
  BitVec.ofNat 8 code :: BitVec.ofNat 8 ident :: BitVec.ofNat 8 (len / 256) :: BitVec.ofNat 8 len :: (ra0 ++ attrs)

/-- The block while it runs the command of code `op`, with these operands, and old values in the result registers. -/
def running (op : Byte) (m : Memory) (src len dst aux : Nat) : State :=
  { State.reset with
    phase := .busy, op := op, lmem := m
    srcPtr := BitVec.ofNat 16 src, srcLen := BitVec.ofNat 16 len, dstPtr := BitVec.ofNat 16 dst, aux := BitVec.ofNat 16 aux
    res0 := 0x11#32, res1 := 0x22#32, res2 := 0x33#32 }

/-- The same with the secret "ABC" and `RA0` in place (95_test_vectors.md §2.4). -/
def keyed (op : Byte) (m : Memory) (src len dst : Nat) : State :=
  { running op ((m.writeBytes 0x4000 [0x41#8, 0x42#8, 0x43#8]).writeBytes 0x4010 ra0) src len dst 0 with
    keyPtr := 0x4000#16, keyLen := 3#16, raPtr := 0x4010#16 }

/-- The same with the header registers of V-PE2. -/
def encoding (op : Byte) (m : Memory) (src dst aux : Nat) : State :=
  { running op m src 0 dst aux with pktHdr := 0x001C2A01#32, pktAuth := ra0Lanes }

/-- "OK" of 95_test_vectors.md, with these results and these bytes at `a`. -/
def isOk (res0 res1 res2 : Word) (a : Nat) (bs : List Byte) (t : State) : Bool :=
  t.phase == .idle && t.done && !t.err && t.errcode == 0#8 && t.errPos == 0#16 && t.errSub == 0#8
    && t.res0 == res0 && t.res1 == res1 && t.res2 == res2 && t.lmem.readBytes a bs.length == bs

/-- "Error E(pos, sub)" of 95_test_vectors.md: the report, and the results and LMEM as they were. -/
def isError (s : State) (code : Byte) (pos : Half) (sub : Byte) (t : State) : Bool :=
  decide (t = { s with phase := .idle, done := true, err := true, errcode := code, errPos := pos, errSub := sub })

/-! ### Well-formedness: each check refuses an ill-formed term -/

theorem test_wf_params_overlap : Params.wellFormed { lmemSize := .bytes0x4000, regBase := 0x2000, lmemBase := 0x1800 } = false := by
  decide

theorem test_wf_params_adjacent : Params.wellFormed { lmemSize := .bytes0x4000, regBase := 0x2000, lmemBase := 0x3000 } = true := by
  decide

theorem test_wf_access_reg_width : HostAccess.wellFormed Params.default (.read 0x10000 2) = false := by decide

theorem test_wf_access_reg_misaligned : HostAccess.wellFormed Params.default (.write 0x10006 4 0#32) = false := by decide

theorem test_wf_access_lmem_width : HostAccess.wellFormed Params.default (.read 0x20000 3) = false := by decide

theorem test_wf_access_lmem_misaligned : HostAccess.wellFormed Params.default (.read 0x20101 2) = false := by decide

theorem test_wf_access_outside : HostAccess.wellFormed Params.default (.read 0x28000 1) = false := by decide

theorem test_wf_access_last_byte : HostAccess.wellFormed Params.default (.read 0x27FFF 1) = true := by decide

theorem test_wf_input : Input.wellFormed Params.default (.access (.write 0x10000 1 0#32)) = false := by decide

theorem test_wf_script_write_read_only : ScriptLine.wellFormed Params.default (.wr .res0 1#32) = false := by decide

theorem test_wf_script_write_past_end : ScriptLine.wellFormed Params.default (.mwb 0x7FFF [1#8, 2#8]) = false := by decide

theorem test_wf_script_read_past_end : ScriptLine.wellFormed Params.default (.mrb 0x7FFF 2) = false := by decide

theorem test_wf_script_run_cmd : ScriptLine.wellFormed Params.default (.run .wireLen [(.cmd, 0#32)] 0) = false := by decide

/-! ### Decoding: the command words of 30_encoding.md R101, bit by bit -/

theorem test_decode_attrDecode : decodeWord 0b00000000_00000000_00000000_00000001#32 = .ok .attrDecode := by decide

theorem test_decode_attrEncode : decodeWord 0b00000000_00000000_00000000_00000010#32 = .ok .attrEncode := by decide

theorem test_decode_pktDecode : decodeWord 0b00000000_00000000_00000000_00000011#32 = .ok .pktDecode := by decide

theorem test_decode_pktEncode : decodeWord 0b00000000_00000000_00000000_00000100#32 = .ok .pktEncode := by decide

theorem test_decode_wireLen : decodeWord 0b00000000_00000000_00000000_00000101#32 = .ok .wireLen := by decide

theorem test_decode_pwdHide : decodeWord 0b00000000_00000000_00000000_00000110#32 = .ok .pwdHide := by decide

theorem test_decode_pwdUnhide : decodeWord 0b00000000_00000000_00000000_00000111#32 = .ok .pwdUnhide := by decide

theorem test_decode_respSign : decodeWord 0b00000000_00000000_00000000_00001000#32 = .ok .respSign := by decide

/-- Bits 31:8 are ignored (30_encoding.md R109; V-IL1, V-IL2). -/
theorem test_decode_reserved : decodeWord 0x00ABCD00#32 = .error (.reservedOp 0x00#8)
    ∧ decodeWord 0x00ABCD09#32 = .error (.reservedOp 0x09#8) ∧ decodeWord 0xFFFFFF08#32 = .ok .respSign := by decide

theorem test_decode_truncated : decodeBytes [0x01#8, 0x00#8, 0x00#8] = .error (.truncated 3) := by decide

theorem test_table_word : decodeTableWord 32 0x05 = some .wireLen ∧ decodeTableWord 8 0x08 = some .respSign
    ∧ decodeTableWord 32 0x09 = none := by decide

/-- The word `withFetchWord` places is the one the next step runs (V-AD7: an empty buffer). -/
theorem test_fetch_word : holds (step (State.reset.withFetchWord 32 0x01))
    (isError (State.reset.startCommand 0x01#8) 0x14#8 0#16 1#8) = true := by decide +kernel

/-! ### The commands, on the vectors of 95_test_vectors.md -/

theorem test_attrDecode_V_AD1 : holds (exec .attrDecode (running 0x01#8 (mem 0x100 userName) 0x100 8 0 0))
    (isOk 0x8#32 0x601#32 0x102#32 0x100 userName) = true := by decide +kernel

theorem test_attrDecode_V_AD6 : holds (exec .attrDecode (running 0x01#8 (mem 0x100 (0x01#8 :: 0x09#8 :: frans1)) 0x100 8 0 0))
    (isError (running 0x01#8 (mem 0x100 (0x01#8 :: 0x09#8 :: frans1)) 0x100 8 0 0) 0x14#8 0#16 3#8) = true := by
  decide +kernel

theorem test_attrEncode_V_AE1 : holds (exec .attrEncode (running 0x02#8 (mem 0x200 frans1) 0x200 6 0x300 0x01))
    (isOk 0x8#32 0#32 0#32 0x300 userName) = true := by decide +kernel

/-- The header lands just in front of the value, and AUX[15:8] is ignored. -/
theorem test_attrEncode_V_AE6 : holds (exec .attrEncode (running 0x02#8 (mem 0x200 [0x78#8, 0x79#8]) 0x200 2 0x1FE 0x301))
    (isOk 0x4#32 0#32 0#32 0x1FE [0x01#8, 0x04#8, 0x78#8, 0x79#8]) = true := by decide +kernel

theorem test_pktDecode_V_PD6 :
    holds (exec .pktDecode (running 0x03#8 (mem 0 (pkt 0x01 0x2A 0x1C userName ++ [0xEE#8, 0xEE#8, 0xEE#8])) 0 31 0x1000 0))
      (fun t => isOk 0x1#32 0x3#32 0#32 0x1000 [0x01#8, 0x06#8, 0x00#8, 0x16#8] t && t.trailing
        && t.pktHdr == 0x001C2A01#32 && t.pktAuth == ra0Lanes) = true := by decide +kernel

theorem test_pktDecode_V_PD9 :
    holds (exec .pktDecode (running 0x03#8 (mem 0 (pkt 0x01 0x2A 0x1D (userName ++ [0x12#8]))) 0 29 0x1000 0))
      (isError (running 0x03#8 (mem 0 (pkt 0x01 0x2A 0x1D (userName ++ [0x12#8]))) 0 29 0x1000 0) 0x13#8 0x1C#16 1#8) = true := by
  decide +kernel

/-- LMEM of V-PE2: the value and the descriptor. -/
def memPE2 : Memory := (mem 0x100 frans1).writeBytes 0x1000 [0x01#8, 0x06#8, 0x01#8, 0x00#8]

theorem test_pktEncode_V_PE2 : holds (exec .pktEncode (encoding 0x04#8 memPE2 0x1000 0x2000 1))
    (isOk 0x1C#32 0#32 0#32 0x2000 (pkt 0x01 0x2A 0x1C userName)) = true := by decide +kernel

/-- LMEM of V-PE4: two descriptors, the second's value region past the end. -/
def memPE4 : Memory := mem 0x1000 [0x01#8, 0x00#8, 0x00#8, 0x00#8, 0x01#8, 0x0A#8, 0x7F#8, 0xFA#8]

theorem test_pktEncode_V_PE4 : holds (exec .pktEncode (encoding 0x04#8 memPE4 0x1000 0x2000 2))
    (isError (encoding 0x04#8 memPE4 0x1000 0x2000 2) 0x02#8 1#16 5#8) = true := by decide +kernel

theorem test_wireLen_V_WL1 : holds (exec .wireLen (encoding 0x05#8 memPE2 0x1000 0x2000 1))
    (fun t => isOk 0x1C#32 0#32 0#32 0x100 frans1 t && t.lmem == memPE2 && t.pktHdr == 0x001C2A01#32) = true := by
  decide +kernel

theorem test_pwdHide_V_H1 : holds (exec .pwdHide (keyed 0x06#8 (mem 0x100 fran123) 0x100 8 0x200))
    (isOk 0x10#32 0#32 0#32 0x200 cipherH1) = true := by decide +kernel

theorem test_pwdHide_V_H5 : holds (exec .pwdHide (keyed 0x06#8 [] 0x100 241 0x200))
    (isError (keyed 0x06#8 [] 0x100 241 0x200) 0x20#8 0xF1#16 0#8) = true := by decide +kernel

theorem test_pwdUnhide_V_U1 : holds (exec .pwdUnhide (keyed 0x07#8 (mem 0x200 cipherH1) 0x200 16 0x300))
    (isOk 0x10#32 0x8#32 0#32 0x300 (fran123 ++ List.replicate 8 0#8)) = true := by decide +kernel

theorem test_pwdUnhide_V_U9 : holds (exec .pwdUnhide (keyed 0x07#8 [] 0x200 17 0x300))
    (isError (keyed 0x07#8 [] 0x200 17 0x300) 0x21#8 0x11#16 0#8) = true := by decide +kernel

/-- The response of V-S1, unsigned. -/
def memS1 : Memory := mem 0x3000 (0x02#8 :: 0x2A#8 :: 0x00#8 :: 0x14#8 :: List.replicate 16 0#8)

theorem test_respSign_V_S1 : holds (exec .respSign (keyed 0x08#8 memS1 0x3000 20 0))
    (fun t => isOk 0x10#32 0#32 0#32 0x3004 digestS1 t
      && t.digest == ⟨0x5E43ACE7#32, 0x70C475BB#32, 0xC417BF20#32, 0x0C954ADF#32⟩) = true := by decide +kernel

theorem test_respSign_V_S6 : holds (exec .respSign (keyed 0x08#8 [] 0x3000 4097 0))
    (isError (keyed 0x08#8 [] 0x3000 4097 0) 0x10#8 0x1001#16 0#8) = true := by decide +kernel

/-! ### Host accesses (95_test_vectors.md §2.6) -/

theorem test_host_V_B3 : holds (step (State.reset.before (.access (.read 0x10000 4))))
    (fun t => t.response == some 0x52434231#32) = true := by decide +kernel

theorem test_host_V_B4 : holds (step (State.reset.before (.access (.write 0x10060 4 0x12345678#32))))
    (fun t => decide (t = State.reset)) = true := by decide +kernel

theorem test_host_V_B5 : holds (step (State.reset.before (.access (.read 0x20101 2))))
    (fun t => t.response == some 0#32 && t.accessErr) = true := by decide +kernel

theorem test_host_V_B6 :
    holds (step (({ State.reset with lmem := mem 0x100 [0x01#8, 0x08#8] } : State).before (.access (.read 0x20100 2))))
      (fun t => t.response == some 0x0801#32 && !t.accessErr) = true := by decide +kernel

/-- V-B1: while BUSY the write of SRC_LEN is dropped and flagged. -/
theorem test_host_V_B1 : holds (step ((running 0x03#8 [] 0 20 0x1000 0).before (.access (.write 0x10018 4 99#32))))
    (fun t => t.srcLen == 20#16 && t.statusWord == 0x00000011#32) = true := by decide +kernel

/-- V-B2: the soft reset while BUSY. -/
theorem test_host_V_B2 : holds (step ((running 0x03#8 (mem 0 [0x01#8]) 0 20 0x1000 0).before (.access (.write 0x10004 4 1#32))))
    (fun t => decide (t = { State.reset with lmem := mem 0 [0x01#8] })) = true := by decide +kernel

/-! ### MD5 (00_scope.md R20) -/

/-- A message of one whole 64-byte chunk pads to two chunks (00_scope.md R16). -/
theorem test_md5_pad_two_chunks : (md5Pad (List.replicate 64 0x61#8)).length = 128
    ∧ (md5Pad (List.replicate 55 0x61#8)).length = 64 ∧ (md5Pad (List.replicate 56 0x61#8)).length = 128 := by decide +kernel

/-- A message of two chunks: the 80 digits of RFC 1321's own test suite (PRESUMED: spec/ names RFC 1321 and gives no digest
past one chunk; log 10). -/
theorem test_md5_two_chunks :
    md5 (List.replicate 8 [0x31#8, 0x32#8, 0x33#8, 0x34#8, 0x35#8, 0x36#8, 0x37#8, 0x38#8, 0x39#8, 0x30#8]).flatten =
      [0x57#8, 0xED#8, 0xF4#8, 0xA2#8, 0x2B#8, 0xE3#8, 0xC9#8, 0x55#8,
       0xAC#8, 0x49#8, 0xDA#8, 0x2E#8, 0x21#8, 0x07#8, 0xB6#8, 0x7A#8] := by decide +kernel

/-- The hypothesis of Md5BlockFunction: a chunk is 64 bytes. -/
theorem witness_Md5BlockFunction : ((md5Pad []).take 64).length = 64 := by decide

/-- The keystream block of V-H7: MD5 of `RA0` alone. -/
theorem test_md5_V_H7 : md5 ra0 =
    [0x1A#8, 0xC1#8, 0xEF#8, 0x01#8, 0xE9#8, 0x6C#8, 0xAF#8, 0x1B#8,
     0xE0#8, 0xD3#8, 0x29#8, 0x33#8, 0x1A#8, 0x4F#8, 0xC2#8, 0xA8#8] := by decide +kernel

/-! ### Witnesses: states and operands that meet the hypotheses of the statements, at the boundaries of their clauses -/

theorem witness_DecodeInvertsEncode :
    (∀ i : Instr, i.wellFormed = true)
    ∧ decodeBytes [0x03#8, 0xAA#8, 0xBB#8, 0xCC#8, 0x11#8] = .ok (.pktDecode, [0x11#8]) := by
  exact ⟨fun i => by cases i <;> rfl, by decide⟩

theorem witness_StepRunsLatchedCommand :
    (running 0x05#8 [] 0 0 0 0).phase = .busy ∧ decodeOp (running 0x05#8 [] 0 0 0 0).op = .ok .wireLen
    ∧ Instr.wireLen.wellFormed = true ∧ (running 0x05#8 [] 0 0 0 0).inbox = [] := by decide

/-- The two clauses of the write: an IDLE block and a BUSY one. -/
theorem witness_CmdWriteStartsCommand :
    State.reset.phase = .idle ∧ (running 0x05#8 [] 0 0 0 0).phase = .busy := by decide

/-- OP 0x00, 0x09 and 0xFF; and two command words that differ only in their reserved bits. -/
theorem witness_ReservedOpRaisesIllegalOp :
    (∀ op ∈ [0x00#8, 0x09#8, 0xFF#8], (running op [] 0 0 0 0).phase = .busy
      ∧ ((running op [] 0 0 0 0).op = 0x00#8 ∨ 0x09 ≤ (running op [] 0 0 0 0).op.toNat))
    ∧ (0x00ABCD09#32).extractLsb' 0 8 = (0x00000009#32).extractLsb' 0 8 := by decide

theorem witness_OnlyCmdWriteStartsEngine :
    ∃ s t, step s = .next t ∧ s.phase = .idle ∧ t.phase = .busy := by
  obtain ⟨t, ht, hp⟩ := next_of_holds (o := step (State.reset.before (.access (.write 0x10008 4 3#32))))
    (p := fun t => t.phase == .busy) (by decide +kernel)
  exact ⟨_, t, ht, rfl, by simpa using hp⟩

theorem witness_BusyAccessesCannotChangeCommit :
    (running 0x05#8 [] 0 0 0 0).phase = .busy ∧ (running 0x05#8 [] 0 0 0 0).BusyReportClear
    ∧ ∀ a ∈ [HostAccess.write 0x10018 4 99#32, .write 0x10004 4 2#32, .write 0x27FFF 1 0#32, .read 0x10FFC 4],
        (running 0x05#8 [] 0 0 0 0).target (accessAddr a) ≠ .outside ∧ NoSoftReset (running 0x05#8 [] 0 0 0 0) a := by
  refine ⟨rfl, fun _ => by decide, fun a ha => ?_⟩
  simp only [List.mem_cons, List.not_mem_nil, or_false] at ha
  rcases ha with rfl | rfl | rfl | rfl
  · exact ⟨by decide, fun v h => by simp [running, State.reset, Params.default] at h⟩
  · exact ⟨by decide, fun v h => by
      simp only [HostAccess.write.injEq] at h
      rw [← h.2.2]
      decide⟩
  · exact ⟨by decide, fun v h => by simp [running, State.reset, Params.default] at h⟩
  · exact ⟨by decide, fun v h => nomatch h⟩

/-- The offsets of the last clause: the first and the last reserved ones. -/
theorem witness_RegisterReadValues :
    (∀ off ∈ [0x060, 0xFFC], 0x060 ≤ off ∧ off < 0x1000 ∧ off % 4 = 0)
    ∧ (running 0x05#8 [] 0x7FFF 0 0 0).srcPtr.setWidth 32 = 0x7FFF#32 := by decide

/-- The last clause at the first read-only result register, the first reserved offset and the last. -/
theorem witness_IdleRegisterWrites :
    State.reset.phase = .idle
    ∧ ∀ off ∈ [0x044, 0x060, 0xFFC], 0x044 ≤ off ∧ off < 0x1000 ∧ off % 4 = 0 := by decide

theorem witness_BusyRegisterAccess :
    (running 0x05#8 [] 0 0 0 0).phase = .busy
    ∧ (∀ off ∈ [0x000, 0x008, 0xFFC], off < 0x1000 ∧ off % 4 = 0 ∧ off ≠ 0x004 ∧ off ≠ 0x00C) := by decide

/-- A narrow access at the first offset, a misaligned one at the last. -/
theorem witness_IllegalRegisterAccessIgnored :
    (0x000 < 0x1000 ∧ (2 ≠ 4 ∨ 0x000 % 4 ≠ 0)) ∧ (0xFFF < 0x1000 ∧ (4 ≠ 4 ∨ 0xFFF % 4 ≠ 0)) := by decide

theorem witness_CtrlWriteSoftResets :
    (0x00000001#32).getLsbD 0 = true ∧ (0xFFFFFFFE#32).getLsbD 0 = false := by decide

/-- Both ways of clearing ACCESS_ERR: the W1C write and the soft reset. -/
theorem witness_AccessErrIsSticky :
    (∃ s t, step s = .next t ∧ s.accessErr = true ∧ t.accessErr = false)
    ∧ ∃ s t, step s = .next t ∧ s.accessErr = true ∧ t.accessErr = false ∧ s.phase = .busy := by
  obtain ⟨t, ht, hp⟩ := next_of_holds
    (o := step (({ State.reset with accessErr := true } : State).before (.access (.write 0x1000C 4 0x10#32))))
    (p := fun t => !t.accessErr) (by decide +kernel)
  obtain ⟨u, hu, hq⟩ := next_of_holds
    (o := step (({ running 0x05#8 [] 0 0 0 0 with accessErr := true } : State).before (.access (.write 0x10004 4 1#32))))
    (p := fun t => !t.accessErr) (by decide +kernel)
  exact ⟨⟨_, t, ht, rfl, by simpa using hp⟩, ⟨_, u, hu, rfl, by simpa using hq, rfl⟩⟩

theorem witness_AuthenticatorLaneOrder : ra0.length = 16 ∧ Lanes.ofBytes ra0 = ra0Lanes := by decide

/-- Each width at the last address it may have. -/
theorem witness_HostLmemAccess :
    State.reset.params.wellFormed = true ∧ State.reset.phase = .idle
    ∧ ∀ aw ∈ [(0x7FFF, 1), (0x7FFE, 2), (0x7FFC, 4)], aw.1 < State.reset.lmemSize
        ∧ (aw.2 = 1 ∨ aw.2 = 2 ∨ aw.2 = 4) ∧ aw.1 % aw.2 = 0 := by decide

/-- A BUSY block, a width of 3, a width of 0, and a misaligned access at the last byte. -/
theorem witness_IgnoredLmemAccess :
    State.reset.params.wellFormed = true ∧ (running 0x05#8 [] 0 0 0 0).phase = .busy
    ∧ (∀ aw ∈ [(0, 3), (0x7FFF, 0), (0x7FFF, 2)], aw.1 < State.reset.lmemSize
        ∧ (¬ (aw.2 = 1 ∨ aw.2 = 2 ∨ aw.2 = 4) ∨ aw.1 % aw.2 ≠ 0)) := by decide

/-- Both ways: a host write while IDLE, and a commit while BUSY. -/
theorem witness_LmemChangesOnlyByWriteOrCommit :
    (∃ s t, step s = .next t ∧ t.lmem.read 0x7FFF ≠ s.lmem.read 0x7FFF ∧ s.phase = .idle)
    ∧ ∃ s t, step s = .next t ∧ t.lmem.read 0x200 ≠ s.lmem.read 0x200 ∧ s.phase = .busy := by
  obtain ⟨t, ht, hp⟩ := next_of_holds
    (o := step (({ State.reset with lmem := mem 0x7FFF [7#8] } : State).before (.access (.write 0x27FFF 1 9#32))))
    (p := fun t => t.lmem.read 0x7FFF == 9#8) (by decide +kernel)
  obtain ⟨u, hu, hq⟩ := next_of_holds (o := step (running 0x02#8 (mem 0x200 frans1) 0x200 6 0x200 0x01))
    (p := fun t => t.lmem.read 0x200 == 1#8) (by decide +kernel)
  exact ⟨⟨_, t, ht, by rw [eq_of_beq hp]; decide +kernel, rfl⟩, ⟨_, u, hu, by rw [eq_of_beq hq]; decide +kernel, rfl⟩⟩

theorem witness_OnlyOutsideAccessesFault :
    step (State.reset.before (.access (.read 0x28000 4))) = .fault (.outsideWindows 0x28000) := rfl

/-- Every command completes on some state of the vectors, without an error (for CommitKeepsOperands,
SuccessReportsNoError, HeaderAndDigestWriters and CommandsStoreOnlyToTheirRegion). -/
theorem witness_everyCommandCompletes : ∀ i : Instr, ∃ s t, exec i s = .next t ∧ t.err = false := by
  have key : ∀ (i : Instr) (s : State), holds (exec i s) (fun t => !t.err) = true → ∃ s t, exec i s = .next t ∧ t.err = false := by
    intro i s h
    obtain ⟨t, ht, hp⟩ := next_of_holds h
    exact ⟨s, t, ht, by simpa using hp⟩
  intro i
  cases i
  · exact key _ (running 0x01#8 (mem 0x100 userName) 0x100 8 0 0) (by decide +kernel)
  · exact key _ (running 0x02#8 (mem 0x200 frans1) 0x200 6 0x300 0x01) (by decide +kernel)
  · exact key _ (running 0x03#8 (mem 0 (pkt 0x01 0x2A 0x1C userName)) 0 28 0x1000 0) (by decide +kernel)
  · exact key _ (encoding 0x04#8 memPE2 0x1000 0x2000 1) (by decide +kernel)
  · exact key _ (encoding 0x05#8 memPE2 0x1000 0x2000 1) (by decide +kernel)
  · exact key _ (keyed 0x06#8 (mem 0x100 fran123) 0x100 8 0x200) (by decide +kernel)
  · exact key _ (keyed 0x07#8 (mem 0x200 cipherH1) 0x200 16 0x300) (by decide +kernel)
  · exact key _ (keyed 0x08#8 memS1 0x3000 20 0) (by decide +kernel)

theorem witness_ErrorDiscardsOutputs :
    ∃ s t : State, s.phase = .busy ∧ step (s.before .engine) = .next t ∧ t.err = true := by
  obtain ⟨t, ht, hp⟩ := next_of_holds (o := step ((keyed 0x06#8 [] 0x100 241 0x200).before .engine))
    (p := fun t => t.err) (by decide +kernel)
  exact ⟨_, t, rfl, ht, hp⟩

theorem witness_RunLineRunsCommand :
    State.reset.phase = .idle ∧ State.reset.inbox = []
    ∧ ∀ rv ∈ [(RegName.ctrl, 1#32), (.srcPtr, 0x1000#32), (.aux, 0#32), (.res0, 7#32)], rv.1 ≠ .cmd := by decide

theorem test_wf_script_run : ScriptLine.wellFormed Params.default (.run .wireLen [(.srcPtr, 0x1000#32), (.aux, 0#32)] 2) = true := by
  decide

/-- V-AD1, and V-AD9 where the attribute ends exactly at the bound. -/
theorem witness_AttrDecodeResult :
    (let s := running 0x01#8 (mem 0x100 userName) 0x100 8 0 0
     s.srcAddr + s.srcCount ≤ s.lmemSize ∧ s.auxCount + 2 ≤ s.srcCount
      ∧ (s.lmem.read (s.srcAddr + s.auxCount + 1)).toNat = 8 ∧ s.auxCount + 8 ≤ s.srcCount)
    ∧ (let s := running 0x01#8 (mem 0x100 (userName ++ [0x12#8, 0x02#8])) 0x100 10 0 8
       s.srcAddr + s.srcCount ≤ s.lmemSize ∧ s.auxCount + 2 ≤ s.srcCount
        ∧ (s.lmem.read (s.srcAddr + s.auxCount + 1)).toNat = 2 ∧ s.auxCount + 2 ≤ s.srcCount) := by decide +kernel

/-- One clause each: V-AD11, V-AD10, V-AD3, V-AD6. -/
theorem witness_AttrDecodeErrors :
    (let s := running 0x01#8 [] 0x7FF0 0x20 0 0
     s.srcCount ≠ 0 ∧ s.lmemSize < s.srcAddr + s.srcCount)
    ∧ (let s := running 0x01#8 (mem 0x100 userName) 0x100 8 0 7
       s.InBounds s.srcAddr s.srcCount ∧ s.srcCount < s.auxCount + 2)
    ∧ (let s := running 0x01#8 (mem 0x100 [0x01#8, 0x01#8]) 0x100 2 0 0
       s.InBounds s.srcAddr s.srcCount ∧ s.auxCount + 2 ≤ s.srcCount
        ∧ (s.lmem.read (s.srcAddr + s.auxCount + 1)).toNat = 1)
    ∧ (let s := running 0x01#8 (mem 0x100 (0x01#8 :: 0x09#8 :: frans1)) 0x100 8 0 0
       s.InBounds s.srcAddr s.srcCount ∧ s.auxCount + 2 ≤ s.srcCount
        ∧ (s.lmem.read (s.srcAddr + s.auxCount + 1)).toNat = 9 ∧ s.srcCount < s.auxCount + 9) := by decide +kernel

/-- V-AE3 and V-AE2: the longest value and the empty one, its address outside LMEM. -/
theorem witness_AttrEncodeResult :
    (let s := running 0x02#8 [] 0x200 253 0x300 0x1A
     s.srcCount ≤ 253 ∧ s.InBounds s.srcAddr s.srcCount ∧ s.dstAddr + (2 + s.srcCount) ≤ s.lmemSize)
    ∧ (let s := running 0x02#8 [] 0xFFFF 0 0x7FFE 0x12
       s.srcCount ≤ 253 ∧ s.InBounds s.srcAddr s.srcCount ∧ s.dstAddr + (2 + s.srcCount) ≤ s.lmemSize) := by decide

/-- One clause each: V-AE4, a value region one byte past the end, V-AE5. -/
theorem witness_AttrEncodeErrors :
    253 < (running 0x02#8 [] 0x200 254 0x300 0x01).srcCount
    ∧ (let s := running 0x02#8 [] 0x7FFF 2 0x300 0x01
       s.srcCount ≤ 253 ∧ ¬ s.InBounds s.srcAddr s.srcCount)
    ∧ (let s := running 0x02#8 [] 0x200 1 0x7FFE 0x01
       s.srcCount ≤ 253 ∧ s.InBounds s.srcAddr s.srcCount ∧ s.lmemSize < s.dstAddr + (2 + s.srcCount)) := by decide

theorem witness_AttributeRoundTrip : ∃ s t, exec .attrEncode s = .next t ∧ t.err = false :=
  witness_everyCommandCompletes .attrEncode

/-- V-PD6, and V-PD3, where the packet has no attribute and the table address is not checked. -/
theorem witness_PktDecodeResult :
    (let s := running 0x03#8 (mem 0 (pkt 0x01 0x2A 0x1C userName ++ [0xEE#8, 0xEE#8, 0xEE#8])) 0 31 0x1000 0
     s.lmem.readBytes s.srcAddr s.srcCount =
        packetBytes 0x01#8 0x2A#8 (20 + (attrsBytes [(0x01#8, frans1)]).length) ra0 (attrsBytes [(0x01#8, frans1)])
          ++ [0xEE#8, 0xEE#8, 0xEE#8]
      ∧ ra0.length = 16 ∧ frans1.length ≤ 253 ∧ s.srcCount ≤ 4096 ∧ s.srcAddr + s.srcCount ≤ s.lmemSize
      ∧ s.InBounds s.dstAddr (4 * [(0x01#8, frans1)].length))
    ∧ (let s := running 0x03#8 (mem 0 (pkt 0x01 0x2A 0x14 [])) 0 20 0xFFFF 0
       s.lmem.readBytes s.srcAddr s.srcCount = packetBytes 0x01#8 0x2A#8 (20 + (attrsBytes []).length) ra0 (attrsBytes []) ++ []
        ∧ s.srcCount ≤ 4096 ∧ s.srcAddr + s.srcCount ≤ s.lmemSize ∧ s.InBounds s.dstAddr (4 * 0)) := by decide +kernel

theorem witness_PktDecodeAcceptsOnlyPackets : ∃ s t, exec .pktDecode s = .next t ∧ t.err = false :=
  witness_everyCommandCompletes .pktDecode

theorem witness_DecodedLengthInvariant : ∃ s t, exec .pktDecode s = .next t ∧ t.err = false :=
  witness_everyCommandCompletes .pktDecode

/-- One clause each: V-PD2 and V-PD5, V-PD15, V-PD7, V-PD8. -/
theorem witness_PktDecodeLengthErrors :
    (running 0x03#8 [] 0 19 0x1000 0).srcCount < 20 ∧ 4096 < (running 0x03#8 [] 0 4097 0x1000 0).srcCount
    ∧ (let s := running 0x03#8 [] 0x7F00 0x200 0x1000 0
       20 ≤ s.srcCount ∧ s.srcCount ≤ 4096 ∧ s.lmemSize < s.srcAddr + s.srcCount)
    ∧ (let s := running 0x03#8 (mem 0 (pkt 0x01 0x2A 0x13 [0#8, 0#8, 0#8, 0#8])) 0 24 0x1000 0
       20 ≤ s.srcCount ∧ s.srcCount ≤ 4096 ∧ s.srcAddr + s.srcCount ≤ s.lmemSize
        ∧ (s.lmem.read (s.srcAddr + 2)).toNat * 256 + (s.lmem.read (s.srcAddr + 3)).toNat = 19)
    ∧ (let s := running 0x03#8 (mem 0 (pkt 0x01 0x2A 0x1D userName)) 0 28 0x1000 0
       20 ≤ s.srcCount ∧ s.srcCount ≤ 4096 ∧ s.srcAddr + s.srcCount ≤ s.lmemSize
        ∧ (s.lmem.read (s.srcAddr + 2)).toNat * 256 + (s.lmem.read (s.srcAddr + 3)).toNat = 29 ∧ s.srcCount < 29) := by
  decide +kernel

/-- One clause each: V-PD9, V-PD10, V-PD11, V-PD14. -/
theorem witness_PktDecodeWalkErrors :
    (let s := running 0x03#8 (mem 0 (pkt 0x01 0x2A 0x1D (userName ++ [0x12#8]))) 0 29 0x1000 0
     s.lmem.readBytes s.srcAddr s.srcCount = packetBytes 0x01#8 0x2A#8 29 ra0 (attrsBytes [(0x01#8, frans1)] ++ [0x12#8])
      ∧ 20 + (attrsBytes [(0x01#8, frans1)]).length + 1 = 29 ∧ 29 ≤ s.srcCount)
    ∧ (let s := running 0x03#8 (mem 0 (pkt 0x01 0x2A 0x18 [1#8, 1#8, 0#8, 0#8])) 0 24 0x1000 0
       s.lmem.readBytes s.srcAddr s.srcCount = packetBytes 0x01#8 0x2A#8 24 ra0 (attrsBytes [] ++ [1#8, 1#8, 0#8, 0#8])
        ∧ 20 + (attrsBytes []).length + 2 ≤ 24 ∧ (([1#8, 1#8, 0#8, 0#8] : List Byte).getD 1 0#8).toNat < 2)
    ∧ (let s := running 0x03#8 (mem 0 (pkt 0x01 0x2A 0x18 [1#8, 0x0A#8, 0#8, 0#8])) 0 24 0x1000 0
       s.lmem.readBytes s.srcAddr s.srcCount = packetBytes 0x01#8 0x2A#8 24 ra0 (attrsBytes [] ++ [1#8, 0x0A#8, 0#8, 0#8])
        ∧ 24 < 20 + (attrsBytes []).length + (([1#8, 0x0A#8, 0#8, 0#8] : List Byte).getD 1 0#8).toNat)
    ∧ (let s := running 0x03#8 (mem 0 (pkt 0x01 0x2A 0x1C userName)) 0 28 0x7FFE 0
       s.lmem.readBytes s.srcAddr s.srcCount = packetBytes 0x01#8 0x2A#8 28 ra0 (attrsBytes [(0x01#8, frans1)] ++ [])
        ∧ 20 + (attrsBytes [(0x01#8, frans1)]).length = 28 ∧ ¬ s.InBounds s.dstAddr (4 * [(0x01#8, frans1)].length)) := by
  decide +kernel

/-- V-PE2, for PKT_ENCODE and WIRE_LEN; and V-PE1, no attribute, the output at the end of LMEM. -/
theorem witness_PktEncodeResult :
    (let s := encoding 0x04#8 memPE2 0x1000 0x2000 1
     [(0x01#8, frans1)].length = s.auxCount ∧ s.InBounds s.srcAddr (4 * s.auxCount)
      ∧ TableHolds s s.srcAddr [(0x01#8, frans1)] ∧ 20 + (attrsBytes [(0x01#8, frans1)]).length ≤ 4096
      ∧ s.dstAddr + (20 + (attrsBytes [(0x01#8, frans1)]).length) ≤ s.lmemSize)
    ∧ (let s := encoding 0x04#8 [] 0xFFFF 0x7FEC 0
       ([] : List Attr).length = s.auxCount ∧ s.InBounds s.srcAddr (4 * s.auxCount) ∧ TableHolds s s.srcAddr []
        ∧ s.dstAddr + (20 + (attrsBytes []).length) ≤ s.lmemSize) := by
  simp only [TableHolds, DescriptorHolds]
  decide +kernel

theorem witness_WireLenResult :
    let s := encoding 0x05#8 memPE2 0x1000 0x2000 1
    [(0x01#8, frans1)].length = s.auxCount ∧ s.InBounds s.srcAddr (4 * s.auxCount)
      ∧ TableHolds s s.srcAddr [(0x01#8, frans1)] ∧ 20 + (attrsBytes [(0x01#8, frans1)]).length ≤ 4096 := by
  simp only [TableHolds, DescriptorHolds]
  decide +kernel

/-- Seventeen attributes of one 240-byte value, 20 + 17 * 242 = 4134 bytes. -/
def bigAttrs : List Attr := List.replicate 17 (0x1A#8, List.replicate 240 0#8)

/-- Their LMEM: the table at 0x40, the value at 0x100. -/
def memBig : Memory :=
  (mem 0x40 (List.replicate 17 [0x1A#8, 0xF0#8, 0x01#8, 0x00#8]).flatten).writeBytes 0x100 (List.replicate 240 0#8)

theorem tableHolds_replicate {s : State} {a : Attr} : ∀ (n t : Nat), (∀ i < n, DescriptorHolds s (t + 4 * i) a) →
    TableHolds s t (List.replicate n a)
  | 0, _, _ => trivial
  | n + 1, t, h => ⟨h 0 (by omega), tableHolds_replicate n (t + 4) fun i hi => by
      have := h (i + 1) (by omega)
      rwa [show t + 4 * (i + 1) = t + 4 + 4 * i by omega] at this⟩

/-- One clause each: V-PE7, V-PE3 (vlen 254), V-PE4 (the second descriptor). -/
theorem witness_EncodeErrors :
    (let s := encoding 0x04#8 [] 0x7FFC 0x2000 2
     ¬ s.InBounds s.srcAddr (4 * s.auxCount))
    ∧ (let s := encoding 0x04#8 (mem 0x1000 [0x01#8, 0xFE#8, 0x01#8, 0x00#8]) 0x1000 0x2000 1
       s.InBounds s.srcAddr (4 * s.auxCount) ∧ 0 < s.auxCount ∧ 253 < (s.lmem.read (s.srcAddr + 4 * 0 + 1)).toNat)
    ∧ (let s := encoding 0x04#8 memPE4 0x1000 0x2000 2
       TableHolds s s.srcAddr [(0x01#8, [])] ∧ s.InBounds s.srcAddr (4 * s.auxCount) ∧ 1 < s.auxCount
        ∧ (s.lmem.read (s.srcAddr + 4 * 1 + 1)).toNat ≤ 253
        ∧ ¬ s.InBounds (voffAt s.lmem (s.srcAddr + 4 * 1)) (s.lmem.read (s.srcAddr + 4 * 1 + 1)).toNat) := by
  simp only [TableHolds, DescriptorHolds]
  decide +kernel

theorem readBytes_replicate (m : Memory) (a n : Nat) (b : Byte) :
    (m.writeBytes a (List.replicate n b)).readBytes a n = List.replicate n b := by
  have h := Memory.readBytes_writeBytes_same m a (List.replicate n b)
  rwa [List.length_replicate] at h

theorem memBig_value : memBig.readBytes 0x100 240 = List.replicate 240 0#8 := readBytes_replicate _ _ _ _

theorem memBig_descriptors : ∀ i < 17, memBig.read (0x40 + 4 * i) = 0x1A#8
    ∧ (memBig.read (0x40 + 4 * i + 1)).toNat = 240 ∧ voffAt memBig (0x40 + 4 * i) = 0x100 := by decide +kernel

theorem memBig_tableHolds : TableHolds (encoding 0x04#8 memBig 0x40 0x2000 17) 0x40 bigAttrs := by
  unfold bigAttrs
  refine tableHolds_replicate 17 0x40 fun i hi => ?_
  obtain ⟨h1, h2, h3⟩ := memBig_descriptors i hi
  refine ⟨h1, h2.trans (List.length_replicate ..).symm, ?_, .inr ?_, ?_⟩
  · rw [List.length_replicate]
    decide
  · rw [show voffAt (encoding 0x04#8 memBig 0x40 0x2000 17).lmem (0x40 + 4 * i) = 0x100 from h3, List.length_replicate]
    decide
  · rw [show voffAt (encoding 0x04#8 memBig 0x40 0x2000 17).lmem (0x40 + 4 * i) = 0x100 from h3, List.length_replicate]
    exact memBig_value

/-- The last clause: a packet that is too large. -/
theorem witness_EncodeErrors_tooLarge : ∃ s : State, TableHolds s s.srcAddr bigAttrs ∧ s.InBounds s.srcAddr (4 * s.auxCount)
    ∧ bigAttrs.length = s.auxCount ∧ 4096 < 20 + (attrsBytes bigAttrs).length := by
  refine ⟨encoding 0x04#8 memBig 0x40 0x2000 17, ?_, by decide +kernel, by decide +kernel, by decide +kernel⟩
  rw [show (encoding 0x04#8 memBig 0x40 0x2000 17).srcAddr = 0x40 by decide +kernel]
  exact memBig_tableHolds

/-- A WIRE_LEN that succeeds where the packet fits, one that succeeds where it does not (V-PE6), and one that fails. -/
theorem witness_WireLenPredictsEncode :
    (∃ s t u, exec .wireLen s = .next t ∧ exec .pktEncode s = .next u ∧ t.err = false ∧ s.dstAddr + t.res0.toNat ≤ s.lmemSize)
    ∧ (∃ s t u, exec .wireLen s = .next t ∧ exec .pktEncode s = .next u ∧ t.err = false
        ∧ s.lmemSize < s.dstAddr + t.res0.toNat)
    ∧ ∃ s t u, exec .wireLen s = .next t ∧ exec .pktEncode s = .next u ∧ t.err = true := by
  have key : ∀ (s : State) (p : State → Bool), holds (exec .wireLen s) p = true →
      holds (exec .pktEncode s) (fun _ => true) = true →
      ∃ t u, exec .wireLen s = .next t ∧ exec .pktEncode s = .next u ∧ p t = true := by
    intro s p h h'
    obtain ⟨t, ht, hp⟩ := next_of_holds h
    obtain ⟨u, hu, -⟩ := next_of_holds h'
    exact ⟨t, u, ht, hu, hp⟩
  obtain ⟨t, u, h1, h2, h3⟩ := key (encoding 0x05#8 memPE2 0x1000 0x2000 1)
    (fun t => !t.err && decide (0x2000 + t.res0.toNat ≤ 0x8000)) (by decide +kernel) (by decide +kernel)
  obtain ⟨t', u', h1', h2', h3'⟩ := key (encoding 0x05#8 [] 0 0x7FF0 0)
    (fun t => !t.err && decide (0x8000 < 0x7FF0 + t.res0.toNat)) (by decide +kernel) (by decide +kernel)
  obtain ⟨t'', u'', h1'', h2'', h3''⟩ := key (encoding 0x05#8 memPE4 0x1000 0x2000 2)
    (fun t => t.err) (by decide +kernel) (by decide +kernel)
  simp only [Bool.and_eq_true, Bool.not_eq_true', decide_eq_true_eq] at h3 h3'
  exact ⟨⟨_, t, u, h1, h2, h3.1, h3.2⟩, ⟨_, t', u', h1', h2', h3'.1, h3'.2⟩, ⟨_, t'', u'', h1'', h2'', h3''⟩⟩

/-- V-RT2. -/
theorem witness_PacketRoundTrip :
    ∃ (s t : State), [(0x01#8, frans1)].length = s.auxCount ∧ TableHolds s s.srcAddr [(0x01#8, frans1)]
      ∧ exec .pktEncode s = .next t ∧ t.err = false ∧ (s.pktHdr.extractLsb' 16 16).toNat = t.res0.toNat
      ∧ s.InBounds (0x1100#16).toNat (4 * s.auxCount)
      ∧ (s.auxCount = 0 ∨ Apart s.dstAddr t.res0.toNat (0x1100#16).toNat (4 * s.auxCount)) := by
  obtain ⟨t, ht, hp⟩ := next_of_holds (o := exec .pktEncode (encoding 0x04#8 memPE2 0x1000 0x2000 1))
    (p := fun t => !t.err && t.res0 == 0x1C#32) (by decide +kernel)
  simp only [Bool.and_eq_true, Bool.not_eq_true', beq_iff_eq] at hp
  refine ⟨_, t, by decide, ?_, ht, hp.1, ?_, by decide, ?_⟩
  · simp only [TableHolds, DescriptorHolds]
    decide +kernel
  · rw [hp.2]
    decide
  · rw [hp.2]
    exact .inr (.inr (by decide))

/-- A packet without attributes, with a table at an address outside LMEM. -/
theorem witness_PacketRoundTrip_empty :
    ∃ (s t : State), ([] : List Attr).length = s.auxCount ∧ TableHolds s s.srcAddr []
      ∧ exec .pktEncode s = .next t ∧ t.err = false ∧ (s.pktHdr.extractLsb' 16 16).toNat = t.res0.toNat
      ∧ s.InBounds (0xFFFF#16).toNat (4 * s.auxCount) ∧ s.auxCount = 0 := by
  obtain ⟨t, ht, hp⟩ := next_of_holds
    (o := exec .pktEncode { encoding 0x04#8 [] 0x1000 0x2000 0 with pktHdr := 0x00142A02#32 })
    (p := fun t => !t.err && t.res0 == 0x14#32) (by decide +kernel)
  simp only [Bool.and_eq_true, Bool.not_eq_true', beq_iff_eq] at hp
  exact ⟨_, t, by decide, trivial, ht, hp.1, by rw [hp.2]; decide, by decide, by decide⟩

/-- V-H1; and V-H6, the longest plaintext. -/
theorem witness_PwdHideResult :
    (let s := keyed 0x06#8 (mem 0x100 fran123) 0x100 8 0x200
     s.srcCount ≤ 240 ∧ s.InBounds s.srcAddr s.srcCount ∧ s.InBounds s.keyAddr s.keyCount ∧ s.raAddr + 16 ≤ s.lmemSize
      ∧ s.dstAddr + cipherLength s.srcCount ≤ s.lmemSize)
    ∧ (let s := keyed 0x06#8 [] 0x100 240 0x7F10
       s.srcCount ≤ 240 ∧ s.InBounds s.srcAddr s.srcCount ∧ s.InBounds s.keyAddr s.keyCount ∧ s.raAddr + 16 ≤ s.lmemSize
        ∧ s.dstAddr + cipherLength s.srcCount ≤ s.lmemSize) := by decide

/-- One clause each: V-H5; the plaintext, the secret, the Request Authenticator (V-H9), the output (V-H10) past the end. -/
theorem witness_PwdHideErrors :
    240 < (keyed 0x06#8 [] 0x100 241 0x200).srcCount
    ∧ (let s := keyed 0x06#8 [] 0x7FFF 2 0x200
       s.srcCount ≤ 240 ∧ ¬ s.InBounds s.srcAddr s.srcCount)
    ∧ (let s := { keyed 0x06#8 [] 0x100 8 0x200 with keyPtr := 0x7FFE#16 }
       s.srcCount ≤ 240 ∧ s.InBounds s.srcAddr s.srcCount ∧ ¬ s.InBounds s.keyAddr s.keyCount)
    ∧ (let s := { keyed 0x06#8 [] 0x100 8 0x200 with raPtr := 0x7FF8#16 }
       s.InBounds s.srcAddr s.srcCount ∧ s.InBounds s.keyAddr s.keyCount ∧ s.lmemSize < s.raAddr + 16)
    ∧ (let s := keyed 0x06#8 [] 0x100 8 0x7FF8
       s.InBounds s.srcAddr s.srcCount ∧ s.InBounds s.keyAddr s.keyCount ∧ s.raAddr + 16 ≤ s.lmemSize
        ∧ s.lmemSize < s.dstAddr + cipherLength s.srcCount) := by decide

/-- V-U1; and the longest ciphertext, the output at the end of LMEM. -/
theorem witness_PwdUnhideResult :
    ∀ s ∈ [keyed 0x07#8 (mem 0x200 cipherH1) 0x200 16 0x300, keyed 0x07#8 [] 0x200 240 0x7F10],
      s.srcCount ≠ 0 ∧ s.srcCount % 16 = 0 ∧ s.srcCount ≤ 240 ∧ s.srcAddr + s.srcCount ≤ s.lmemSize
      ∧ s.InBounds s.keyAddr s.keyCount ∧ s.raAddr + 16 ≤ s.lmemSize ∧ s.dstAddr + s.srcCount ≤ s.lmemSize := by decide

/-- One clause each: V-U7, V-U9, V-U10; the ciphertext, the secret, the Request Authenticator, the output past the end. -/
theorem witness_PwdUnhideErrors :
    (∀ c ∈ [0, 17, 256], (keyed 0x07#8 [] 0x200 c 0x300).srcCount = 0 ∨ (keyed 0x07#8 [] 0x200 c 0x300).srcCount % 16 ≠ 0
      ∨ 240 < (keyed 0x07#8 [] 0x200 c 0x300).srcCount)
    ∧ (let s := keyed 0x07#8 [] 0x7FF1 16 0x300
       s.srcCount ≠ 0 ∧ s.srcCount % 16 = 0 ∧ s.srcCount ≤ 240 ∧ s.lmemSize < s.srcAddr + s.srcCount)
    ∧ (let s := { keyed 0x07#8 [] 0x200 16 0x300 with keyPtr := 0x7FFE#16 }
       s.srcAddr + s.srcCount ≤ s.lmemSize ∧ ¬ s.InBounds s.keyAddr s.keyCount)
    ∧ (let s := { keyed 0x07#8 [] 0x200 16 0x300 with raPtr := 0x7FF1#16 }
       s.srcAddr + s.srcCount ≤ s.lmemSize ∧ s.InBounds s.keyAddr s.keyCount ∧ s.lmemSize < s.raAddr + 16)
    ∧ (let s := keyed 0x07#8 [] 0x200 16 0x7FF1
       s.srcAddr + s.srcCount ≤ s.lmemSize ∧ s.InBounds s.keyAddr s.keyCount ∧ s.raAddr + 16 ≤ s.lmemSize
        ∧ s.lmemSize < s.dstAddr + s.srcCount) := by decide

/-- V-H1 followed by V-U1; the plaintext does not end in a zero byte. -/
theorem witness_CipherInvolution :
    ∃ s t : State, exec .pwdHide s = .next t ∧ t.err = false
      ∧ (s.keyCount = 0 ∨ Apart s.dstAddr (cipherLength s.srcCount) s.keyAddr s.keyCount)
      ∧ Apart s.dstAddr (cipherLength s.srcCount) s.raAddr 16
      ∧ (0x300#16).toNat + cipherLength s.srcCount ≤ s.lmemSize
      ∧ s.lmem.read (s.srcAddr + s.srcCount - 1) ≠ 0#8 := by
  obtain ⟨t, ht, hp⟩ := next_of_holds (o := exec .pwdHide (keyed 0x06#8 (mem 0x100 fran123) 0x100 8 0x200))
    (p := fun t => !t.err) (by decide +kernel)
  exact ⟨_, t, ht, by simpa using hp, .inr (.inl (by decide)), .inl (by decide), by decide, by decide +kernel⟩

/-- The empty plaintext (V-H2), under the empty secret, KEY_PTR inside the output. -/
theorem witness_CipherInvolution_empty :
    ∃ s t : State, exec .pwdHide s = .next t ∧ t.err = false ∧ s.srcCount = 0
      ∧ s.keyCount = 0 ∧ ¬ Apart s.dstAddr (cipherLength s.srcCount) s.keyAddr s.keyCount
      ∧ Apart s.dstAddr (cipherLength s.srcCount) s.raAddr 16
      ∧ (0x300#16).toNat + cipherLength s.srcCount ≤ s.lmemSize := by
  obtain ⟨t, ht, hp⟩ := next_of_holds
    (o := exec .pwdHide { keyed 0x06#8 [] 0x100 0 0x200 with keyPtr := 0x204#16, keyLen := 0#16 })
    (p := fun t => !t.err) (by decide +kernel)
  refine ⟨_, t, ht, by simpa using hp, by decide, by decide, ?_, .inl (by decide), by decide⟩
  unfold Apart
  decide

/-- V-S1; and V-S4, the Request Authenticator staged in the field itself, with an empty secret. -/
theorem witness_RespSignResult :
    ∀ s ∈ [keyed 0x08#8 memS1 0x3000 20 0, { keyed 0x08#8 memS1 0x3000 4096 0 with raPtr := 0x3004#16, keyLen := 0#16 }],
      20 ≤ s.srcCount ∧ s.srcCount ≤ 4096 ∧ s.srcAddr + s.srcCount ≤ s.lmemSize
      ∧ s.InBounds s.keyAddr s.keyCount ∧ s.raAddr + 16 ≤ s.lmemSize := by decide

/-- One clause each: V-S2, V-S6; the response, the secret (V-S7), the Request Authenticator past the end. -/
theorem witness_RespSignErrors :
    (keyed 0x08#8 [] 0x3000 19 0).srcCount < 20 ∧ 4096 < (keyed 0x08#8 [] 0x3000 4097 0).srcCount
    ∧ (let s := keyed 0x08#8 [] 0x7FED 20 0
       20 ≤ s.srcCount ∧ s.srcCount ≤ 4096 ∧ s.lmemSize < s.srcAddr + s.srcCount)
    ∧ (let s := { keyed 0x08#8 [] 0x3000 20 0 with keyPtr := 0x7FFF#16, keyLen := 2#16 }
       s.srcAddr + s.srcCount ≤ s.lmemSize ∧ ¬ s.InBounds s.keyAddr s.keyCount)
    ∧ (let s := { keyed 0x08#8 [] 0x3000 20 0 with raPtr := 0x7FF1#16 }
       s.srcAddr + s.srcCount ≤ s.lmemSize ∧ s.InBounds s.keyAddr s.keyCount ∧ s.lmemSize < s.raAddr + 16) := by decide

/-- V-S1 twice, the second time with another old authenticator. -/
theorem witness_OldAuthenticatorNeverSigned :
    ∃ s s' t t' : State, s'.srcPtr = s.srcPtr ∧ s'.srcLen = s.srcLen ∧ s'.keyPtr = s.keyPtr ∧ s'.keyLen = s.keyLen
      ∧ s'.raPtr = s.raPtr ∧ s'.params = s.params ∧ s'.lmem ≠ s.lmem
      ∧ (∀ x, ¬ (s.srcAddr + 4 ≤ x ∧ x < s.srcAddr + 20) → s'.lmem.read x = s.lmem.read x)
      ∧ Apart (s.srcAddr + 4) 16 s.raAddr 16 ∧ (s.keyCount = 0 ∨ Apart (s.srcAddr + 4) 16 s.keyAddr s.keyCount)
      ∧ exec .respSign s = .next t ∧ exec .respSign s' = .next t' ∧ t.err = false := by
  let s := keyed 0x08#8 memS1 0x3000 20 0
  obtain ⟨t, ht, hp⟩ := next_of_holds (o := exec .respSign s) (p := fun t => !t.err) (by decide +kernel)
  obtain ⟨t', ht', -⟩ := next_of_holds (o := exec .respSign { s with lmem := s.lmem.writeBytes 0x3004 [0xEE#8] })
    (p := fun _ => true) (by decide +kernel)
  refine ⟨s, { s with lmem := s.lmem.writeBytes 0x3004 [0xEE#8] }, t, t', rfl, rfl, rfl, rfl, rfl, rfl, by decide +kernel,
    fun x hx => Memory.read_writeBytes_outside fun h => hx ?_, .inl (by decide), .inr (.inl (by decide)), ht, ht',
    by simpa using hp⟩
  have hs : s.srcAddr = 0x3000 := rfl
  simp only [List.length_singleton] at h
  omega

/-- The invariant's step: the commit of V-AE1 from a state that meets the invariant. -/
theorem witness_StepKeepsInvariant : ∃ s t, s.Inv ∧ step s = .next t ∧ t.lmem ≠ s.lmem := by
  obtain ⟨t, ht, hp⟩ := next_of_holds (o := step (running 0x02#8 (mem 0x200 frans1) 0x200 6 0x300 0x01))
    (p := fun t => t.lmem.length == 14) (by decide +kernel)
  refine ⟨_, t, ⟨?_, ?_, ?_, ?_⟩, ht, fun h => ?_⟩
  · unfold State.MemoryForm
    decide
  · unfold State.BusyReportClear
    decide
  · exact .inl (by decide)
  · unfold State.ResultsBounded
    decide
  · rw [h] at hp
    exact absurd hp (by decide)

/-- The same from a state whose last report is an error, BOUNDS of the value region of descriptor 2: the next command
starts. -/
theorem witness_StepKeepsInvariant_afterError : ∃ s t, s.Inv ∧ s.errcode = 0x02#8 ∧ step s = .next t ∧ t.phase = .busy := by
  obtain ⟨t, ht, hp⟩ := next_of_holds
    (o := step ((State.reset.failed 0x02#8 2 5).before (.access (.write 0x10008 4 3#32))))
    (p := fun t => t.phase == .busy) (by decide +kernel)
  refine ⟨_, t, ⟨?_, ?_, ?_, ?_⟩, rfl, ht, by simpa using hp⟩
  · unfold State.MemoryForm
    decide
  · unfold State.BusyReportClear
    decide
  · exact .inr ⟨.inr (.inl ⟨rfl, .inr rfl⟩), rfl⟩
  · unfold State.ResultsBounded
    decide

end Sys2Proof.Tests
end

section
/-! The MD5 statements of 00_scope.md R15 to R20: the padding, the block function step by step, the chunk loop, and the
two known digests. -/

namespace Sys2Proof.Machine

/-! ### Padding (R16) -/

/-- Byte `j` of the length field, least significant first. -/
theorem le64_getD (v : Nat) {j : Nat} (hj : j < 8) : (le64 v).getD j 0#8 = BitVec.ofNat 8 (v / 2 ^ (8 * j)) := by
  simp [le64, hj]

/-- The number of zeros that `md5Pad` puts in brings the length to 56 modulo 64. -/
theorem md5Pad_zeros_fit (len : Nat) : (len + 1 + (119 - len % 64) % 64) % 64 = 56 := by omega

/-- No smaller number of zeros does. -/
theorem md5Pad_zeros_least {len j : Nat} (hj : j < (119 - len % 64) % 64) : (len + 1 + j) % 64 ≠ 56 := by omega

/-- Settles O45: the zeros and the length field are those of `md5Pad`. -/
theorem md5PaddingAndLength : Obligations.Md5PaddingAndLength := by
  intro msg
  exact ⟨(119 - msg.length % 64) % 64, le64 (8 * msg.length % 2 ^ 64), rfl, md5Pad_zeros_fit _,
    fun _ => md5Pad_zeros_least, le64_length _, fun _ => le64_getD _, md5Pad_chunks msg, md5_length msg⟩

/-! ### The four rounds of the block function (R18) -/

theorem md5_round1 (q : Md5Words) {i : Nat} (h : i < 16) :
    md5Mix q i = (q.b &&& q.c) ||| (~~~q.b &&& q.d) ∧ md5Index i = i := by
  simp [md5Mix, md5Index, h]

theorem md5_round2 (q : Md5Words) {i : Nat} (hlo : 16 ≤ i) (h : i < 32) :
    md5Mix q i = (q.d &&& q.b) ||| (~~~q.d &&& q.c) ∧ md5Index i = (5 * i + 1) % 16 := by
  simp [md5Mix, md5Index, hlo.not_gt, h]

theorem md5_round3 (q : Md5Words) {i : Nat} (hlo : 32 ≤ i) (h : i < 48) :
    md5Mix q i = q.b ^^^ q.c ^^^ q.d ∧ md5Index i = (3 * i + 5) % 16 := by
  simp [md5Mix, md5Index, show ¬ i < 16 by omega, hlo.not_gt, h]

theorem md5_round4 (q : Md5Words) {i : Nat} (hlo : 48 ≤ i) :
    md5Mix q i = q.c ^^^ (q.b ||| ~~~q.d) ∧ md5Index i = (7 * i) % 16 := by
  simp [md5Mix, md5Index, show ¬ i < 16 by omega, show ¬ i < 32 by omega, hlo.not_gt]

/-- The words `(A, B, C, D)` before step `i` of the block function on the message words `w`. -/
def md5StateAt (w : List Word) (q : Md5Words) (i : Nat) : Md5Words := (List.range i).foldl (md5Step w) q

theorem md5StateAt_succ (w : List Word) (q : Md5Words) (i : Nat) :
    md5StateAt w q (i + 1) = md5Step w (md5StateAt w q i) i := by
  simp only [md5StateAt, List.range_succ, List.foldl_concat]

/-- The block function adds the words after the 64 steps to those it was given. -/
theorem md5Block_eq (q : Md5Words) (chunk : List Byte) :
    md5Block q chunk =
      ⟨q.a + (md5StateAt (wordsOfBytes chunk) q 64).a, q.b + (md5StateAt (wordsOfBytes chunk) q 64).b,
        q.c + (md5StateAt (wordsOfBytes chunk) q 64).c, q.d + (md5StateAt (wordsOfBytes chunk) q 64).d⟩ := rfl

/-- Settles O56: the words of step `i` are `md5StateAt`, so each step is `md5Step` and its `F` and `g` are those of the
round it is in. -/
theorem md5BlockFunction : Obligations.Md5BlockFunction := by
  intro q chunk hlen
  let w := wordsOfBytes chunk
  let state := md5StateAt w q
  have hstep : ∀ i, state (i + 1) = md5Step w (state i) i := md5StateAt_succ w q
  refine ⟨fun j => w.getD j 0#32, fun i => (state i).a, fun i => (state i).b, fun i => (state i).c,
    fun i => (state i).d, fun i => md5Mix (state i) i, md5Index,
    fun j hj => wordsOfBytes_getD (n := 16) hlen hj,
    fun i h => md5_round1 _ h, fun i hlo h => md5_round2 _ hlo h, fun i hlo h => md5_round3 _ hlo h,
    fun i hlo _ => md5_round4 _ hlo, rfl, rfl, rfl, rfl, ?_, md5Block_eq q chunk⟩
  intro i _
  simp only [hstep]
  exact ⟨rfl, rfl, rfl, rfl⟩

/-! ### The chunk loop and the digest's bytes (R18, R19) -/

/-- The first `n` 64-byte chunks of a byte string, in order. -/
def md5ChunkList : Nat → List Byte → List (List Byte)
  | 0, _ => []
  | n + 1, bs => bs.take 64 :: md5ChunkList n (bs.drop 64)

/-- `md5Chunks` is the block function folded over the chunks. -/
theorem md5Chunks_eq_foldl (n : Nat) (q : Md5Words) (bs : List Byte) :
    md5Chunks n q bs = (md5ChunkList n bs).foldl md5Block q := by
  induction n generalizing q bs with
  | zero => rfl
  | succ n ih => exact ih (md5Block q (bs.take 64)) (bs.drop 64)

theorem md5ChunkList_flatten {n : Nat} {bs : List Byte} (h : bs.length = 64 * n) :
    (md5ChunkList n bs).flatten = bs := by
  induction n generalizing bs with
  | zero => exact (List.eq_nil_of_length_eq_zero h).symm
  | succ n ih =>
    have hrest : (bs.drop 64).length = 64 * n := by
      simp only [List.length_drop]
      omega
    rw [md5ChunkList, List.flatten_cons, ih hrest, List.take_append_drop]

theorem length_of_mem_md5ChunkList {n : Nat} {bs c : List Byte} (h : bs.length = 64 * n) (hc : c ∈ md5ChunkList n bs) :
    c.length = 64 := by
  induction n generalizing bs with
  | zero => exact absurd hc List.not_mem_nil
  | succ n ih =>
    rcases List.mem_cons.mp hc with rfl | hc
    · simp only [List.length_take]
      omega
    · refine ih (bs := bs.drop 64) ?_ hc
      simp only [List.length_drop]
      omega

/-- Folding over one more element of a list. -/
theorem foldl_take_succ {α β : Type} (f : β → α → β) (b : β) (d : α) {l : List α} {k : Nat} (hk : k < l.length) :
    (l.take (k + 1)).foldl f b = f ((l.take k).foldl f b) (l.getD k d) := by
  rw [← List.take_append_getElem hk, List.foldl_concat, List.getD_eq_getElem l d hk]

/-- The bytes of four words in a row, each least significant first. -/
theorem getD_of_eq_bytesOfWords {bytes : List Byte} {a b c d : Word} {j : Nat}
    (h : bytes = bytesOfWord a ++ (bytesOfWord b ++ (bytesOfWord c ++ bytesOfWord d))) (hj : j < 4) :
    bytes.getD j 0#8 = a.extractLsb' (8 * j) 8 ∧ bytes.getD (4 + j) 0#8 = b.extractLsb' (8 * j) 8
      ∧ bytes.getD (8 + j) 0#8 = c.extractLsb' (8 * j) 8 ∧ bytes.getD (12 + j) 0#8 = d.extractLsb' (8 * j) 8 := by
  subst h
  interval_cases j <;> exact ⟨rfl, rfl, rfl, rfl⟩

/-- Settles O57: the chunks are those of the whole padded message, and the words before chunk `k` are the block function
folded over the chunks before it. -/
theorem md5DigestsEveryChunk : Obligations.Md5DigestsEveryChunk := by
  intro msg
  let chunks := md5ChunkList ((md5Pad msg).length / 64) (md5Pad msg)
  have hlen : (md5Pad msg).length = 64 * ((md5Pad msg).length / 64) := by
    have := md5Pad_chunks msg
    omega
  have hfinal : (chunks.take chunks.length).foldl md5Block md5Init
      = md5Chunks ((md5Pad msg).length / 64) md5Init (md5Pad msg) := by
    rw [List.take_length, md5Chunks_eq_foldl]
  refine ⟨chunks, fun k => (chunks.take k).foldl md5Block md5Init, md5ChunkList_flatten hlen,
    fun c => length_of_mem_md5ChunkList hlen, rfl, fun k hk => foldl_take_succ md5Block md5Init [] hk,
    md5_length msg, fun j hj => ?_⟩
  simp only [hfinal]
  exact getD_of_eq_bytesOfWords rfl hj

/-! ### The known digests (R20) -/

/-- Settles O44: the kernel evaluates the model on both messages, one chunk each. -/
theorem md5KnownDigests : Obligations.Md5KnownDigests := by
  constructor
  · decide +kernel
  · decide +kernel

end Sys2Proof.Machine
end

section
/-! The state statements of 10_state.md, part 1: everything a host access and a commit leave behind, and with it the
invariant of the block. -/

namespace Sys2Proof.Machine

/-! ### What one host access leaves -/

/-- `t` is `s` but for the operand and header registers: what a register write while IDLE sets besides STATUS, CTRL and
CMD (10_state.md R44 to R46). -/
def OperandsSet (s t : State) : Prop :=
  t = { s with
    srcPtr := t.srcPtr, srcLen := t.srcLen, dstPtr := t.dstPtr, keyPtr := t.keyPtr, keyLen := t.keyLen
    raPtr := t.raPtr, aux := t.aux, pktHdr := t.pktHdr, pktAuth := t.pktAuth }

/-- What the host access `a` does to the block, `response` left aside. `hostAccess_effect` ties it to the model. -/
inductive HostEffect (a : HostAccess) (s : State) : State → Prop where
  | unchanged : HostEffect a s s
  | flagged : HostEffect a s s.flagAccessErr
  | softReset (v : Word) : a = .write (s.params.regBase + 0x004) 4 v → v.getLsbD 0 = true → HostEffect a s s.softReset
  | statusCleared (v : Word) : a = .write (s.params.regBase + 0x00C) 4 v → HostEffect a s (s.clearStatus v)
  | started (v : Word) : a = .write (s.params.regBase + 0x008) 4 v → s.phase = .idle →
      HostEffect a s (s.startCommand (opOfWord v))
  | operandsSet (t : State) : s.phase = .idle → OperandsSet s t → HostEffect a s t
  | stored (x : Nat) (bs : List Byte) : s.phase = .idle → x + bs.length ≤ s.lmemSize →
      HostEffect a s { s with lmem := s.lmem.writeBytes x bs }

/-- A write to CTRL is the soft reset or nothing (10_state.md R34). -/
theorem writeCtrl_effect (s : State) (v : Word) :
    HostEffect (.write (s.params.regBase + 0x004) 4 v) s (s.writeCtrl v) := by
  unfold State.writeCtrl
  split
  · next h => exact .softReset v rfl h
  · exact .unchanged

/-- A register write while IDLE (10_state.md R33 to R49). -/
theorem writeRegIdle_effect {s : State} (v : Word) (r : RegName) (hp : s.phase = .idle) :
    HostEffect (.write (s.params.regBase + regOffset r) 4 v) s (s.writeRegIdle v r) := by
  cases r with
  | ctrl => exact writeCtrl_effect s v
  | cmd => exact .started v rfl hp
  | status => exact .statusCleared v rfl
  | ident | errinfo | res0 | res1 | res2 | digest0 | digest1 | digest2 | digest3 => exact .unchanged
  | srcPtr | srcLen | dstPtr | keyPtr | keyLen | raPtr | aux | pktHdr | pktAuth0 | pktAuth1 | pktAuth2 | pktAuth3 =>
    exact .operandsSet _ hp rfl

/-- A register write while BUSY (10_state.md R54). -/
theorem writeRegBusy_effect (s : State) (v : Word) (r : RegName) :
    HostEffect (.write (s.params.regBase + regOffset r) 4 v) s (s.writeRegBusy v r) := by
  cases r with
  | ctrl => exact writeCtrl_effect s v
  | status => exact .statusCleared v rfl
  | _ => exact .flagged

/-- Every host access that reaches the block has one of these effects. -/
theorem hostAccess_effect {a : HostAccess} {s t : State} (h : hostAccess a s = .next t) :
    ∃ resp u, t = { u with response := resp } ∧ HostEffect a s u := by
  obtain ⟨resp, hread | hflag | ⟨r, v, rfl, hp, hw⟩ | ⟨r, v, rfl, -, hw⟩ | ⟨x, width, v, -, hp, hx, hwidth, ha, hw⟩⟩ :=
    hostAccess_cases h
  · exact ⟨resp, s, hread, .unchanged⟩
  · exact ⟨resp, _, hflag, .flagged⟩
  · exact ⟨resp, _, hw, writeRegIdle_effect v r hp⟩
  · exact ⟨resp, _, hw, writeRegBusy_effect s v r⟩
  · have hlen : (lanesOfWord v width).length = width := lanesOfWord_length (by omega)
    have hfit := aligned_le_lmemSize hx hwidth ha
    exact ⟨resp, _, hw, .stored x _ hp (by rw [hlen]; exact hfit)⟩

/-! ### The invariant at each kind of event -/

/-- Settles O54. -/
theorem resetMeetsInvariant : Obligations.ResetMeetsInvariant where
  memoryForm := Memory.wf_nil _
  busyReportClear := nofun
  reportLegal := .inl ⟨rfl, rfl, rfl, rfl⟩
  resultsBounded := ⟨Nat.zero_le _, Nat.zero_le _, Nat.zero_le _⟩

/-- No clause of the invariant speaks of the inbox. -/
theorem State.Inv.with_inbox {s : State} (h : s.Inv) (rest : List Input) : ({ s with inbox := rest } : State).Inv :=
  ⟨h.memoryForm, h.busyReportClear, h.reportLegal, h.resultsBounded⟩

/-- No clause of the invariant speaks of what the last read got back. -/
theorem State.Inv.with_response {s : State} (h : s.Inv) (r : Option Word) : ({ s with response := r } : State).Inv :=
  ⟨h.memoryForm, h.busyReportClear, h.reportLegal, h.resultsBounded⟩

/-- A W1C write clears flags alone, and the error code it leaves standing was legal before (10_state.md R36, R42). -/
theorem State.Inv.clearStatus {s : State} (h : s.Inv) (v : Word) : (s.clearStatus v).Inv where
  memoryForm := h.memoryForm
  busyReportClear hp := by
    obtain ⟨hdone, herr, htrailing, hcode⟩ := h.busyReportClear hp
    exact ⟨by simp [hdone], by simp [herr], by simp [htrailing], hcode⟩
  reportLegal := by
    rcases h.reportLegal with ⟨hcode, herr, hinfo⟩ | ⟨hraised, htrailing⟩
    · exact .inl ⟨hcode, by simp [herr], hinfo⟩
    · exact .inr ⟨hraised, by simp [htrailing]⟩
  resultsBounded := h.resultsBounded

/-- Every effect of a host access keeps the invariant. -/
theorem HostEffect.keeps_inv {a : HostAccess} {s t : State} (he : HostEffect a s t) (h : s.Inv) : t.Inv := by
  cases he with
  | unchanged => exact h
  | flagged => exact ⟨h.memoryForm, h.busyReportClear, h.reportLegal, h.resultsBounded⟩
  | softReset v =>
    exact ⟨h.memoryForm, nofun, .inl ⟨rfl, rfl, rfl, rfl⟩, ⟨Nat.zero_le _, Nat.zero_le _, Nat.zero_le _⟩⟩
  | statusCleared v => exact h.clearStatus v
  | started v =>
    exact ⟨h.memoryForm, fun _ => ⟨rfl, rfl, rfl, rfl, rfl, rfl⟩, .inl ⟨rfl, rfl, rfl, rfl⟩, h.resultsBounded⟩
  | operandsSet t hp hset =>
    rw [hset]
    exact ⟨h.memoryForm, h.busyReportClear, h.reportLegal, h.resultsBounded⟩
  | stored x bs hp hfit =>
    exact ⟨Memory.wf_writeBytes h.memoryForm (.inr hfit), h.busyReportClear, h.reportLegal, h.resultsBounded⟩

/-- A register holds at most the number put there. -/
theorem toNat_ofNat_le {w n k : Nat} (h : n ≤ k) : (BitVec.ofNat w n).toNat ≤ k := by
  rw [BitVec.toNat_ofNat]
  exact (Nat.mod_le _ _).trans h

/-- A success keeps the invariant: it clears the report, its results are in range and its write is inside LMEM. -/
theorem State.Inv.commitOk {i : Instr} {s : State} {o : Outputs} (h : s.Inv) (ho : commandOf i s = .ok o) :
    (s.commitOk o).Inv := by
  obtain ⟨hres0, hres1, hres2, hwrite, -⟩ := commandOf_ok ho
  exact ⟨Memory.wf_apply h.memoryForm hwrite, nofun, .inl ⟨rfl, rfl, rfl, rfl⟩,
    ⟨toNat_ofNat_le hres0, toNat_ofNat_le hres1, toNat_ofNat_le hres2⟩⟩

/-- The SUB values of 60_exceptions.md R222 end at 5, so that SUB keeps them whole (log 15). -/
theorem RaisedError.sub_le {code : Byte} {pos sub : Nat} (h : RaisedError code pos sub) : sub ≤ 5 := by
  unfold RaisedError at h
  omega

/-- An error raised while BUSY keeps the invariant: POS and SUB hold what was raised, TRAILING is clear since the start,
and no output is written (60_exceptions.md R220, R224). -/
theorem State.Inv.commitErr {s : State} {e : CmdError} (h : s.Inv) (hp : s.phase = .busy)
    (hraised : RaisedError e.code.value e.pos e.sub) (hpos : e.pos ≤ 0xFFFF) : (s.commitErr e).Inv := by
  have hsub := hraised.sub_le
  have hposKept : (BitVec.ofNat 16 e.pos).toNat = e.pos := Nat.mod_eq_of_lt (by omega)
  have hsubKept : (BitVec.ofNat 8 e.sub).toNat = e.sub := Nat.mod_eq_of_lt (by omega)
  obtain ⟨-, -, htrailing, -⟩ := h.busyReportClear hp
  refine ⟨h.memoryForm, nofun, .inr ⟨?_, htrailing⟩, h.resultsBounded⟩
  rw [State.commitErr_errPos, State.commitErr_errSub, hposKept, hsubKept]
  exact hraised

/-- The error of a reserved OP is one that a command raises (30_encoding.md R109). -/
theorem raisedError_illegalOp {op : Byte} (h : op = 0x00#8 ∨ 0x09 ≤ op.toNat) :
    RaisedError ErrCode.illegalOp.value op.toNat 0 := by
  have hlt := op.isLt
  refine .inl ⟨rfl, ?_, rfl⟩
  rcases h with rfl | h
  · exact .inl rfl
  · exact .inr ⟨h, by omega⟩

/-- A command run while BUSY keeps the invariant. -/
theorem exec_keeps_inv {i : Instr} {s t : State} (h : s.Inv) (hp : s.phase = .busy) (ht : exec i s = .next t) :
    t.Inv := by
  rcases exec_cases ht with ⟨o, ho, rfl⟩ | ⟨e, he, rfl⟩
  · exact h.commitOk ho
  · obtain ⟨-, hraised, hpos⟩ := commandOf_error he
    exact h.commitErr hp hraised hpos

theorem engineTurn_keeps_inv {s t : State} (h : s.Inv) (ht : engineTurn s = .next t) : t.Inv := by
  rcases engineTurn_cases ht with ⟨-, rfl⟩ | ⟨hp, i, -, hexec⟩ | ⟨hp, hop, rfl⟩
  · exact h
  · exact exec_keeps_inv h hp hexec
  · have hlt := s.op.isLt
    exact h.commitErr hp (raisedError_illegalOp hop) (by simp only [illegalOpError]; omega)

/-- Settles O55: a step is one host access or one engine's turn, and each keeps the invariant. -/
theorem stepKeepsInvariant : Obligations.StepKeepsInvariant := by
  intro s t h hstep
  rcases step_cases hstep with ⟨a, rest, -, ha⟩ | ⟨rest, -, hturn⟩
  · obtain ⟨resp, u, rfl, heffect⟩ := hostAccess_effect ha
    exact (heffect.keeps_inv (h.with_inbox rest)).with_response resp
  · exact engineTurn_keeps_inv (h.with_inbox rest) hturn

end Sys2Proof.Machine
end

section
/-! The state statements of 10_state.md, part 2: the register window (R32 to R49, R54), which events start the engine and
which clear ACCESS_ERR, and what a commit keeps. -/

namespace Sys2Proof.Machine

/-! ### Reads and writes of the register window -/

theorem regOffset_mod (r : RegName) : regOffset r % 4 = 0 := by
  cases r <;> rfl

theorem regOffset_lt_window (r : RegName) : regOffset r < 0x1000 :=
  (regOffset_lt r).trans (by decide)

theorem readRegAt_regOffset (s : State) (r : RegName) : s.readRegAt (regOffset r) = s.readReg r := by
  simp only [State.readRegAt, regAt_regOffset]

theorem readRegAt_reserved (s : State) {off : Nat} (h : 0x060 ≤ off) : s.readRegAt off = 0#32 := by
  simp only [State.readRegAt, regAt_reserved h]

/-- A legal read at any offset of the window, as the next event. -/
theorem step_readRegAt (s : State) {off : Nat} (h : off < 0x1000) (ha : off % 4 = 0) :
    step (s.before (.access (.read (s.params.regBase + off) 4))) =
      .next { s with response := some (s.readRegAt off) } :=
  (step_before_access s _).trans (hostAccess_readReg h ha)

/-- A legal write at any offset of the window, as the next event. -/
theorem step_writeRegAt (s : State) {off : Nat} (v : Word) (h : off < 0x1000) (ha : off % 4 = 0) :
    step (s.before (.access (.write (s.params.regBase + off) 4 v))) =
      .next { s.writeRegAt off v with response := none } :=
  (step_before_access s _).trans (hostAccess_writeReg h ha)

/-- A 4-byte read of a register, as the next event. -/
theorem step_readReg (s : State) (r : RegName) :
    step (s.before (.access (.read (s.params.regBase + regOffset r) 4))) =
      .next { s with response := some (s.readReg r) } := by
  rw [step_readRegAt s (regOffset_lt_window r) (regOffset_mod r), readRegAt_regOffset]

/-- A 4-byte write of a register while IDLE, as the next event. -/
theorem step_writeReg_idle {s : State} (r : RegName) (v : Word) (hp : s.phase = .idle) :
    step (s.before (.access (.write (s.params.regBase + regOffset r) 4 v))) =
      .next { s.writeRegIdle v r with response := none } := by
  rw [step_writeRegAt s v (regOffset_lt_window r) (regOffset_mod r), writeRegAt_idle hp (regAt_regOffset r)]

/-- While BUSY a write at any offset but CTRL and STATUS, reserved ones included, is flagged alone (10_state.md R54). -/
theorem writeRegAt_busy_flags {s : State} {off : Nat} (v : Word) (hp : s.phase = .busy) (hctrl : off ≠ 0x004)
    (hstatus : off ≠ 0x00C) : s.writeRegAt off v = s.flagAccessErr := by
  cases hr : regAt off with
  | none => exact writeRegAt_busy_reserved hp hr
  | some r =>
    rw [writeRegAt_busy hp hr]
    cases regAt_eq_some hr
    cases r with
    | ctrl => exact absurd rfl hctrl
    | status => exact absurd rfl hstatus
    | _ => rfl

/-- A byte in bits 7:0 of a register whose other bits are 0. -/
theorem zero_append_byte (b : Byte) : (0#24 ++ b : Word) = b.setWidth 32 :=
  (BitVec.setWidth_eq_append (by decide)).symm

/-- A half word in bits 15:0 of a register whose other bits are 0. -/
theorem zero_append_half (h : Half) : (0#16 ++ h : Word) = h.setWidth 32 :=
  (BitVec.setWidth_eq_append (by decide)).symm

/-- Settles O5. -/
theorem cmdWriteStartsCommand : Obligations.CmdWriteStartsCommand := by
  intro s v
  refine ⟨fun hp => ⟨none, step_writeReg_idle .cmd v hp⟩, fun hp => ⟨none, ?_⟩, ?_, rfl⟩
  · rw [step_writeRegAt s v (by decide) (by decide), writeRegAt_busy_flags v hp (by decide) (by decide)]
    rfl
  · rw [← zero_append_byte]
    exact step_readReg s .cmd

/-- Settles O9: each clause is the value `readRegAt` gives at a legal offset. -/
theorem registerReadValues : Obligations.RegisterReadValues := by
  intro s off v h
  have hlegal : off < 0x1000 ∧ off % 4 = 0 := by omega
  have hvalue : s.readRegAt off = v := by
    simp only [← zero_append_byte, ← zero_append_half] at h
    rcases h with ⟨rfl, rfl⟩ | ⟨rfl, rfl⟩ | ⟨rfl, rfl⟩ | ⟨rfl, rfl⟩ | ⟨rfl, rfl⟩ | ⟨rfl, rfl⟩ | ⟨rfl, rfl⟩ | ⟨rfl, rfl⟩
      | ⟨rfl, rfl⟩ | ⟨rfl, rfl⟩ | ⟨rfl, rfl⟩ | ⟨rfl, rfl⟩ | ⟨rfl, rfl⟩ | ⟨rfl, rfl⟩ | ⟨rfl, rfl⟩ | ⟨rfl, rfl⟩ | ⟨rfl, rfl⟩
      | ⟨rfl, rfl⟩ | ⟨rfl, rfl⟩ | ⟨rfl, rfl⟩ | ⟨rfl, rfl⟩ | ⟨rfl, rfl⟩ | ⟨hreserved, -, -, rfl⟩
    any_goals rfl
    exact readRegAt_reserved s hreserved
  rw [step_readRegAt s hlegal.1 hlegal.2, hvalue]

/-- While IDLE a write at the result registers, the digest registers or a reserved offset does nothing (10_state.md R49;
log 16). -/
theorem writeRegAt_idle_ignored {s : State} {off : Nat} (v : Word) (hp : s.phase = .idle) (h : 0x044 ≤ off) :
    s.writeRegAt off v = s := by
  cases hr : regAt off with
  | none => exact writeRegAt_idle_reserved hp hr
  | some r =>
    rw [writeRegAt_idle hp hr]
    cases regAt_eq_some hr
    cases r with
    | res0 | res1 | res2 | digest0 | digest1 | digest2 | digest3 => rfl
    | _ => exact absurd h (by decide)

/-- Settles O11: each clause is the state `writeRegAt` gives at a legal offset. -/
theorem idleRegisterWrites : Obligations.IdleRegisterWrites := by
  intro s t off v hp h
  have hlegal : off < 0x1000 ∧ off % 4 = 0 := by omega
  have hreg (r : RegName) : s.writeRegAt (regOffset r) v = s.writeRegIdle v r :=
    writeRegAt_idle hp (regAt_regOffset r)
  have hstate : s.writeRegAt off v = t := by
    rcases h with ⟨rfl, rfl⟩ | ⟨rfl, rfl⟩ | ⟨rfl, rfl⟩ | ⟨rfl, rfl⟩ | ⟨rfl, rfl⟩ | ⟨rfl, rfl⟩ | ⟨rfl, rfl⟩ | ⟨rfl, rfl⟩
      | ⟨rfl, rfl⟩ | ⟨rfl, rfl⟩ | ⟨rfl, rfl⟩ | ⟨rfl, rfl⟩ | ⟨rfl, rfl⟩ | ⟨rfl, rfl⟩ | ⟨hignored, -, -, rfl⟩
    exacts [hreg .srcPtr, hreg .srcLen, hreg .dstPtr, hreg .keyPtr, hreg .keyLen, hreg .raPtr, hreg .aux, hreg .pktHdr,
      hreg .pktAuth0, hreg .pktAuth1, hreg .pktAuth2, hreg .pktAuth3, hreg .ident, hreg .errinfo,
      writeRegAt_idle_ignored v hp hignored]
  exact ⟨none, by rw [step_writeRegAt s v hlegal.1 hlegal.2, hstate]⟩

/-- Settles O12. -/
theorem busyRegisterAccess : Obligations.BusyRegisterAccess := by
  intro s off v hp hoff ha
  refine ⟨fun hctrl hstatus => ⟨none, ?_⟩, step_readRegAt s hoff ha⟩
  rw [step_writeRegAt s v hoff ha, writeRegAt_busy_flags v hp hctrl hstatus]
  rfl

/-- Settles O14. -/
theorem ctrlWriteSoftResets : Obligations.CtrlWriteSoftResets := by
  intro s v
  refine ⟨fun hbit => ⟨none, ?_⟩, fun hbit => ⟨none, ?_⟩, step_readReg s .ctrl⟩
  · rw [step_writeRegAt s v (by decide) (by decide), writeRegAt_ctrl, State.writeCtrl, if_pos hbit]
    rfl
  · rw [step_writeRegAt s v (by decide) (by decide), writeRegAt_ctrl, State.writeCtrl, if_neg (Bool.eq_false_iff.1 hbit)]

/-! ### The fields of STATUS and ERRINFO -/

/-- The one-bit fields of STATUS (10_state.md R36). -/
theorem statusWord_flags (s : State) :
    s.statusWord.getLsbD 0 = s.busy ∧ s.statusWord.getLsbD 1 = s.done ∧ s.statusWord.getLsbD 2 = s.err
      ∧ s.statusWord.getLsbD 3 = s.trailing ∧ s.statusWord.getLsbD 4 = s.accessErr := by
  simp only [State.statusWord, BitVec.getLsbD_append, BitVec.getLsbD_ofBool]
  simp

/-- STATUS above its five flags: reserved bits, ERRCODE, reserved bits (10_state.md R36). -/
theorem statusWord_above_flags (s : State) {start len : Nat} (h : 5 ≤ start) :
    s.statusWord.extractLsb' start len = (0#16 ++ s.errcode ++ 0#3).extractLsb' (start - 5) len := by
  unfold State.statusWord
  iterate 5 rw [BitVec.extractLsb'_append_eq_of_le (by omega)]
  congr 1

/-- The wide fields of STATUS (10_state.md R36): the reserved bits and ERRCODE. -/
theorem statusWord_fields (s : State) :
    s.statusWord.extractLsb' 5 3 = 0#3 ∧ s.statusWord.extractLsb' 8 8 = s.errcode
      ∧ s.statusWord.extractLsb' 16 16 = 0#16 := by
  refine ⟨?_, ?_, ?_⟩ <;> rw [statusWord_above_flags s (by decide)]
  · exact BitVec.extractLsb'_append_eq_right
  · rw [BitVec.extractLsb'_append_eq_of_le (by decide)]
    exact BitVec.extractLsb'_append_eq_right
  · rw [BitVec.extractLsb'_append_eq_of_le (by decide)]
    exact BitVec.extractLsb'_append_eq_left

/-- The fields of ERRINFO (10_state.md R43). -/
theorem errinfoWord_fields (s : State) :
    s.errinfoWord.extractLsb' 0 16 = s.errPos ∧ s.errinfoWord.extractLsb' 16 8 = s.errSub
      ∧ s.errinfoWord.extractLsb' 24 8 = 0#8 := by
  unfold State.errinfoWord
  refine ⟨BitVec.extractLsb'_append_eq_right, ?_, ?_⟩ <;> rw [BitVec.extractLsb'_append_eq_of_le (by decide)]
  · exact BitVec.extractLsb'_append_eq_right
  · exact BitVec.extractLsb'_append_eq_left

theorem busy_eq_true_iff (s : State) : s.busy = true ↔ s.phase = .busy := by
  unfold State.busy
  cases s.phase <;> simp

/-- Settles O10. -/
theorem statusRegister : Obligations.StatusRegister := by
  intro s
  obtain ⟨hbusy, hdone, herr, htrailing, haccess⟩ := statusWord_flags s
  obtain ⟨hreserved, hcode, hhigh⟩ := statusWord_fields s
  refine ⟨⟨s.statusWord, s.errinfoWord, step_readReg s .status, step_readReg s .errinfo,
    by rw [hbusy, busy_eq_true_iff], hdone, herr, htrailing, haccess, hreserved, hcode, hhigh, errinfoWord_fields s⟩,
    fun v => ⟨none, ?_⟩⟩
  rw [step_writeRegAt s v (by decide) (by decide), writeRegAt_status]
  rfl

/-! ### Which events start the engine, and which clear ACCESS_ERR -/

/-- Only the start of a command takes the block from IDLE to BUSY. -/
theorem HostEffect.started_of_busy {a : HostAccess} {s t : State} (he : HostEffect a s t) (hs : s.phase = .idle)
    (ht : t.phase = .busy) :
    ∃ v, a = .write (s.params.regBase + 0x008) 4 v ∧ t = s.startCommand (opOfWord v) := by
  cases he with
  | started v ha => exact ⟨v, ha, rfl⟩
  | softReset v => cases ht
  | operandsSet t _ hset =>
    rw [hset] at ht
    exact nomatch hs.symm.trans ht
  | _ => exact nomatch hs.symm.trans ht

/-- Only the W1C write and the soft reset clear ACCESS_ERR (10_state.md R41). -/
theorem HostEffect.clears_accessErr {a : HostAccess} {s t : State} (he : HostEffect a s t) (hs : s.accessErr = true)
    (ht : t.accessErr = false) :
    ∃ v, (a = .write (s.params.regBase + 0x00C) 4 v ∧ v.getLsbD 4 = true)
      ∨ (a = .write (s.params.regBase + 0x004) 4 v ∧ v.getLsbD 0 = true) := by
  cases he with
  | statusCleared v ha => exact ⟨v, .inl ⟨ha, by simpa [hs] using ht⟩⟩
  | softReset v ha hbit => exact ⟨v, .inr ⟨ha, hbit⟩⟩
  | flagged => cases ht
  | operandsSet t _ hset =>
    rw [hset] at ht
    exact nomatch hs.symm.trans ht
  | _ => exact nomatch hs.symm.trans ht

/-! ### What a commit keeps -/

/-- A commit, of a success or of an error, writes no operand register, and ends the command (60_exceptions.md R223). -/
theorem commit_keeps_operands (s : State) (r : CmdResult) :
    SameOperands s (s.commit r) ∧ (s.commit r).phase = .idle ∧ (s.commit r).done = true := by
  cases r <;> simp [SameOperands, State.commit]

/-- Settles O23. -/
theorem commitKeepsOperands : Obligations.CommitKeepsOperands := by
  intro i s t h
  rw [exec_next h]
  exact commit_keeps_operands s _

/-- Settles O25. -/
theorem successReportsNoError : Obligations.SuccessReportsNoError := by
  intro i s t h herr
  obtain ⟨o, -, rfl⟩ := exec_ok h herr
  exact ⟨rfl, rfl, rfl⟩

/-- Settles O26: a success writes the header, TRAILING and the digest only where its outputs name them, and an error
writes none of them. -/
theorem headerAndDigestWriters : Obligations.HeaderAndDigestWriters := by
  intro i s t h
  rcases exec_cases h with ⟨o, ho, rfl⟩ | ⟨e, -, rfl⟩
  · obtain ⟨-, -, -, -, hheader, hdigest⟩ := commandOf_ok ho
    refine ⟨fun hi => ?_, fun hi => ?_⟩
    · obtain ⟨hnone, htrailing⟩ := hheader hi
      simp [hnone, htrailing]
    · simp [hdigest hi]
  · exact ⟨fun _ => ⟨rfl, rfl, rfl⟩, fun _ => rfl⟩

/-- The engine's turn leaves ACCESS_ERR as it is: no command and no error writes it (10_state.md R41). -/
theorem engineTurn_keeps_accessErr {s t : State} (h : engineTurn s = .next t) : t.accessErr = s.accessErr := by
  rcases engineTurn_cases h with ⟨-, rfl⟩ | ⟨-, i, -, hexec⟩ | ⟨-, -, rfl⟩
  · rfl
  · rw [exec_next hexec]
    cases commandOf i s <;> rfl
  · rfl

/-- After the engine's turn the block is IDLE (60_exceptions.md R223, R232). -/
theorem engineTurn_idle {s t : State} (h : engineTurn s = .next t) : t.phase = .idle := by
  rcases engineTurn_cases h with ⟨hp, rfl⟩ | ⟨-, i, -, hexec⟩ | ⟨-, -, rfl⟩
  · exact hp
  · rw [exec_next hexec]
    exact (commit_keeps_operands s _).2.1
  · rfl

/-- Settles O7: the engine's turn ends IDLE, and the one effect of a host access that ends BUSY is a command's start. -/
theorem onlyCmdWriteStartsEngine : Obligations.OnlyCmdWriteStartsEngine := by
  intro s t hstep hs ht
  rcases step_cases hstep with ⟨a, rest, hinbox, ha⟩ | ⟨rest, -, hturn⟩
  · obtain ⟨resp, u, rfl, heffect⟩ := hostAccess_effect ha
    obtain ⟨v, rfl, rfl⟩ := heffect.started_of_busy hs ht
    exact ⟨v, rest, hinbox, rfl⟩
  · exact nomatch (engineTurn_idle hturn).symm.trans ht

/-- Settles O16: the engine's turn keeps ACCESS_ERR, and two effects of a host access clear it. -/
theorem accessErrIsSticky : Obligations.AccessErrIsSticky := by
  intro s t hstep hs ht
  rcases step_cases hstep with ⟨a, rest, hinbox, ha⟩ | ⟨rest, -, hturn⟩
  · obtain ⟨resp, u, rfl, heffect⟩ := hostAccess_effect ha
    obtain ⟨v, ⟨rfl, hbit⟩ | ⟨rfl, hbit⟩⟩ := heffect.clears_accessErr hs ht
    · exact ⟨v, rest, .inl ⟨hinbox, hbit⟩⟩
    · exact ⟨v, rest, .inr ⟨hinbox, hbit⟩⟩
  · rw [engineTurn_keeps_accessErr hturn] at ht
    exact nomatch hs.symm.trans ht

/-! ### The lane order of the authenticator and digest registers -/

/-- Byte `j` of a word put together from bytes `k` to `k + 3` of a list. -/
theorem extract_wordOfBytes_getD (bs : List Byte) (k : Nat) {j : Nat} (hj : j < 4) :
    (wordOfBytes (bs.getD k 0#8) (bs.getD (k + 1) 0#8) (bs.getD (k + 2) 0#8) (bs.getD (k + 3) 0#8)).extractLsb' (8 * j) 8
      = bs.getD (k + j) 0#8 := by
  obtain ⟨h0, h1, h2, h3⟩ :=
    extract_wordOfBytes (bs.getD k 0#8) (bs.getD (k + 1) 0#8) (bs.getD (k + 2) 0#8) (bs.getD (k + 3) 0#8)
  interval_cases j
  · exact h0
  · exact h1
  · exact h2
  · exact h3

/-- Settles O17: each register is four consecutive bytes of the list. -/
theorem authenticatorLaneOrder : Obligations.AuthenticatorLaneOrder := by
  intro bs hlen
  refine ⟨fun j hj => ⟨?_, ?_, ?_, ?_⟩, toBytes_ofBytes hlen⟩
  · exact (extract_wordOfBytes_getD bs 0 hj).trans (by rw [Nat.zero_add])
  · exact extract_wordOfBytes_getD bs 4 hj
  · exact extract_wordOfBytes_getD bs 8 hj
  · exact extract_wordOfBytes_getD bs 12 hj

end Sys2Proof.Machine
end

section
/-! The memory statements of 20_memory.md, part 1: illegal accesses to either window (R72, R73), host reads and writes of
LMEM (R71, R72, R74, R75), and which events change LMEM (R74, R79). -/

namespace Sys2Proof.Machine

/-! ### Illegal accesses -/

theorem regAccessLegal_eq_false {off width : Nat} (h : width ≠ 4 ∨ off % 4 ≠ 0) : regAccessLegal off width = false :=
  Bool.eq_false_iff.2 fun hl => not_and_or.2 h (regAccessLegal_iff.1 hl)

theorem lmemAccessLegal_eq_false {a width : Nat} (h : ¬ (width = 1 ∨ width = 2 ∨ width = 4) ∨ a % width ≠ 0) :
    lmemAccessLegal a width = false :=
  Bool.eq_false_iff.2 fun hl => not_and_or.2 h (lmemAccessLegal_iff.1 hl)

theorem hostReadReg_illegal (s : State) {off width : Nat} (h : width ≠ 4 ∨ off % 4 ≠ 0) :
    s.hostReadReg off width = { s with accessErr := true, response := some 0#32 } :=
  if_neg (by rw [regAccessLegal_eq_false h]; exact Bool.false_ne_true)

theorem hostWriteReg_illegal (s : State) {off width : Nat} (v : Word) (h : width ≠ 4 ∨ off % 4 ≠ 0) :
    s.hostWriteReg off width v = { s with accessErr := true, response := none } :=
  if_neg (by rw [regAccessLegal_eq_false h]; exact Bool.false_ne_true)

theorem hostAccess_readRegWindow {s : State} {off : Nat} (width : Nat) (h : off < 0x1000) :
    hostAccess (.read (s.params.regBase + off) width) s = .next (s.hostReadReg off width) := by
  simp only [hostAccess, target_reg h]

theorem hostAccess_writeRegWindow {s : State} {off : Nat} (width : Nat) (v : Word) (h : off < 0x1000) :
    hostAccess (.write (s.params.regBase + off) width v) s = .next (s.hostWriteReg off width v) := by
  simp only [hostAccess, target_reg h]

/-- Settles O13. -/
theorem illegalRegisterAccessIgnored : Obligations.IllegalRegisterAccessIgnored := by
  intro s off width v hoff hillegal
  refine ⟨⟨none, ?_⟩, ?_⟩
  · rw [step_before_access, hostAccess_writeRegWindow width v hoff, hostWriteReg_illegal s v hillegal]
  · rw [step_before_access, hostAccess_readRegWindow width hoff, hostReadReg_illegal s hillegal]

/-! ### Host reads and writes of LMEM -/

theorem hostReadLmem_legal (s : State) {a width : Nat} (hwidth : width = 1 ∨ width = 2 ∨ width = 4)
    (ha : a % width = 0) :
    s.hostReadLmem a width = { s with response := some (wordOfLanes (s.lmem.readBytes a width)) } :=
  if_pos (lmemAccessLegal_iff.2 ⟨hwidth, ha⟩)

theorem hostReadLmem_illegal (s : State) {a width : Nat}
    (h : ¬ (width = 1 ∨ width = 2 ∨ width = 4) ∨ a % width ≠ 0) :
    s.hostReadLmem a width = { s with accessErr := true, response := some 0#32 } :=
  if_neg (by rw [lmemAccessLegal_eq_false h]; exact Bool.false_ne_true)

theorem hostWriteLmem_idle {s : State} {a width : Nat} (v : Word) (hp : s.phase = .idle)
    (hwidth : width = 1 ∨ width = 2 ∨ width = 4) (ha : a % width = 0) :
    s.hostWriteLmem a width v = { s with lmem := s.lmem.writeBytes a (lanesOfWord v width), response := none } :=
  if_pos ⟨lmemAccessLegal_iff.2 ⟨hwidth, ha⟩, hp⟩

/-- A write of LMEM while BUSY, of another width or misaligned is flagged alone (20_memory.md R72, R74). -/
theorem hostWriteLmem_ignored {s : State} {a width : Nat} (v : Word)
    (h : s.phase = .busy ∨ ¬ (width = 1 ∨ width = 2 ∨ width = 4) ∨ a % width ≠ 0) :
    s.hostWriteLmem a width v = { s with accessErr := true, response := none } := by
  refine if_neg fun ⟨hlegal, hidle⟩ => ?_
  rcases h with hbusy | hillegal
  · exact nomatch hidle.symm.trans hbusy
  · exact nomatch hlegal.symm.trans (lmemAccessLegal_eq_false hillegal)

/-- Settles O20. -/
theorem ignoredLmemAccess : Obligations.IgnoredLmemAccess := by
  intro s a width v hwf ha
  refine ⟨fun h => ⟨none, ?_⟩, fun h => ?_⟩
  · rw [step_before_access, hostAccess_writeLmem hwf ha, hostWriteLmem_ignored v h]
  · rw [step_before_access, hostAccess_readLmem hwf ha, hostReadLmem_illegal s h]

/-- Settles O18: the write stores the low lanes of the data, and the law of a write gives every byte. -/
theorem hostLmemWriteStores : Obligations.HostLmemWriteStores := by
  intro s a width v hwf hp ha hwidth halign
  have hle : width ≤ 4 := by omega
  have hstep : step (s.before (.access (.write (s.params.lmemBase + a) width v))) =
      .next { s with lmem := s.lmem.writeBytes a (lanesOfWord v width), response := none } := by
    rw [step_before_access, hostAccess_writeLmem hwf ha, hostWriteLmem_idle v hp hwidth halign]
  refine ⟨_, hstep, rfl, fun x => ?_⟩
  rw [Memory.read_writeBytes, lanesOfWord_length hle]
  split
  · rw [lanesOfWord_getD (by omega) hle]
  · rfl

/-- Byte `k` of the word a host read returns (20_memory.md R72). -/
theorem wordOfLanes_byte (bs : List Byte) {k : Nat} (hk : k < 4) :
    BitVec.ofNat 8 ((wordOfLanes bs).toNat / 2 ^ (8 * k)) = bs.getD k 0#8 := by
  have hlane : (wordOfLanes bs).extractLsb' (8 * k) 8 = bs.getD k 0#8 :=
    (extract_wordOfBytes_getD bs 0 hk).trans (by rw [Nat.zero_add])
  rw [← hlane, BitVec.extractLsb', Nat.shiftRight_eq_div_pow]

/-- The lanes above the bytes read are 0 (log 8). -/
theorem wordOfLanes_lt {bs : List Byte} (h : bs.length ≤ 4) : (wordOfLanes bs).toNat < 2 ^ (8 * bs.length) := by
  have habove : ∀ k, bs.length ≤ k → (bs.getD k 0#8).toNat = 0 := fun k hk => by
    rw [List.getD_eq_default _ _ hk]
    rfl
  have h0 := (bs.getD 0 0#8).isLt
  have h1 := (bs.getD 1 0#8).isLt
  have h2 := (bs.getD 2 0#8).isLt
  have h3 := (bs.getD 3 0#8).isLt
  have hz0 := habove 0
  have hz1 := habove 1
  have hz2 := habove 2
  have hz3 := habove 3
  rw [wordOfLanes, wordOfBytes_toNat]
  clear habove
  generalize bs.length = n at h hz0 hz1 hz2 hz3 ⊢
  interval_cases n <;> omega

/-- Settles O19. -/
theorem hostLmemReadReturnsLanes : Obligations.HostLmemReadReturnsLanes := by
  intro s a width hwf ha hwidth halign
  have hle : width ≤ 4 := by omega
  have hlen := Memory.readBytes_length s.lmem a width
  refine ⟨wordOfLanes (s.lmem.readBytes a width), ?_, ?_, fun k hk => ?_⟩
  · rw [step_before_access, hostAccess_readLmem hwf ha, hostReadLmem_legal s hwidth halign]
  · have hlt := wordOfLanes_lt (hlen.trans_le hle)
    rwa [hlen] at hlt
  · rw [wordOfLanes_byte _ (by omega), Memory.readBytes_getD hk]

/-! ### Which events change LMEM -/

/-- The soft reset keeps LMEM (70_reset_and_hazards.md R262). -/
theorem writeCtrl_lmem (s : State) (v : Word) : (s.writeCtrl v).lmem = s.lmem := by
  unfold State.writeCtrl
  split <;> rfl

theorem writeRegIdle_lmem (s : State) (v : Word) (r : RegName) : (s.writeRegIdle v r).lmem = s.lmem := by
  cases r with
  | ctrl => exact writeCtrl_lmem s v
  | _ => rfl

theorem writeRegBusy_lmem (s : State) (v : Word) (r : RegName) : (s.writeRegBusy v r).lmem = s.lmem := by
  cases r with
  | ctrl => exact writeCtrl_lmem s v
  | _ => rfl

/-- A host access keeps LMEM, or is a legal write of it while IDLE (20_memory.md R72, R74). -/
theorem hostAccess_lmem {a : HostAccess} {s t : State} (h : hostAccess a s = .next t) :
    t.lmem = s.lmem
      ∨ ∃ x width v, a = .write (s.params.lmemBase + x) width v ∧ s.phase = .idle ∧ width ≤ 4
          ∧ t.lmem = s.lmem.writeBytes x (lanesOfWord v width) := by
  obtain ⟨resp, rfl | rfl | ⟨r, v, -, -, rfl⟩ | ⟨r, v, -, -, rfl⟩ | ⟨x, width, v, ha, hp, -, hwidth, -, rfl⟩⟩ :=
    hostAccess_cases h
  · exact .inl rfl
  · exact .inl rfl
  · exact .inl (writeRegIdle_lmem s v r)
  · exact .inl (writeRegBusy_lmem s v r)
  · exact .inr ⟨x, width, v, ha, hp, by omega, rfl⟩

/-- Settles O21: an access that changes LMEM is a write whose region holds the byte, and an engine's turn that changes
anything is not taken IDLE. -/
theorem lmemChangesOnlyByWriteOrCommit : Obligations.LmemChangesOnlyByWriteOrCommit := by
  intro s t a hstep hne
  rcases step_cases hstep with ⟨access, rest, hinbox, haccess⟩ | ⟨rest, hinbox, hturn⟩
  · rcases hostAccess_lmem haccess with hkept | ⟨x, width, v, rfl, hp, hle, hstored⟩
    · exact absurd (congrArg (Memory.read · a) hkept) hne
    · have hcovers : x ≤ a ∧ a < x + width := by
        by_contra hout
        rw [← lanesOfWord_length (v := v) hle] at hout
        exact hne (by rw [hstored, Memory.read_writeBytes_outside hout])
      exact .inl ⟨hp, x, width, v, rest, hinbox, hcovers⟩
  · have hbusy : s.phase = .busy := by
      rcases engineTurn_cases hturn with ⟨-, rfl⟩ | ⟨hp, -⟩ | ⟨hp, -⟩
      · exact absurd rfl hne
      · exact hp
      · exact hp
    exact .inr ⟨hbusy, hinbox.elim (fun h => .inr ⟨rest, h⟩) (fun h => .inl h.1)⟩

end Sys2Proof.Machine
end

section
/-! The memory statements of 20_memory.md, part 2: the region a command stores to (R78, R79), and that the host's accesses
while BUSY take no part in what a command commits (R74, R79). -/

namespace Sys2Proof.Machine

/-! ### The region a success stores to -/

/-- The region a write of outputs covers: where it starts, and how many bytes it has. -/
def writtenRegion : Option (Nat × List Byte) → Nat × Nat
  | none => (0, 0)
  | some (a, bs) => (a, bs.length)

/-- Outside the written region LMEM reads as before (60_exceptions.md R223). -/
theorem Memory.read_apply_outside {m : Memory} {w : Option (Nat × List Byte)} {x : Nat}
    (h : ¬ ((writtenRegion w).1 ≤ x ∧ x < (writtenRegion w).1 + (writtenRegion w).2)) :
    (m.apply w).read x = m.read x := by
  cases w with
  | none => rfl
  | some p => exact Memory.read_writeBytes_outside h

/-- The commands that store nothing (40_attribute_codec.md R132, 41_packet_codec.md R163). -/
theorem commandOf_ok_write_eq_none {i : Instr} {s : State} {o : Outputs} (h : commandOf i s = .ok o)
    (hi : i = .attrDecode ∨ i = .wireLen) : o.write = none := by
  rcases hi with rfl | rfl
  · obtain ⟨-, -, -, -, -, -, rfl⟩ := attrDecodeCmd_ok h
    rfl
  · obtain ⟨-, -, rfl⟩ := wireLenCmd_ok h
    rfl

/-- The region a command writes is inside LMEM (20_memory.md R78). -/
theorem commandOf_ok_inBounds {i : Instr} {s : State} {o : Outputs} (h : commandOf i s = .ok o) :
    s.InBounds (writtenRegion o.write).1 (writtenRegion o.write).2 := by
  obtain ⟨-, -, -, hfit, -⟩ := commandOf_ok h
  cases hw : o.write with
  | none => exact .inl rfl
  | some p => exact (hfit p.1 p.2 hw).imp_left fun hnil => by rw [writtenRegion, hnil, List.length_nil]

/-- The region a command writes is the one its rule names. For PKT_DECODE and PKT_ENCODE the rule takes the length from
RES0, which holds the whole count. -/
theorem commandOf_ok_writtenRegion {i : Instr} {s : State} {o : Outputs} (h : commandOf i s = .ok o) :
    writtenRegion o.write = storeRegion s (s.commitOk o) i := by
  have hres0 : (s.commitOk o).res0.toNat = o.res0 := by
    have hle := (commandOf_ok h).1
    exact Nat.mod_eq_of_lt (by omega)
  cases i with
  | attrDecode => rw [commandOf_ok_write_eq_none h (.inl rfl)]; rfl
  | wireLen => rw [commandOf_ok_write_eq_none h (.inr rfl)]; rfl
  | attrEncode =>
    obtain ⟨-, -, -, rfl⟩ := attrEncodeCmd_ok h
    simp [writtenRegion, storeRegion]
  | pktDecode =>
    obtain ⟨-, -, -, -, -, as, -, -, -, rfl⟩ := pktDecodeCmd_ok h
    rw [storeRegion, hres0]
    simp [writtenRegion, decodedOutputs]
  | pktEncode =>
    obtain ⟨body, -, -, rfl⟩ := pktEncodeCmd_ok h
    rw [storeRegion, hres0]
    simp [writtenRegion]
  | pwdHide =>
    obtain ⟨-, -, -, -, -, rfl⟩ := pwdHideCmd_ok h
    simp [writtenRegion, storeRegion]
  | pwdUnhide =>
    obtain ⟨-, hmod, -, -, -, -, -, rfl⟩ := pwdUnhideCmd_ok h
    simp [writtenRegion, storeRegion, unhidden_length hmod]
  | respSign =>
    obtain ⟨-, -, -, -, -, rfl⟩ := respSignCmd_ok h
    simp [writtenRegion, storeRegion]

/-- Settles O27. -/
theorem commandsStoreOnlyToTheirRegion : Obligations.CommandsStoreOnlyToTheirRegion := by
  intro i s t h herr
  obtain ⟨o, ho, rfl⟩ := exec_ok h herr
  rw [← commandOf_ok_writtenRegion ho]
  refine ⟨fun x hout => Memory.read_apply_outside hout, commandOf_ok_inBounds ho, fun hi => ?_⟩
  rw [State.commitOk_lmem, commandOf_ok_write_eq_none ho hi]
  rfl

/-! ### What a command reads and writes, in two states that agree on it -/

theorem SameCore.refl (s : State) : SameCore s s := by simp [SameCore]

theorem SameCore.trans {s t u : State} (h : SameCore s t) (h' : SameCore t u) : SameCore s u := by
  simp_all [SameCore]

theorem SameCore.params_eq {s t : State} (h : SameCore s t) : t.params = s.params := by
  simp_all [SameCore]

theorem SameCore.op_eq {s t : State} (h : SameCore s t) : t.op = s.op := h.1

/-- Where an address lies depends on the parameters of the build alone (20_memory.md R70, R71). -/
theorem SameCore.target_eq {s t : State} (h : SameCore s t) (addr : Nat) : t.target addr = s.target addr := by
  unfold State.target State.lmemSize
  rw [h.params_eq]

theorem SameCore.noSoftReset {s t : State} (h : SameCore s t) {a : HostAccess} (ha : NoSoftReset s a) :
    NoSoftReset t a := by
  unfold NoSoftReset
  rw [h.params_eq]
  exact ha

/-- Committing one answer in two such states leaves two such states, with one report. -/
theorem SameCore.commit {s t : State} (h : SameCore s t) (r : CmdResult) :
    SameCore (s.commit r) (t.commit r) ∧ (t.commit r).err = (s.commit r).err
      ∧ (t.commit r).errcode = (s.commit r).errcode ∧ (t.commit r).errPos = (s.commit r).errPos
      ∧ (t.commit r).errSub = (s.commit r).errSub
      ∧ (t.trailing = s.trailing → (t.commit r).trailing = (s.commit r).trailing) := by
  cases r with
  | ok o => simp_all [SameCore, State.commit]
  | error e => simp_all [SameCore, State.commit]

/-! ### The engine's turn while BUSY -/

/-- What the latched command answers (60_exceptions.md R223); a reserved OP answers ILLEGAL_OP (30_encoding.md R109). -/
def latchedResult (s : State) : CmdResult :=
  match decodeOp s.op with
  | .ok i => commandOf i s
  | .error _ => .error (illegalOpError s.op)

theorem engineTurn_busy {s : State} (hp : s.phase = .busy) : engineTurn s = .next (s.commit (latchedResult s)) := by
  unfold engineTurn latchedResult
  rw [hp]
  cases decodeOp s.op with
  | ok i => exact exec_eq i s
  | error e => rfl

theorem SameCore.latchedResult_eq {s t : State} (h : SameCore s t) : latchedResult t = latchedResult s := by
  unfold latchedResult
  rw [h.op_eq]
  cases decodeOp s.op with
  | ok i => exact commandOf_congr i h
  | error e => rfl

/-! ### Host accesses while BUSY -/

theorem step_of_inbox_access {s : State} {a : HostAccess} {rest : List Input} (h : s.inbox = .access a :: rest) :
    step s = hostAccess a { s with inbox := rest } := by
  unfold step nextEvent
  rw [h]

theorem step_of_inbox_engine {s : State} {rest : List Input} (h : s.inbox = .engine :: rest) :
    step s = engineTurn { s with inbox := rest } := by
  unfold step nextEvent
  rw [h]

/-- What host accesses while BUSY, the soft reset aside, leave as it was: the command's inputs and outputs, the phase, and
a TRAILING flag that is clear (10_state.md R54, 20_memory.md R74). -/
structure CommandUndisturbed (s t : State) : Prop where
  core : SameCore s t
  phase : t.phase = s.phase
  trailing : s.trailing = false → t.trailing = false

theorem CommandUndisturbed.refl (s : State) : CommandUndisturbed s s := ⟨.refl s, rfl, id⟩

theorem CommandUndisturbed.trans {s t u : State} (h : CommandUndisturbed s t) (h' : CommandUndisturbed t u) :
    CommandUndisturbed s u :=
  ⟨h.core.trans h'.core, h'.phase.trans h.phase, fun hs => h'.trailing (h.trailing hs)⟩

/-- Of the effects a host access can have, BUSY leaves the flag and the write-one-to-clear of STATUS, and the soft
reset. -/
theorem HostEffect.undisturbed {a : HostAccess} {s t : State} (he : HostEffect a s t) (hp : s.phase = .busy)
    (hreset : NoSoftReset s a) : CommandUndisturbed s t ∧ t.inbox = s.inbox := by
  cases he with
  | unchanged => exact ⟨.refl s, rfl⟩
  | flagged => exact ⟨⟨.refl s, rfl, id⟩, rfl⟩
  | statusCleared v => exact ⟨⟨.refl s, rfl, fun h => by simp [h]⟩, rfl⟩
  | softReset v ha hbit => exact nomatch (hreset v ha).symm.trans hbit
  | started v ha hidle => exact nomatch hidle.symm.trans hp
  | operandsSet t hidle => exact nomatch hidle.symm.trans hp
  | stored x bs hidle => exact nomatch hidle.symm.trans hp

/-- One such access gives a next state and does not disturb the command. -/
theorem hostAccess_undisturbed {a : HostAccess} {s : State} (hp : s.phase = .busy)
    (hin : s.target (accessAddr a) ≠ .outside) (hreset : NoSoftReset s a) :
    ∃ t, hostAccess a s = .next t ∧ CommandUndisturbed s t ∧ t.inbox = s.inbox := by
  obtain ⟨t, ht⟩ := hostAccess_next hin
  obtain ⟨resp, u, rfl, heffect⟩ := hostAccess_effect ht
  obtain ⟨⟨hcore, hphase, htrailing⟩, hinbox⟩ := heffect.undisturbed hp hreset
  exact ⟨_, ht, ⟨hcore, hphase, htrailing⟩, hinbox⟩

/-- A list of such accesses at the head of the inbox is taken off it, one step each, and does not disturb the command. -/
theorem run_accesses_undisturbed (accesses : List HostAccess) (rest : List Input) :
    ∀ s : State, s.phase = .busy → s.inbox = accesses.map Input.access ++ rest →
      (∀ a ∈ accesses, s.target (accessAddr a) ≠ .outside ∧ NoSoftReset s a) →
      ∃ t, Host.Core.run Sys2Proof.core accesses.length s = .next t ∧ CommandUndisturbed s t ∧ t.inbox = rest := by
  induction accesses with
  | nil => exact fun s _ hinbox _ => ⟨s, rfl, .refl s, hinbox⟩
  | cons a accesses ih =>
    intro s hp hinbox hok
    obtain ⟨⟨hin, hreset⟩, hoks⟩ := List.forall_mem_cons.1 hok
    obtain ⟨t, haccess, hkept, hinboxt⟩ :=
      hostAccess_undisturbed (s := { s with inbox := accesses.map Input.access ++ rest }) hp hin hreset
    have hst : CommandUndisturbed s t := ⟨hkept.core, hkept.phase, hkept.trailing⟩
    have hstep : step s = .next t := (step_of_inbox_access hinbox).trans haccess
    obtain ⟨u, hrun, htu, hinboxu⟩ := ih t (hst.phase.trans hp) hinboxt fun b hb => by
      rw [hst.core.target_eq]
      exact ⟨(hoks b hb).1, hst.core.noSoftReset (hoks b hb).2⟩
    exact ⟨u, (run_succ hstep).trans hrun, hst.trans htu, hinboxu⟩

/-- Settles O8: the accesses leave what the command reads, so the latched command answers the same, and the commit of one
answer leaves the same outputs and report. -/
theorem busyAccessesCannotChangeCommit : Obligations.BusyAccessesCannotChangeCommit := by
  intro s accesses hp hok
  obtain ⟨t, hrun, ⟨hcore, hphase, htrailing⟩, hinbox⟩ :=
    run_accesses_undisturbed accesses (.engine :: s.inbox) (s.beforeTurn accesses) hp rfl hok
  have hst : SameCore s { t with inbox := s.inbox } := hcore
  have hturn : step t = .next (({ t with inbox := s.inbox } : State).commit (latchedResult s)) := by
    rw [step_of_inbox_engine hinbox, ← hst.latchedResult_eq]
    exact engineTurn_busy (hphase.trans hp)
  obtain ⟨hsame, herr, hcode, hpos, hsub, htrail⟩ := hst.commit (latchedResult s)
  obtain ⟨hoperands, hidle, hdone⟩ := commit_keeps_operands { t with inbox := s.inbox } (latchedResult s)
  refine ⟨_, s.commit (latchedResult s), ?_, ?_, hsame, hidle, hdone, herr, hcode, hpos, hsub, ?_, fun hclear => ?_⟩
  · exact (run_add hrun).trans (run_succ hturn)
  · exact (step_before_engine s).trans (engineTurn_busy hp)
  · obtain ⟨-, -, -, -, -, -, -, -, -, -, hkept, -⟩ := hoperands
    exact hkept
  · obtain ⟨-, -, hs, -⟩ := hclear hp
    exact htrail ((htrailing hs).trans hs.symm)

end Sys2Proof.Machine
end

section
/-! The encoding statements of 30_encoding.md: the opcode map and its inverse (R100 to R102), reserved OPs (R109), and what
a RUN line of a host script does (R110, R111). -/

namespace Sys2Proof.Machine

/-! ### Decoding command words and their bytes -/

theorem decodeWord_eq_ok {w : Word} {i : Instr} : decodeWord w = .ok i ↔ opOfWord w = opcode i := decodeOp_eq_ok

theorem decodeWord_eq_reserved {w : Word} :
    decodeWord w = .error (.reservedOp (opOfWord w)) ↔ opOfWord w = 0x00#8 ∨ 0x09 ≤ (opOfWord w).toNat :=
  decodeOp_eq_error.trans (and_iff_left rfl)

/-- The bits above OP take no part in reading it (30_encoding.md R102). -/
theorem opOfWord_append (reserved : BitVec 24) (op : Byte) : opOfWord (reserved ++ op) = op :=
  BitVec.extractLsb'_append_eq_right

theorem opOfWord_encode (i : Instr) : opOfWord (encode i) = opcode i := opOfWord_append 0#24 (opcode i)

/-- The byte decoder accepts exactly a command's code with three more bytes after it (log 13). -/
theorem decodeBytes_eq_ok {bs rest : List Byte} {i : Instr} :
    decodeBytes bs = .ok (i, rest) ↔ ∃ r1 r2 r3, bs = opcode i :: r1 :: r2 :: r3 :: rest := by
  constructor
  · intro h
    unfold decodeBytes at h
    split at h
    · next b0 r1 r2 r3 tail =>
      cases hop : decodeOp b0 with
      | ok j =>
        rw [hop] at h
        cases h
        exact ⟨r1, r2, r3, by rw [decodeOp_eq_ok.1 hop]⟩
      | error e =>
        rw [hop] at h
        cases h
    · cases h
  · rintro ⟨r1, r2, r3, rfl⟩
    rw [decodeBytes, decodeOp_eq_ok.2 rfl]

theorem encodeBytes_eq_opcode_cons (i : Instr) : ∃ r1 r2 r3, encodeBytes i = [opcode i, r1, r2, r3] :=
  ⟨_, _, _, congrArg (· :: _) (opOfWord_encode i)⟩

/-- Settles O3. -/
theorem decodeInvertsEncode : Obligations.DecodeInvertsEncode := by
  refine ⟨fun i rest _ => ?_, fun i reserved => ?_, fun bs rest i h => decodeBytes_eq_ok.1 h⟩
  · obtain ⟨r1, r2, r3, hbytes⟩ := encodeBytes_eq_opcode_cons i
    rw [hbytes]
    exact decodeBytes_eq_ok.2 ⟨r1, r2, r3, rfl⟩
  · exact decodeWord_eq_ok.2 (opOfWord_append reserved (opcode i))

/-- Settles O2: the decoder reads OP alone, and OP stands for a command exactly when it is the command's code. -/
theorem decodeIsTheOpcodeMap : Obligations.DecodeIsTheOpcodeMap := fun _ =>
  ⟨decodeWord_eq_ok, decodeWord_eq_ok, decodeWord_eq_ok, decodeWord_eq_ok, decodeWord_eq_ok, decodeWord_eq_ok,
    decodeWord_eq_ok, decodeWord_eq_ok, decodeWord_eq_reserved⟩

/-- Settles O1: in each word bits 7:0 are the command's code, or a reserved one. -/
theorem decodeReadsSpecWords : Obligations.DecodeReadsSpecWords :=
  ⟨decodeWord_eq_ok.2 rfl, decodeWord_eq_ok.2 rfl, decodeWord_eq_ok.2 rfl, decodeWord_eq_ok.2 rfl,
    decodeWord_eq_ok.2 rfl, decodeWord_eq_ok.2 rfl, decodeWord_eq_ok.2 rfl, decodeWord_eq_ok.2 rfl,
    decodeWord_eq_reserved.2 (.inl rfl), decodeWord_eq_reserved.2 (.inr (by decide)),
    decodeWord_eq_reserved.2 (.inr (by decide))⟩

/-! ### The latched command -/

theorem latchedResult_of_opcode {s : State} {i : Instr} (h : s.op = opcode i) : latchedResult s = commandOf i s := by
  rw [latchedResult, decodeOp_eq_ok.2 h]

theorem latchedResult_of_reserved {s : State} (h : s.op = 0x00#8 ∨ 0x09 ≤ s.op.toNat) :
    latchedResult s = .error (illegalOpError s.op) := by
  rw [latchedResult, decodeOp_eq_error.2 ⟨h, rfl⟩]

/-- Settles O6: the engine's turn commits what the latched OP answers, and a reserved one answers ILLEGAL_OP. -/
theorem reservedOpRaisesIllegalOp : Obligations.ReservedOpRaisesIllegalOp := by
  refine ⟨fun s hp hop => ?_, fun v w h => congrArg decodeOp h⟩
  rw [step_before_engine, engineTurn_busy hp, latchedResult_of_reserved hop]
  exact congrArg _ (commitErr_eq_failed s _)

/-! ### Register writes while IDLE -/

/-- A register write while IDLE keeps the parameters and the inputs on their way, and the phase unless it starts a
command. -/
theorem writeRegIdle_keeps {s : State} (v : Word) (r : RegName) (hp : s.phase = .idle) :
    (s.writeRegIdle v r).params = s.params ∧ (s.writeRegIdle v r).inbox = s.inbox
      ∧ (r ≠ .cmd → (s.writeRegIdle v r).phase = .idle) := by
  cases r with
  | ctrl =>
    simp only [State.writeRegIdle, State.writeCtrl]
    split
    · exact ⟨rfl, rfl, fun _ => rfl⟩
    · exact ⟨rfl, rfl, fun _ => hp⟩
  | cmd => exact ⟨rfl, rfl, fun h => absurd rfl h⟩
  | _ => exact ⟨rfl, rfl, fun _ => hp⟩

/-- The registers of a list written while IDLE, in order. -/
def State.writeRegs (s : State) (regs : List (RegName × Word)) : State :=
  regs.foldl (fun x rv => x.writeRegIdle rv.2 rv.1) s

theorem writeRegs_keeps (regs : List (RegName × Word)) :
    ∀ s : State, s.phase = .idle → (∀ rv ∈ regs, rv.1 ≠ .cmd) →
      (s.writeRegs regs).params = s.params ∧ (s.writeRegs regs).inbox = s.inbox ∧ (s.writeRegs regs).phase = .idle := by
  induction regs with
  | nil => exact fun s hp _ => ⟨rfl, rfl, hp⟩
  | cons rv regs ih =>
    intro s hp hcmd
    obtain ⟨hhead, htail⟩ := List.forall_mem_cons.1 hcmd
    obtain ⟨hparams, hinbox, hphase⟩ := writeRegIdle_keeps rv.2 rv.1 hp
    obtain ⟨hparams', hinbox', hphase'⟩ := ih (s.writeRegIdle rv.2 rv.1) (hphase hhead) htail
    exact ⟨hparams'.trans hparams, hinbox'.trans hinbox, hphase'⟩

/-! ### Inputs taken one after the other -/

/-- `s` with `inputs` as its next events and `resp` as what the last read got back: the two fields no command and no
register reads (logs 1, 3). -/
def State.awaiting (s : State) (inputs : List Input) (resp : Option Word) : State :=
  { s with inbox := inputs, response := resp }

theorem writeRegIdle_awaiting (s : State) (v : Word) (r : RegName) (inputs : List Input) (resp : Option Word) :
    (s.awaiting inputs resp).writeRegIdle v r = (s.writeRegIdle v r).awaiting inputs resp := by
  cases r with
  | ctrl =>
    simp only [State.writeRegIdle, State.writeCtrl]
    split <;> rfl
  | _ => rfl

theorem commit_awaiting (s : State) (r : CmdResult) (inputs : List Input) (resp : Option Word) :
    (s.awaiting inputs resp).commit r = (s.commit r).awaiting inputs resp := by
  cases r <;> rfl

theorem latchedResult_awaiting (s : State) (inputs : List Input) (resp : Option Word) :
    latchedResult (s.awaiting inputs resp) = latchedResult s :=
  SameCore.latchedResult_eq (s := s) (t := s.awaiting inputs resp) (.refl s)

/-- From `s` the block takes the whole of `inputs`, one a step, and is left as `t`, whatever comes after them; what the
last read got back is left open. -/
def TakesInputs (s : State) (inputs : List Input) (t : State) : Prop :=
  ∀ rest resp, ∃ resp', Host.Core.run Sys2Proof.core inputs.length (s.awaiting (inputs ++ rest) resp) =
    .next (t.awaiting rest resp')

theorem TakesInputs.nil (s : State) : TakesInputs s [] s := fun _ resp => ⟨resp, rfl⟩

theorem TakesInputs.append {s t u : State} {xs ys : List Input} (hxs : TakesInputs s xs t) (hys : TakesInputs t ys u) :
    TakesInputs s (xs ++ ys) u := by
  intro rest resp
  obtain ⟨resp₁, hrun₁⟩ := hxs (ys ++ rest) resp
  obtain ⟨resp₂, hrun₂⟩ := hys rest resp₁
  refine ⟨resp₂, ?_⟩
  rw [List.length_append, List.append_assoc]
  exact (run_add hrun₁).trans hrun₂

/-- One step for one input. -/
theorem TakesInputs.of_step {s t : State} {x : Input}
    (h : ∀ rest resp, ∃ resp', step ((s.awaiting rest resp).before x) = .next (t.awaiting rest resp')) :
    TakesInputs s [x] t := by
  intro rest resp
  obtain ⟨resp', hstep⟩ := h rest resp
  exact ⟨resp', run_succ hstep⟩

theorem takesInputs_writeReg {s : State} {p : Params} (r : RegName) (v : Word) (hparams : s.params = p)
    (hp : s.phase = .idle) : TakesInputs s [writeRegInput p r v] (s.writeRegIdle v r) := by
  subst hparams
  refine .of_step fun rest resp => ⟨none, ?_⟩
  refine (step_writeReg_idle (s := s.awaiting rest resp) r v hp).trans ?_
  rw [writeRegIdle_awaiting]
  rfl

theorem takesInputs_writeRegs {p : Params} (regs : List (RegName × Word)) :
    ∀ s : State, s.params = p → s.phase = .idle → (∀ rv ∈ regs, rv.1 ≠ .cmd) →
      TakesInputs s (regs.map fun rv => writeRegInput p rv.1 rv.2) (s.writeRegs regs) := by
  induction regs with
  | nil => exact fun s _ _ _ => .nil s
  | cons rv regs ih =>
    intro s hparams hp hcmd
    obtain ⟨hhead, htail⟩ := List.forall_mem_cons.1 hcmd
    obtain ⟨hparams', -, hphase'⟩ := writeRegIdle_keeps rv.2 rv.1 hp
    exact (takesInputs_writeReg rv.1 rv.2 hparams hp).append
      (ih (s.writeRegIdle rv.2 rv.1) (hparams'.trans hparams) (hphase' hhead) htail)

/-- A read of STATUS, as the next event, answers its word and changes nothing else (20_memory.md R80). -/
theorem step_readStatus {s : State} {p : Params} (hparams : s.params = p) (rest : List Input) (resp : Option Word) :
    step ((s.awaiting rest resp).before (readRegInput p .status)) = .next (s.awaiting rest (some s.statusWord)) := by
  subst hparams
  exact step_readReg (s.awaiting rest resp) .status

theorem takesInputs_polls {s : State} {p : Params} (polls : Nat) (hparams : s.params = p) :
    TakesInputs s (List.replicate polls (readRegInput p .status)) s := by
  induction polls with
  | zero => exact .nil s
  | succ polls ih =>
    exact TakesInputs.append (.of_step fun rest resp => ⟨_, step_readStatus hparams rest resp⟩) ih

theorem takesInputs_engine {s : State} (hp : s.phase = .busy) :
    TakesInputs s [.engine] (s.commit (latchedResult s)) := by
  refine .of_step fun rest resp => ⟨resp, ?_⟩
  rw [step_before_engine, engineTurn_busy (s := s.awaiting rest resp) hp, latchedResult_awaiting, commit_awaiting]

/-! ### The RUN line -/

/-- The state a RUN line starts its command in (30_encoding.md R111). -/
def State.runStarted (s : State) (i : Instr) (regs : List (RegName × Word)) : State :=
  ((s.writeRegs regs).clearStatus clearAllFlags).startCommand (opcode i)

/-- The inputs of a RUN line before its last read of STATUS: the listed registers, the flags, CMD, the polls, the engine's
turn (30_encoding.md R111). -/
def runInputs (p : Params) (i : Instr) (regs : List (RegName × Word)) (polls : Nat) : List Input :=
  (regs.map fun rv => writeRegInput p rv.1 rv.2)
    ++ ([writeRegInput p .status clearAllFlags]
      ++ ([goInput p i] ++ (List.replicate polls (readRegInput p .status) ++ [.engine])))

theorem scriptInputs_run (p : Params) (i : Instr) (regs : List (RegName × Word)) (polls : Nat) :
    scriptInputs p (.run i regs polls) = runInputs p i regs polls ++ [readRegInput p .status] := by
  simp [scriptInputs, runInputs, waitInputs]

/-- The state the command of a RUN line leaves, its last read of STATUS apart. -/
def State.runCommitted (s : State) (i : Instr) (regs : List (RegName × Word)) : State :=
  (s.runStarted i regs).commit (commandOf i (s.runStarted i regs))

theorem runCommitted_keeps {s : State} (i : Instr) {regs : List (RegName × Word)} (hp : s.phase = .idle)
    (hcmd : ∀ rv ∈ regs, rv.1 ≠ .cmd) :
    (s.runCommitted i regs).params = s.params ∧ (s.runCommitted i regs).inbox = s.inbox
      ∧ (s.runCommitted i regs).phase = .idle := by
  obtain ⟨hparams, hinbox, -⟩ := writeRegs_keeps regs s hp hcmd
  obtain ⟨⟨-, -, -, -, -, -, -, -, -, hparams', hinbox', -⟩, hidle, -⟩ :=
    commit_keeps_operands (s.runStarted i regs) (commandOf i (s.runStarted i regs))
  exact ⟨hparams'.trans hparams, hinbox'.trans hinbox, hidle⟩

theorem takesInputs_run {s : State} (i : Instr) {regs : List (RegName × Word)} (polls : Nat) (hp : s.phase = .idle)
    (hcmd : ∀ rv ∈ regs, rv.1 ≠ .cmd) :
    TakesInputs s (runInputs s.params i regs polls) (s.runCommitted i regs) := by
  obtain ⟨hparams, -, hidle⟩ := writeRegs_keeps regs s hp hcmd
  have hflags : TakesInputs (s.writeRegs regs) [writeRegInput s.params .status clearAllFlags]
      ((s.writeRegs regs).clearStatus clearAllFlags) := takesInputs_writeReg .status _ hparams hidle
  have hgo : TakesInputs ((s.writeRegs regs).clearStatus clearAllFlags) [goInput s.params i] (s.runStarted i regs) := by
    rw [State.runStarted, ← opOfWord_encode]
    exact takesInputs_writeReg .cmd (encode i) hparams hidle
  have hpolls : TakesInputs (s.runStarted i regs) (List.replicate polls (readRegInput s.params .status))
      (s.runStarted i regs) := takesInputs_polls polls hparams
  have hturn : TakesInputs (s.runStarted i regs) [.engine] (s.runCommitted i regs) := by
    rw [State.runCommitted, ← latchedResult_of_opcode (s := s.runStarted i regs) rfl]
    exact takesInputs_engine rfl
  exact (takesInputs_writeRegs regs s rfl hp hcmd).append (hflags.append (hgo.append (hpolls.append hturn)))

/-- While IDLE, STATUS reads BUSY = 0 (10_state.md R37). -/
theorem statusWord_not_busy {s : State} (hp : s.phase = .idle) : s.statusWord.getLsbD 0 = false := by
  obtain ⟨hbusy, -⟩ := statusWord_flags s
  rw [hbusy, State.busy, hp]

theorem deliver_eq_awaiting {s : State} (line : ScriptLine) (h : s.inbox = []) :
    s.deliver [line] = s.awaiting (scriptInputs s.params line) s.response := by
  simp [State.deliver, State.awaiting, h]

/-- Settles O28: the inputs before the last read leave the command's commit, and that read answers STATUS. -/
theorem runLineRunsCommand : Obligations.RunLineRunsCommand := by
  intro s i regs polls hp hempty hcmd
  obtain ⟨hparams, hinbox, hidle⟩ := runCommitted_keeps i hp hcmd
  obtain ⟨resp, hrun⟩ := takesInputs_run i polls hp hcmd [readRegInput s.params .status] s.response
  have hread := step_readStatus hparams [] resp
  refine ⟨(s.runCommitted i regs).awaiting [] (some (s.runCommitted i regs).statusWord), s.runCommitted i regs, ?_,
    exec_eq i (s.runStarted i regs), ?_, statusWord_not_busy hidle⟩
  · rw [deliver_eq_awaiting _ hempty, scriptInputs_run, List.length_append]
    exact (run_add hrun).trans (run_succ hread)
  · rw [State.awaiting, hinbox.trans hempty]

end Sys2Proof.Machine
end

section
/-! The attribute codec statements of 40_attribute_codec.md: what ATTR_DECODE and ATTR_ENCODE commit (R130 to R133), and
that decoding reads back what encoding stored (R134). -/

namespace Sys2Proof.Machine

/-! ### ATTR_DECODE (R130 to R132) -/

/-- The two header bytes of the attribute at the offset, read from LMEM. -/
theorem attrHeader_getD {s : State} (h : s.auxCount + 2 ≤ s.srcCount) :
    (s.lmem.readBytes s.srcAddr s.srcCount).getD s.auxCount 0#8 = s.lmem.read (s.srcAddr + s.auxCount)
      ∧ (s.lmem.readBytes s.srcAddr s.srcCount).getD (s.auxCount + 1) 0#8
          = s.lmem.read (s.srcAddr + s.auxCount + 1) :=
  ⟨Memory.readBytes_getD (by omega), Memory.readBytes_getD (by omega)⟩

theorem exec_attrDecode_outside {s : State} (hb : ¬ s.InBounds s.srcAddr s.srcCount) :
    exec .attrDecode s = .next (s.failed 0x02#8 0 1) :=
  exec_of_error (i := .attrDecode) (if_pos hb)

theorem exec_attrDecode_of_malformed {s : State} {sub : Nat} (hb : s.InBounds s.srcAddr s.srcCount)
    (hd : decodeAttr (s.lmem.readBytes s.srcAddr s.srcCount) s.auxCount = .malformed sub) :
    exec .attrDecode s = .next (s.failed 0x14#8 s.auxCount sub) := by
  have hcmd : attrDecodeCmd s = .error { code := .malformedAttribute, pos := s.auxCount, sub := sub } := by
    rw [attrDecodeCmd, if_neg (not_not_intro hb), hd]
  exact exec_of_error (i := .attrDecode) hcmd

theorem exec_attrDecode_of_attr {s : State} {type : Byte} {len : Nat} {value : List Byte}
    (hb : s.InBounds s.srcAddr s.srcCount)
    (hd : decodeAttr (s.lmem.readBytes s.srcAddr s.srcCount) s.auxCount = .attr type len value) :
    exec .attrDecode s =
      .next (s.succeeded len (type.toNat + (len - 2) * 256) (s.srcAddr + s.auxCount + 2)) := by
  have hcmd : attrDecodeCmd s =
      .ok { res0 := len, res1 := type.toNat + (len - 2) * 256, res2 := s.srcAddr + s.auxCount + 2 } := by
    rw [attrDecodeCmd, if_neg (not_not_intro hb), hd]
    rfl
  rw [exec_of_ok (i := .attrDecode) hcmd, commitOk_eq_succeeded rfl rfl rfl]
  rfl

/-- Settles O29: the attribute at the offset decodes, its header bytes read from LMEM. -/
theorem attrDecodeResult : Obligations.AttrDecodeResult := by
  intro s len hb hheader hlen hmin hend
  obtain ⟨htype, hlength⟩ := attrHeader_getD hheader
  rw [← htype]
  refine exec_attrDecode_of_attr (.inr hb) (decodeAttr_eq_attr.2 ⟨?_, ?_, hmin, ?_, rfl, rfl⟩)
  · rwa [Memory.readBytes_length]
  · rw [hlength, hlen]
  · rwa [Memory.readBytes_length]

/-- Settles O30: outside LMEM first, then the three sub-reasons of `decodeAttr`. -/
theorem attrDecodeErrors : Obligations.AttrDecodeErrors := by
  intro s len hlen
  refine ⟨fun ⟨hne, hout⟩ => exec_attrDecode_outside (by omega), fun hb => ⟨fun hpast => ?_, fun hheader hshort => ?_,
    fun hheader hmin hpast => ?_⟩⟩
  all_goals refine exec_attrDecode_of_malformed hb (decodeAttr_eq_malformed.2 ?_)
  all_goals rw [Memory.readBytes_length]
  · exact .inl ⟨hpast, rfl⟩
  · rw [(attrHeader_getD hheader).2, hlen]
    exact .inr (.inl ⟨hheader, hshort, rfl⟩)
  · rw [(attrHeader_getD hheader).2, hlen]
    exact .inr (.inr ⟨hheader, hmin, hpast, rfl⟩)

/-! ### ATTR_ENCODE (R133) -/

theorem attrEncodeCmd_of_fits {s : State} (hn : s.srcCount ≤ 253) (hsrc : s.InBounds s.srcAddr s.srcCount)
    (hdst : s.dstAddr + (2 + s.srcCount) ≤ s.lmemSize) :
    attrEncodeCmd s = .ok { write := some (s.dstAddr, encodeAttr s.auxType (s.lmem.readBytes s.srcAddr s.srcCount))
                            res0 := 2 + s.srcCount } := by
  rw [attrEncodeCmd, if_neg (Nat.not_lt.2 hn), if_neg (not_not_intro hsrc), if_neg (not_not_intro (.inr hdst))]

/-- Settles O31: the success of ATTR_ENCODE stores the wire form of the attribute. -/
theorem attrEncodeResult : Obligations.AttrEncodeResult := by
  intro s hn hsrc hdst
  refine ⟨_, exec_of_ok (i := .attrEncode) (attrEncodeCmd_of_fits hn hsrc hdst), commitOk_eq_succeeded rfl rfl rfl, ?_⟩
  have hwire : encodeAttr s.auxType (s.lmem.readBytes s.srcAddr s.srcCount)
      = s.aux.extractLsb' 0 8 :: BitVec.ofNat 8 (2 + s.srcCount) :: s.lmem.readBytes s.srcAddr s.srcCount := by
    rw [encodeAttr, Memory.readBytes_length, State.auxType]
  rw [← hwire]
  exact stored_writeBytes s.lmem s.dstAddr _

/-- Settles O32: the checks of `attrEncodeCmd` in their order. -/
theorem attrEncodeErrors : Obligations.AttrEncodeErrors := by
  intro s
  refine ⟨fun hbig => ?_, fun hn hsrc => ?_, fun hn hsrc hdst => ?_⟩
  · exact exec_of_error (i := .attrEncode) (if_pos hbig)
  · exact exec_of_error (i := .attrEncode) ((if_neg (Nat.not_lt.2 hn)).trans (if_pos hsrc))
  · have hout : ¬ s.InBounds s.dstAddr (2 + s.srcCount) := by omega
    exact exec_of_error (i := .attrEncode)
      ((if_neg (Nat.not_lt.2 hn)).trans ((if_neg (not_not_intro hsrc)).trans (if_pos hout)))

/-! ### The round trip (R134) -/

/-- ATTR_DECODE of a buffer that is the wire form of one attribute. -/
theorem exec_attrDecode_of_encoded {s : State} {n : Nat} {type : Byte} {value : List Byte} (hvalue : value.length = n)
    (hn : n ≤ 253) (hcount : s.srcCount = 2 + n) (haux : s.auxCount = 0) (hb : s.srcAddr + (2 + n) ≤ s.lmemSize)
    (hread : s.lmem.readBytes s.srcAddr (2 + n) = encodeAttr type value) :
    exec .attrDecode s = .next (s.succeeded (2 + n) (type.toNat + n * 256) (s.srcAddr + 2)) := by
  subst hvalue
  have hd : decodeAttr (s.lmem.readBytes s.srcAddr s.srcCount) s.auxCount = .attr type (2 + value.length) value := by
    rw [hcount, hread, haux]
    simpa using decodeAttr_encodeAttr [] [] value type hn
  have hin : s.InBounds s.srcAddr s.srcCount := .inr (by rwa [hcount])
  rw [exec_attrDecode_of_attr hin hd, haux, Nat.add_sub_cancel_left, Nat.add_zero]

/-- The wire form of an attribute, once stored, is what its region reads as, and its value stands two bytes in. -/
theorem readBytes_writeBytes_encodeAttr (m : Memory) (a : Nat) (type : Byte) (value : List Byte) :
    (m.writeBytes a (encodeAttr type value)).readBytes a (2 + value.length) = encodeAttr type value
      ∧ (m.writeBytes a (encodeAttr type value)).readBytes (a + 2) value.length = value := by
  have hwhole : (m.writeBytes a (encodeAttr type value)).readBytes a (2 + value.length) = encodeAttr type value := by
    rw [← encodeAttr_length type value]
    exact Memory.readBytes_writeBytes_same m a _
  refine ⟨hwhole, ?_⟩
  have hvalue := Memory.readBytes_drop (m.writeBytes a (encodeAttr type value)) a (Nat.le_add_right 2 value.length)
  rw [hwhole, Nat.add_sub_cancel_left] at hvalue
  exact hvalue.symm

/-- Settles O33: the buffer ATTR_DECODE reads is the wire form ATTR_ENCODE stored. -/
theorem attributeRoundTrip : Obligations.AttributeRoundTrip := by
  intro s t hexec herr
  obtain ⟨o, hcmd, rfl⟩ := exec_ok hexec herr
  obtain ⟨hn, -, hdst, rfl⟩ := attrEncodeCmd_ok hcmd
  have hlen : (s.lmem.readBytes s.srcAddr s.srcCount).length = s.srcCount := Memory.readBytes_length ..
  obtain ⟨hwhole, hvalue⟩ :=
    readBytes_writeBytes_encodeAttr s.lmem s.dstAddr s.auxType (s.lmem.readBytes s.srcAddr s.srcCount)
  rw [hlen] at hwhole hvalue
  have hcount : (BitVec.ofNat 16 (2 + s.srcCount)).toNat = 2 + s.srcCount := by
    rw [BitVec.toNat_ofNat]
    omega
  exact ⟨exec_attrDecode_of_encoded hlen hn hcount rfl hdst hwhole, hvalue⟩

end Sys2Proof.Machine
end

section
/-! The packet codec statements of 41_packet_codec.md, part 1: the datagram as PKT_DECODE reads it (R150 to R157), what it
commits for a well-formed packet (R152, R155), its errors in their order (R151, R154, R156, R157), and the length invariant
(R159). -/

namespace Sys2Proof.Machine

/-! ### The wire form of a packet (30_encoding.md R104) -/

/-- A count of a packet's bytes fits every register that holds one. -/
theorem toNat_ofNat_of_le_pktMax {w n : Nat} (hw : 16 ≤ w) (hn : n ≤ 4096) : (BitVec.ofNat w n).toNat = n := by
  rw [BitVec.toNat_ofNat, Nat.mod_eq_of_lt]
  exact lt_of_lt_of_le (by omega) (Nat.pow_le_pow_right two_pos hw)

theorem packetBytes_append (code ident : Byte) (len : Nat) (auth body extra : List Byte) :
    packetBytes code ident len auth body ++ extra = packetBytes code ident len auth (body ++ extra) := by
  simp [packetBytes]

theorem packetBytes_length {auth : List Byte} (ha : auth.length = 16) (code ident : Byte) (len : Nat) (body : List Byte) :
    (packetBytes code ident len auth body).length = 20 + body.length := by
  simp only [packetBytes, List.length_cons, List.length_append, ha]
  omega

theorem declaredLength_packetBytes (code ident : Byte) (len : Nat) (auth body : List Byte) :
    declaredLength (packetBytes code ident len auth body) = BitVec.ofNat 16 len :=
  fromBe16_be16 len

theorem packetBytes_auth {auth : List Byte} (ha : auth.length = 16) (code ident : Byte) (len : Nat) (body : List Byte) :
    ((packetBytes code ident len auth body).drop 4).take 16 = auth :=
  List.take_left' ha

theorem packetBytes_drop_header {auth : List Byte} (ha : auth.length = 16) (code ident : Byte) (len : Nat)
    (body : List Byte) : (packetBytes code ident len auth body).drop 20 = body :=
  List.drop_left' (l₁ := code :: ident :: BitVec.ofNat 8 (len / 256) :: BitVec.ofNat 8 len :: auth) (by simp [ha])

/-- Any 20 bytes or more are a header and what follows it. -/
theorem eq_packetBytes {raw : List Byte} (h : 20 ≤ raw.length) :
    raw = packetBytes (raw.getD 0 0#8) (raw.getD 1 0#8) (declaredLength raw).toNat ((raw.drop 4).take 16)
      (raw.drop 20) := by
  match raw, h with
  | b0 :: b1 :: b2 :: b3 :: tail, _ =>
    have hlen : (declaredLength (b0 :: b1 :: b2 :: b3 :: tail)).toNat = b2.toNat * 256 + b3.toNat :=
      fromBe16_toNat b2 b3
    have hhigh : BitVec.ofNat 8 ((b2.toNat * 256 + b3.toNat) / 256) = b2 := by
      apply BitVec.eq_of_toNat_eq
      rw [BitVec.toNat_ofNat]
      omega
    have hlow : BitVec.ofNat 8 (b2.toNat * 256 + b3.toNat) = b3 := by
      apply BitVec.eq_of_toNat_eq
      rw [BitVec.toNat_ofNat]
      omega
    rw [hlen, packetBytes, hhigh, hlow]
    simp only [List.getD_cons_zero, List.getD_cons_succ, List.drop_succ_cons, List.drop_zero]
    rw [List.take_append_drop]

/-- The declared length of the datagram in LMEM, as its two bytes give it (20_memory.md R76). -/
theorem declaredLength_readBytes {m : Memory} {a n : Nat} (h : 4 ≤ n) :
    (declaredLength (m.readBytes a n)).toNat = (m.read (a + 2)).toNat * 256 + (m.read (a + 3)).toNat := by
  rw [declaredLength, Memory.readBytes_getD (by omega), Memory.readBytes_getD (by omega), fromBe16_toNat]

/-- The attributes that fill a packet give its declared length (R159). -/
theorem declaredLength_of_body {raw body : List Byte} (hmin : 20 ≤ (declaredLength raw).toNat)
    (hmax : (declaredLength raw).toNat ≤ raw.length)
    (hbody : (raw.take (declaredLength raw).toNat).drop 20 = body) : (declaredLength raw).toNat = 20 + body.length := by
  rw [← hbody, List.length_drop, List.length_take]
  omega

/-! ### The content checks (R153, R154, R156, R157) -/

theorem decodeDatagram_short {raw : List Byte} {r : Nat} (h : (declaredLength raw).toNat < 20) :
    decodeDatagram raw r = .error { code := .declaredLengthShort, pos := (declaredLength raw).toNat, sub := 0 } :=
  if_pos h

theorem decodeDatagram_truncated {raw : List Byte} {r : Nat} (hmin : 20 ≤ (declaredLength raw).toNat)
    (h : raw.length < (declaredLength raw).toNat) :
    decodeDatagram raw r = .error { code := .packetTruncated, pos := (declaredLength raw).toNat, sub := 0 } :=
  (if_neg (Nat.not_lt.2 hmin)).trans (if_pos h)

/-- A declared length in range bounds the walk: what follows it in the datagram is not seen (R152, R153). -/
theorem decodeDatagram_packetBytes {code ident : Byte} {auth : List Byte} {declared r : Nat} (body : List Byte)
    (ha : auth.length = 16) (hmin : 20 ≤ declared) (hmax : declared ≤ 20 + body.length) (hfits : declared < 65536) :
    decodeDatagram (packetBytes code ident declared auth body) r =
      walkAttrs (packetBytes code ident declared auth (body.take (declared - 20))) r declared 20 := by
  have hlen : (declaredLength (packetBytes code ident declared auth body)).toNat = declared := by
    rw [declaredLength_packetBytes, BitVec.toNat_ofNat, Nat.mod_eq_of_lt hfits]
  have htake : (packetBytes code ident declared auth body).take declared =
      packetBytes code ident declared auth (body.take (declared - 20)) := by
    obtain ⟨k, rfl⟩ := Nat.exists_eq_add_of_le' hmin
    simp only [packetBytes, List.take_succ_cons, List.take_append, ha, Nat.add_sub_cancel]
    rw [List.take_of_length_le (by omega)]
  rw [decodeDatagram, hlen, if_neg (Nat.not_lt.2 hmin), packetBytes_length ha, if_neg (Nat.not_lt.2 hmax), htake]

theorem decodeDatagram_of_packet {code ident : Byte} {auth : List Byte} {attrs : List Attr} {r : Nat}
    (extra : List Byte) (ha : auth.length = 16) (hattrs : ∀ a ∈ attrs, Attr.ok a)
    (hfits : 20 + (attrsBytes attrs).length < 65536) :
    decodeDatagram (packetBytes code ident (20 + (attrsBytes attrs).length) auth (attrsBytes attrs ++ extra)) r =
      .ok (descriptorsOf r 20 attrs) := by
  have hcount := two_mul_length_le_attrsBytes attrs
  rw [decodeDatagram_packetBytes _ ha (by omega) (by simp) hfits, Nat.add_sub_cancel_left, List.take_left]
  refine walkAttrs_attrsBytes hattrs ?_ (packetBytes_drop_header ha ..) (by omega)
  rw [packetBytes_length ha]
  omega

/-- The error of a walk that meets an attribute that is not whole (R154). -/
def walkError (o sub : Nat) : CmdError :=
  { code := if sub = 2 then .malformedAttribute else .truncatedAttribute, pos := o, sub := sub }

/-- The first attribute that is not whole decides the error of a walk, whole ones before it or none (R154). -/
theorem walkAttrs_append_malformed {p rest : List Byte} {r turns o sub : Nat} {attrs : List Attr}
    (hattrs : ∀ a ∈ attrs, Attr.ok a) (hdrop : p.drop o = attrsBytes attrs ++ rest) (hturns : attrs.length < turns)
    (hin : o + (attrsBytes attrs).length < p.length)
    (hd : decodeAttr p (o + (attrsBytes attrs).length) = .malformed sub) :
    walkAttrs p r turns o = .error (walkError (o + (attrsBytes attrs).length) sub) := by
  obtain ⟨k, rfl⟩ := Nat.exists_eq_add_of_lt hturns
  rw [Nat.add_assoc, walkAttrs_append p r attrs hattrs (k + 1) o rest (by omega) hdrop, walkAttrs_malformed hin hd]
  by_cases hsub : sub = 2
  · simp [walkError, hsub]
  · simp [walkError, hsub]

/-- When the attribute behind the whole ones of a packet is not whole, bounded by the declared length, and for which
sub-reason (R154). -/
def RestMalformed (rest : List Byte) (o declared sub : Nat) : Prop :=
  (o + 1 = declared ∧ sub = 1)
    ∨ (o + 2 ≤ declared ∧ (rest.getD 1 0#8).toNat < 2 ∧ sub = 2)
    ∨ (o + 2 ≤ declared ∧ 2 ≤ (rest.getD 1 0#8).toNat ∧ declared < o + (rest.getD 1 0#8).toNat ∧ sub = 3)

theorem RestMalformed.lt {rest : List Byte} {o declared sub : Nat} (h : RestMalformed rest o declared sub) :
    o < declared := by
  rcases h with ⟨h, -⟩ | ⟨h, -⟩ | ⟨h, -⟩ <;> omega

theorem RestMalformed.decodeAttr_eq {p rest : List Byte} {o sub : Nat} (h : RestMalformed rest o p.length sub)
    (hdrop : p.drop o = rest.take (p.length - o)) : decodeAttr p o = .malformed sub := by
  have hnext : o + 2 ≤ p.length → p.getD (o + 1) 0#8 = rest.getD 1 0#8 := by
    intro hlen
    rw [List.getD_eq_getElem?_getD, ← List.getElem?_drop, hdrop, List.getElem?_take_of_lt (by omega),
      List.getD_eq_getElem?_getD]
  rw [decodeAttr_eq_malformed]
  rcases h with ⟨hend, hsub⟩ | ⟨hlen, hshort, hsub⟩ | ⟨hlen, hmin, hpast, hsub⟩
  · exact .inl ⟨by omega, hsub⟩
  · rw [hnext hlen]
    exact .inr (.inl ⟨hlen, hshort, hsub⟩)
  · rw [hnext hlen]
    exact .inr (.inr ⟨hlen, hmin, hpast, hsub⟩)

theorem decodeDatagram_malformed {code ident : Byte} {auth rest : List Byte} {attrs : List Attr} {declared r sub : Nat}
    (ha : auth.length = 16) (hattrs : ∀ a ∈ attrs, Attr.ok a)
    (hmax : declared ≤ 20 + (attrsBytes attrs ++ rest).length) (hfits : declared < 65536)
    (hrest : RestMalformed rest (20 + (attrsBytes attrs).length) declared sub) :
    decodeDatagram (packetBytes code ident declared auth (attrsBytes attrs ++ rest)) r =
      .error (walkError (20 + (attrsBytes attrs).length) sub) := by
  have hlt := hrest.lt
  have hcount := two_mul_length_le_attrsBytes attrs
  have hbody : (attrsBytes attrs ++ rest).take (declared - 20) =
      attrsBytes attrs ++ rest.take (declared - (20 + (attrsBytes attrs).length)) := by
    rw [List.take_append, List.take_of_length_le (by omega), Nat.sub_sub]
  have hlen : (packetBytes code ident declared auth ((attrsBytes attrs ++ rest).take (declared - 20))).length =
      declared := by
    rw [packetBytes_length ha, List.length_take]
    omega
  have hdrop := packetBytes_drop_header ha code ident declared ((attrsBytes attrs ++ rest).take (declared - 20))
  rw [decodeDatagram_packetBytes _ ha (by omega) hmax hfits]
  refine walkAttrs_append_malformed hattrs (hdrop.trans hbody) (by omega) (by rwa [hlen]) ?_
  refine RestMalformed.decodeAttr_eq (rest := rest) (by rwa [hlen]) ?_
  rw [hlen, ← List.drop_drop, hdrop, hbody, List.drop_left]

/-! ### What PKT_DECODE commits -/

/-- The size and bounds checks of PKT_DECODE pass (R151, 20_memory.md R78). -/
def State.DatagramReadable (s : State) : Prop :=
  20 ≤ s.srcCount ∧ s.srcCount ≤ 4096 ∧ s.srcAddr + s.srcCount ≤ s.lmemSize

theorem exec_pktDecode_size {s : State} (h : s.srcCount < 20 ∨ 4096 < s.srcCount) :
    exec .pktDecode s = .next (s.failed 0x10#8 s.srcCount 0) :=
  exec_of_error (i := .pktDecode) (if_pos h)

theorem exec_pktDecode_outside {s : State} (hmin : 20 ≤ s.srcCount) (hmax : s.srcCount ≤ 4096)
    (h : s.lmemSize < s.srcAddr + s.srcCount) : exec .pktDecode s = .next (s.failed 0x02#8 0 1) := by
  have hout : ¬ s.InBounds s.srcAddr s.srcCount := by omega
  exact exec_of_error (i := .pktDecode)
    ((if_neg (not_or.2 ⟨Nat.not_lt.2 hmin, Nat.not_lt.2 hmax⟩)).trans (if_pos hout))

/-- Past the size and bounds checks PKT_DECODE answers what the datagram's content decides. -/
theorem pktDecodeCmd_of_readable {s : State} (h : s.DatagramReadable) :
    pktDecodeCmd s =
      (decodeDatagram (s.lmem.readBytes s.srcAddr s.srcCount) s.srcAddr).bind fun ds =>
        if ¬ s.InBounds s.dstAddr (4 * ds.length) then .error (boundsError 0 regionDst)
        else .ok (decodedOutputs (s.lmem.readBytes s.srcAddr s.srcCount) s.dstAddr ds) := by
  obtain ⟨hmin, hmax, hb⟩ := h
  rw [pktDecodeCmd, if_neg (not_or.2 ⟨Nat.not_lt.2 hmin, Nat.not_lt.2 hmax⟩), if_neg (not_not_intro (.inr hb))]
  cases decodeDatagram (s.lmem.readBytes s.srcAddr s.srcCount) s.srcAddr <;> rfl

theorem exec_pktDecode_of_error {s : State} {e : CmdError} (h : s.DatagramReadable)
    (hd : decodeDatagram (s.lmem.readBytes s.srcAddr s.srcCount) s.srcAddr = .error e) :
    exec .pktDecode s = .next (s.commitErr e) := by
  refine exec_of_error (i := .pktDecode) ((pktDecodeCmd_of_readable h).trans ?_)
  rw [hd]
  rfl

theorem exec_pktDecode_table_outside {s : State} {ds : List Descriptor} (h : s.DatagramReadable)
    (hd : decodeDatagram (s.lmem.readBytes s.srcAddr s.srcCount) s.srcAddr = .ok ds)
    (hout : ¬ s.InBounds s.dstAddr (4 * ds.length)) : exec .pktDecode s = .next (s.failed 0x02#8 0 2) := by
  refine exec_of_error (i := .pktDecode) (e := boundsError 0 regionDst) ((pktDecodeCmd_of_readable h).trans ?_)
  rw [hd]
  exact if_pos hout

theorem exec_pktDecode_of_ok {s : State} {ds : List Descriptor} (h : s.DatagramReadable)
    (hd : decodeDatagram (s.lmem.readBytes s.srcAddr s.srcCount) s.srcAddr = .ok ds)
    (hin : s.InBounds s.dstAddr (4 * ds.length)) :
    exec .pktDecode s =
      .next (s.commitOk (decodedOutputs (s.lmem.readBytes s.srcAddr s.srcCount) s.dstAddr ds)) := by
  refine exec_of_ok (i := .pktDecode) ((pktDecodeCmd_of_readable h).trans ?_)
  rw [hd]
  exact if_neg (not_not_intro hin)

/-- The outputs of a well-formed packet followed by `extra` bytes, its table at address `t` (R152, R155). -/
def packetOutputs (code ident : Byte) (auth extra : List Byte) (attrs : List Attr) (r t : Nat) : Outputs :=
  { write := some (t, descriptorBytes r 20 attrs)
    res0 := attrs.length
    res1 := extra.length
    header := some (hdrWord code ident (BitVec.ofNat 16 (20 + (attrsBytes attrs).length)), Lanes.ofBytes auth)
    trailing := some (!extra.isEmpty) }

theorem decodedOutputs_packetBytes {code ident : Byte} {auth : List Byte} {attrs : List Attr} {r t : Nat}
    (extra : List Byte) (ha : auth.length = 16) (hfits : 20 + (attrsBytes attrs).length < 65536) :
    decodedOutputs (packetBytes code ident (20 + (attrsBytes attrs).length) auth (attrsBytes attrs ++ extra)) t
        (descriptorsOf r 20 attrs) = packetOutputs code ident auth extra attrs r t := by
  have hextra : decide (0 < extra.length) = !extra.isEmpty := by cases extra <;> simp
  rw [decodedOutputs, tableBytes_descriptorsOf, descriptorsOf_length, declaredLength_packetBytes, packetBytes_auth ha,
    BitVec.toNat_ofNat, Nat.mod_eq_of_lt hfits, packetBytes_length ha, List.length_append, ← Nat.add_assoc,
    Nat.add_sub_cancel_left, packetOutputs, ← hextra]
  simp [packetBytes]

/-- PKT_DECODE of a well-formed packet with any trailing bytes, as the commit of its outputs (R152, R155). -/
theorem exec_pktDecode_of_packet {s : State} {code ident : Byte} {auth extra : List Byte} {attrs : List Attr}
    (ha : auth.length = 16) (hattrs : ∀ a ∈ attrs, Attr.ok a)
    (hraw : s.lmem.readBytes s.srcAddr s.srcCount =
      packetBytes code ident (20 + (attrsBytes attrs).length) auth (attrsBytes attrs) ++ extra)
    (hmax : s.srcCount ≤ 4096) (hb : s.srcAddr + s.srcCount ≤ s.lmemSize)
    (hin : s.InBounds s.dstAddr (4 * attrs.length)) :
    exec .pktDecode s = .next (s.commitOk (packetOutputs code ident auth extra attrs s.srcAddr s.dstAddr)) := by
  rw [packetBytes_append] at hraw
  have hcount : s.srcCount = 20 + (attrsBytes attrs ++ extra).length := by
    rw [← packetBytes_length ha, ← hraw, Memory.readBytes_length]
  rw [List.length_append] at hcount
  have hfits : 20 + (attrsBytes attrs).length < 65536 := by omega
  have hd := decodeDatagram_of_packet (code := code) (ident := ident) (r := s.srcAddr) extra ha hattrs hfits
  rw [← hraw] at hd
  rw [exec_pktDecode_of_ok ⟨by omega, hmax, hb⟩ hd (by rwa [descriptorsOf_length]), hraw,
    decodedOutputs_packetBytes extra ha hfits]

/-- Settles O34: the commit of the outputs of a well-formed packet. -/
theorem pktDecodeResult : Obligations.PktDecodeResult := by
  intro s code ident auth extra attrs ha hattrs hraw hmax hb hin
  exact ⟨_, exec_pktDecode_of_packet ha hattrs hraw hmax hb hin, rfl, stored_writeBytes s.lmem s.dstAddr _⟩

/-- Settles O35: what a successful walk has passed over is a list of whole attributes that fills the declared length. -/
theorem pktDecodeAcceptsOnlyPackets : Obligations.PktDecodeAcceptsOnlyPackets := by
  intro s t hexec herr
  obtain ⟨o, hcmd, rfl⟩ := exec_ok hexec herr
  obtain ⟨hmin, hmax, hb, hdmin, hdmax, attrs, hattrs, hbody, -, rfl⟩ := pktDecodeCmd_ok hcmd
  have hrawlen := Memory.readBytes_length s.lmem s.srcAddr s.srcCount
  generalize s.lmem.readBytes s.srcAddr s.srcCount = raw at *
  have hcount := two_mul_length_le_attrsBytes attrs
  have hdeclared := declaredLength_of_body hdmin (by omega) hbody
  have hsplit : raw.drop 20 = attrsBytes attrs ++ raw.drop (declaredLength raw).toNat := by
    rw [← hbody, ← List.drop_append_of_le_length (by rw [List.length_take]; omega), List.take_append_drop]
  refine ⟨hmin, hmax, hb, raw.getD 0 0#8, raw.getD 1 0#8, (raw.drop 4).take 16, raw.drop (declaredLength raw).toNat,
    attrs, ?_, hattrs, ?_, ?_, ?_⟩
  · rw [List.length_take, List.length_drop]
    omega
  · rw [packetBytes_append, ← hsplit, ← hdeclared]
    exact eq_packetBytes (by omega)
  · simp only [State.commitOk_res0, decodedOutputs, descriptorsOf_length]
    exact toNat_ofNat_of_le_pktMax (by decide) (by omega)
  · simp only [State.commitOk_res1, decodedOutputs, List.length_drop]
    exact toNat_ofNat_of_le_pktMax (by decide) (by omega)

/-- Settles O36: the checks before the walk, in their order. -/
theorem pktDecodeLengthErrors : Obligations.PktDecodeLengthErrors := by
  intro s declared hdeclared
  refine ⟨exec_pktDecode_size, fun hmin hmax => ⟨exec_pktDecode_outside hmin hmax, fun hb => ?_⟩⟩
  have hlen := declaredLength_readBytes (m := s.lmem) (a := s.srcAddr) (n := s.srcCount) (by omega)
  rw [hdeclared] at hlen
  rw [← hlen]
  refine ⟨fun hshort => ?_, fun htruncated => ?_⟩
  · exact exec_pktDecode_of_error ⟨hmin, hmax, hb⟩ (decodeDatagram_short hshort)
  · refine exec_pktDecode_of_error ⟨hmin, hmax, hb⟩ (decodeDatagram_truncated (by omega) ?_)
    rwa [Memory.readBytes_length]

/-- Settles O37: the walk passes over the whole attributes and stops at the first that is not; without one, the table's
region decides. -/
theorem pktDecodeWalkErrors : Obligations.PktDecodeWalkErrors := by
  intro s code ident auth rest attrs declared o ha hattrs ho hraw hle hmax hb
  subst ho
  have hcount : s.srcCount = 20 + (attrsBytes attrs ++ rest).length := by
    rw [← packetBytes_length ha, ← hraw, Memory.readBytes_length]
  have hreadable : s.DatagramReadable := ⟨by omega, hmax, hb⟩
  have hmalformed : ∀ sub, RestMalformed rest (20 + (attrsBytes attrs).length) declared sub →
      exec .pktDecode s = .next (s.commitErr (walkError (20 + (attrsBytes attrs).length) sub)) := by
    intro sub hrest
    refine exec_pktDecode_of_error hreadable ?_
    rw [hraw]
    exact decodeDatagram_malformed ha hattrs (by omega) (by omega) hrest
  refine ⟨fun hlone => ?_, fun hlen hshort => ?_, fun hlen hmin hpast => ?_, fun hwhole hout => ?_⟩
  · exact hmalformed 1 (.inl ⟨hlone, rfl⟩)
  · exact hmalformed 2 (.inr (.inl ⟨hlen, hshort, rfl⟩))
  · exact hmalformed 3 (.inr (.inr ⟨hlen, hmin, hpast, rfl⟩))
  · have hd := decodeDatagram_of_packet (code := code) (ident := ident) (r := s.srcAddr) rest ha hattrs (by omega)
    rw [hwhole, ← hraw] at hd
    exact exec_pktDecode_table_outside hreadable hd (by rwa [descriptorsOf_length])

/-! ### The table in LMEM -/

/-- A table in LMEM is its first descriptor and the table behind it. -/
theorem readBytes_descriptorBytes_cons {m : Memory} {r o t : Nat} {a : Attr} {attrs : List Attr} (hok : Attr.ok a)
    (h : m.readBytes t (4 * (a :: attrs).length) = descriptorBytes r o (a :: attrs)) :
    m.read t = a.1 ∧ (m.read (t + 1)).toNat = a.2.length
      ∧ m.read (t + 2) = BitVec.ofNat 8 ((r + o + 2) / 256) ∧ m.read (t + 3) = BitVec.ofNat 8 (r + o + 2)
      ∧ m.readBytes (t + 4) (4 * attrs.length) = descriptorBytes r (o + 2 + a.2.length) attrs := by
  rw [List.length_cons, Nat.mul_add, Nat.add_comm, Memory.readBytes_append] at h
  have hvlen : (BitVec.ofNat 8 a.2.length).toNat = a.2.length := by
    rw [BitVec.toNat_ofNat, Nat.mod_eq_of_lt (by simp only [Attr.ok] at hok; omega)]
  obtain ⟨htype, hlen, hhigh, hlow, htail⟩ : _ ∧ _ ∧ _ ∧ _ ∧ _ := by
    simpa [Memory.readBytes_succ, descriptorBytes] using h
  exact ⟨htype, by rw [hlen, hvlen], hhigh, hlow, htail⟩

/-- The value lengths of a table in LMEM add up to the bytes of its attributes (R159). -/
theorem sum_vlen_of_descriptorBytes {m : Memory} {r : Nat} {attrs : List Attr} (hattrs : ∀ a ∈ attrs, Attr.ok a) :
    ∀ {o t : Nat}, m.readBytes t (4 * attrs.length) = descriptorBytes r o attrs →
      ((List.range attrs.length).map fun i => (m.read (t + 4 * i + 1)).toNat + 2).sum = (attrsBytes attrs).length := by
  induction attrs with
  | nil => intros; rfl
  | cons a attrs ih =>
    intro o t h
    obtain ⟨hok, hoks⟩ := List.forall_mem_cons.1 hattrs
    obtain ⟨-, hvlen, -, -, htail⟩ := readBytes_descriptorBytes_cons hok h
    have hsum := ih hoks htail
    have hshift : (fun i => (m.read (t + 4 * (i + 1) + 1)).toNat + 2) =
        fun i => (m.read (t + 4 + 4 * i + 1)).toNat + 2 := by
      funext i
      rw [Nat.mul_add, Nat.mul_one, Nat.add_comm (4 * i), Nat.add_assoc t 4]
    rw [List.length_cons, List.range_succ_eq_map, List.map_cons, List.map_map, List.sum_cons, attrsBytes_cons,
      List.length_append, encodeAttr_length, ← hsum, Nat.mul_zero, Nat.add_zero, hvlen, Nat.add_comm 2]
    simp only [Function.comp_def, Nat.succ_eq_add_one, hshift]

/-- Settles O38: the table that is read back is the one written, and the walk filled the declared length. -/
theorem decodedLengthInvariant : Obligations.DecodedLengthInvariant := by
  intro s t hexec herr
  obtain ⟨o, hcmd, rfl⟩ := exec_ok hexec herr
  obtain ⟨hmin, hmax, -, hdmin, hdmax, attrs, hattrs, hbody, -, rfl⟩ := pktDecodeCmd_ok hcmd
  have hcount := two_mul_length_le_attrsBytes attrs
  have hdeclared := declaredLength_of_body hdmin (by rwa [Memory.readBytes_length]) hbody
  have hres0 := toNat_ofNat_of_le_pktMax (w := 32) (n := attrs.length) (by decide) (by omega)
  have htable := Memory.readBytes_writeBytes_same s.lmem s.dstAddr (descriptorBytes s.srcAddr 20 attrs)
  rw [descriptorBytes_length] at htable
  have hsum := sum_vlen_of_descriptorBytes hattrs htable
  simp only [State.commitOk_pktHdr, State.commitOk_res0, State.commitOk_lmem, decodedOutputs, Option.map_some,
    Option.getD_some, hdrWord_length, Memory.apply, tableBytes_descriptorsOf, descriptorsOf_length, hres0, hdeclared,
    hsum]

end Sys2Proof.Machine
end

section
/-! The packet codec statements of 41_packet_codec.md, part 2: what PKT_ENCODE and WIRE_LEN share (R160 to R163), what each
commits, and that PKT_DECODE gives back what PKT_ENCODE stored (R164). -/

namespace Sys2Proof.Machine

/-! ### The body of the packet (R160 to R162) -/

theorem packetBody_table_outside {s : State} (h : ¬ s.InBounds s.srcAddr (4 * s.auxCount)) :
    packetBody s = .error (boundsError 0 regionSrc) := if_pos h

/-- The first descriptor that fails decides the error (R161): behind the attributes a table begins with, the descriptor at
`d` fails with `e`. -/
theorem packetBody_of_descriptor_error {s : State} {attrs : List Attr} {e : CmdError}
    (hin : s.InBounds s.srcAddr (4 * s.auxCount)) (ht : TableHolds s s.srcAddr attrs) (hlt : attrs.length < s.auxCount)
    (h : ∀ n, encodeTable s attrs.length
      (parseTable (s.lmem.readBytes (s.srcAddr + 4 * attrs.length) (4 * (n + 1)))) = .error e) :
    packetBody s = .error e := by
  obtain ⟨n, hn⟩ := Nat.exists_eq_add_of_lt hlt
  have hwalk := encodeTable_tableHolds s attrs 0 s.srcAddr (n + 1) ht
  rw [Nat.zero_add, h n, ← Nat.add_assoc, ← hn] at hwalk
  rw [packetBody, if_neg (not_not_intro hin), hwalk]

theorem encodeTable_tooLarge {s : State} {i d n : Nat} (h : 253 < (s.lmem.read (d + 1)).toNat) :
    encodeTable s i (parseTable (s.lmem.readBytes d (4 * (n + 1)))) =
      .error { code := .attributeTooLarge, pos := i, sub := 0 } := by
  rw [parseTable_readBytes_succ, encodeTable]
  exact if_pos h

theorem encodeTable_value_outside {s : State} {i d n : Nat} (hn : (s.lmem.read (d + 1)).toNat ≤ 253)
    (hout : ¬ s.InBounds (voffAt s.lmem d) (s.lmem.read (d + 1)).toNat) :
    encodeTable s i (parseTable (s.lmem.readBytes d (4 * (n + 1)))) = .error (boundsError i regionValue) := by
  rw [voffAt_eq] at hout
  rw [parseTable_readBytes_succ, encodeTable]
  exact (if_neg (Nat.not_lt.2 hn)).trans (if_pos hout)

theorem packetBody_tooLarge {s : State} {attrs : List Attr} (hin : s.InBounds s.srcAddr (4 * s.auxCount))
    (ht : TableHolds s s.srcAddr attrs) (hn : attrs.length = s.auxCount) (hbig : 4096 < 20 + (attrsBytes attrs).length) :
    packetBody s =
      .error { code := .packetTooLarge, pos := min (20 + (attrsBytes attrs).length) 0xFFFF, sub := 0 } := by
  have hwalk := encodeTable_tableHolds s attrs 0 s.srcAddr 0 ht
  rw [Nat.add_zero, hn] at hwalk
  rw [packetBody, if_neg (not_not_intro hin), hwalk]
  simp only [Nat.mul_zero, Memory.readBytes_zero, parseTable, encodeTable, List.append_nil]
  exact if_pos hbig

/-- A descriptor holds one attribute only. -/
theorem DescriptorHolds.unique {s : State} {d : Nat} {a b : Attr} (ha : DescriptorHolds s d a)
    (hb : DescriptorHolds s d b) : a = b := by
  obtain ⟨hta, hna, -, -, hva⟩ := ha
  obtain ⟨htb, hnb, -, -, hvb⟩ := hb
  rw [← hna] at hva
  rw [← hnb] at hvb
  exact Prod.ext (hta.symm.trans htb) (hva.symm.trans hvb)

/-- A table of a given number of descriptors holds one list of attributes only. -/
theorem TableHolds.unique {s : State} {as bs : List Attr} {t : Nat} (hlen : as.length = bs.length)
    (ha : TableHolds s t as) (hb : TableHolds s t bs) : as = bs := by
  induction as generalizing bs t with
  | nil => exact (List.length_eq_zero_iff.1 hlen.symm).symm
  | cons a as ih =>
    cases bs with
    | nil => cases hlen
    | cons b bs => rw [ha.1.unique hb.1, ih (Nat.succ.inj hlen) ha.2 hb.2]

theorem TableHolds.attrs_ok {s : State} {attrs : List Attr} {t : Nat} (h : TableHolds s t attrs) :
    ∀ a ∈ attrs, Attr.ok a := by
  induction attrs generalizing t with
  | nil => nofun
  | cons a attrs ih =>
    obtain ⟨⟨-, -, hok, -, -⟩, htail⟩ := h
    exact List.forall_mem_cons.2 ⟨hok, ih htail⟩

/-- The body of a packet is the wire form of the attributes its table holds. -/
theorem packetBody_ok_eq {s : State} {body : List Byte} {attrs : List Attr} (h : packetBody s = .ok body)
    (hn : attrs.length = s.auxCount) (ht : TableHolds s s.srcAddr attrs) : body = attrsBytes attrs := by
  obtain ⟨-, -, as, hlen, has, rfl⟩ := packetBody_ok h
  rw [has.unique (hlen.trans hn.symm) ht]

/-! ### What PKT_ENCODE and WIRE_LEN commit -/

theorem wireLenCmd_of_body {s : State} {body : List Byte} (h : packetBody s = .ok body) :
    wireLenCmd s = .ok { res0 := 20 + body.length } := by rw [wireLenCmd, h]

theorem wireLenCmd_of_error {s : State} {e : CmdError} (h : packetBody s = .error e) : wireLenCmd s = .error e := by
  rw [wireLenCmd, h]

theorem pktEncodeCmd_of_body {s : State} {body : List Byte} (h : packetBody s = .ok body)
    (hin : s.dstAddr + (20 + body.length) ≤ s.lmemSize) :
    pktEncodeCmd s = .ok { write := some (s.dstAddr, headerBytes s ++ body), res0 := 20 + body.length } := by
  rw [pktEncodeCmd, h]
  exact if_neg (not_not_intro (.inr hin))

theorem pktEncodeCmd_of_outside {s : State} {body : List Byte} (h : packetBody s = .ok body)
    (hout : s.lmemSize < s.dstAddr + (20 + body.length)) : pktEncodeCmd s = .error (boundsError 0 regionDst) := by
  have hout' : ¬ s.InBounds s.dstAddr (20 + body.length) := by omega
  rw [pktEncodeCmd, h]
  exact if_pos hout'

theorem pktEncodeCmd_of_error {s : State} {e : CmdError} (h : packetBody s = .error e) : pktEncodeCmd s = .error e := by
  rw [pktEncodeCmd, h]

/-- Settles O39: the header and the body of the table's attributes are stored. -/
theorem pktEncodeResult : Obligations.PktEncodeResult := by
  intro s attrs hn hin ht hmax hdst
  have hcmd := pktEncodeCmd_of_body (packetBody_eq hn hin ht hmax) hdst
  rw [headerBytes_append] at hcmd
  exact ⟨_, exec_of_ok (i := .pktEncode) hcmd, commitOk_eq_succeeded rfl rfl rfl,
    stored_writeBytes s.lmem s.dstAddr _⟩

/-- Settles O40: the length of the header and the body, and no write. -/
theorem wireLenResult : Obligations.WireLenResult := by
  intro s attrs hn hin ht hmax
  rw [exec_of_ok (i := .wireLen) (wireLenCmd_of_body (packetBody_eq hn hin ht hmax)), commitOk_eq_succeeded rfl rfl rfl]
  rfl

/-- PKT_ENCODE and WIRE_LEN raise every error of the part they share. -/
theorem exec_of_packetBody_error {i : Instr} {s : State} {e : CmdError} (hi : i = .pktEncode ∨ i = .wireLen)
    (h : packetBody s = .error e) : exec i s = .next (s.commitErr e) := by
  rcases hi with rfl | rfl
  · exact exec_of_error (i := .pktEncode) (pktEncodeCmd_of_error h)
  · exact exec_of_error (i := .wireLen) (wireLenCmd_of_error h)

/-- Settles O41: the errors of the shared part, in their order. -/
theorem encodeErrors : Obligations.EncodeErrors := by
  intro i s attrs hi ht
  refine ⟨fun hout => ?_, fun hin => ⟨fun hlt => ⟨fun hbig => ?_, fun hn hout => ?_⟩, fun hlen hbig => ?_⟩⟩
  · exact exec_of_packetBody_error hi (packetBody_table_outside hout)
  · exact exec_of_packetBody_error hi
      (packetBody_of_descriptor_error hin ht hlt fun _ => encodeTable_tooLarge hbig)
  · exact exec_of_packetBody_error hi
      (packetBody_of_descriptor_error hin ht hlt fun _ => encodeTable_value_outside hn hout)
  · exact exec_of_packetBody_error hi (packetBody_tooLarge hin ht hlen hbig)

/-- Settles O42: both commands answer from the same body, and only PKT_ENCODE has an output region to check. -/
theorem wireLenPredictsEncode : Obligations.WireLenPredictsEncode := by
  intro s t u hwire hencode
  rw [exec_next hwire, exec_next hencode]
  simp only [commandOf]
  cases hbody : packetBody s with
  | error e =>
    rw [wireLenCmd_of_error hbody, pktEncodeCmd_of_error hbody]
    exact ⟨nofun, fun _ => rfl⟩
  | ok body =>
    obtain ⟨-, hmax, -⟩ := packetBody_ok hbody
    have hres0 := toNat_ofNat_of_le_pktMax (w := 32) (by decide) hmax
    rw [wireLenCmd_of_body hbody]
    refine ⟨fun _ => ⟨fun hin => ?_, fun hout => ?_⟩, nofun⟩
    · rw [pktEncodeCmd_of_body hbody (hres0 ▸ hin)]
      exact ⟨rfl, rfl⟩
    · rw [pktEncodeCmd_of_outside hbody (hres0 ▸ hout)]
      rfl

/-! ### The round trip (R164) -/

/-- A table of descriptors whose values stand where the descriptors say, as PKT_DECODE leaves them, holds its
attributes. -/
theorem tableHolds_of_descriptorBytes {u : State} {r : Nat} {attrs : List Attr} (hattrs : ∀ a ∈ attrs, Attr.ok a) :
    ∀ {o t : Nat}, u.lmem.readBytes t (4 * attrs.length) = descriptorBytes r o attrs →
      u.lmem.readBytes (r + o) (attrsBytes attrs).length = attrsBytes attrs →
      r + o + (attrsBytes attrs).length ≤ u.lmemSize → TableHolds u t attrs := by
  induction attrs with
  | nil => intros; trivial
  | cons a attrs ih =>
    intro o t htable hvalues hin
    obtain ⟨hok, hoks⟩ := List.forall_mem_cons.1 hattrs
    obtain ⟨htype, hvlen, hhigh, hlow, htail⟩ := readBytes_descriptorBytes_cons hok htable
    have hsize := lmemSize_le u
    rw [attrsBytes_cons, List.length_append, encodeAttr_length] at hvalues hin
    obtain ⟨hattr, hrest⟩ := List.append_inj (Memory.readBytes_append .. ▸ hvalues) (by simp)
    have hvalue : u.lmem.readBytes (r + o + 2) a.2.length = a.2 := by
      rw [Memory.readBytes_append] at hattr
      exact (List.append_inj (s₂ := [a.1, BitVec.ofNat 8 (2 + a.2.length)]) hattr rfl).2
    have hvoff : voffAt u.lmem t = r + o + 2 := by
      rw [voffAt, hhigh, hlow, BitVec.toNat_ofNat, BitVec.toNat_ofNat]
      omega
    refine ⟨⟨htype, hvlen, hok, ?_, by rw [hvoff, hvalue]⟩, ih hoks htail ?_ (by omega)⟩
    · rw [hvoff]
      exact .inr (by omega)
    · rwa [show r + (o + 2 + a.2.length) = r + o + (2 + a.2.length) by omega]

/-- A packet stored at `a` and a table stored apart from it, or empty, are both in LMEM, and the table holds the packet's
attributes. -/
theorem tableHolds_of_stored {u : State} {m : Memory} {header : List Byte} {attrs : List Attr} {a table : Nat}
    (hheader : header.length = 20) (hattrs : ∀ b ∈ attrs, Attr.ok b)
    (hlmem : u.lmem = (m.writeBytes a (header ++ attrsBytes attrs)).writeBytes table (descriptorBytes a 20 attrs))
    (hin : a + (20 + (attrsBytes attrs).length) ≤ u.lmemSize)
    (hapart : attrs.length = 0 ∨ Apart a (20 + (attrsBytes attrs).length) table (4 * attrs.length)) :
    TableHolds u table attrs := by
  rcases hapart with hempty | hapart
  · rw [List.length_eq_zero_iff.1 hempty]
    trivial
  have htable : u.lmem.readBytes table (4 * attrs.length) = descriptorBytes a 20 attrs := by
    rw [hlmem, ← descriptorBytes_length a 20 attrs]
    exact Memory.readBytes_writeBytes_same ..
  have hpacket : u.lmem.readBytes a (20 + (attrsBytes attrs).length) = header ++ attrsBytes attrs := by
    rw [hlmem, Memory.readBytes_writeBytes_apart (by rw [descriptorBytes_length]; exact hapart.symm), ← hheader,
      ← List.length_append]
    exact Memory.readBytes_writeBytes_same ..
  rw [Memory.readBytes_append] at hpacket
  exact tableHolds_of_descriptorBytes hattrs htable (List.append_inj hpacket (by simp [hheader])).2 (by omega)

/-- PKT_DECODE of a packet PKT_ENCODE stored from `s`, its table empty or apart from the packet (R164). -/
theorem exec_pktDecode_of_encoded {s v : State} {attrs : List Attr} (hattrs : ∀ a ∈ attrs, Attr.ok a)
    (hlen : s.hdrLength.toNat = 20 + (attrsBytes attrs).length) (hmax : 20 + (attrsBytes attrs).length ≤ 4096)
    (hlmem : v.lmem = s.lmem.writeBytes v.srcAddr (headerBytes s ++ attrsBytes attrs))
    (hcount : v.srcCount = 20 + (attrsBytes attrs).length)
    (hb : v.srcAddr + (20 + (attrsBytes attrs).length) ≤ v.lmemSize) (hin : v.InBounds v.dstAddr (4 * attrs.length))
    (hapart : attrs.length = 0 ∨
      Apart v.srcAddr (20 + (attrsBytes attrs).length) v.dstAddr (4 * attrs.length)) :
    ∃ u, exec .pktDecode v = .next u ∧ u.err = false ∧ u.pktHdr = s.pktHdr ∧ u.pktAuth = s.pktAuth
      ∧ u.res0.toNat = attrs.length ∧ u.res1 = 0#32 ∧ u.trailing = false ∧ TableHolds u v.dstAddr attrs := by
  have hraw : v.lmem.readBytes v.srcAddr v.srcCount =
      packetBytes s.hdrCode s.hdrIdent (20 + (attrsBytes attrs).length) s.pktAuth.toBytes (attrsBytes attrs) ++ [] := by
    rw [List.append_nil, ← hlen, ← headerBytes_append, hlmem, hcount, ← headerBytes_length s, ← List.length_append]
    exact Memory.readBytes_writeBytes_same ..
  have hhdr : hdrWord s.hdrCode s.hdrIdent (BitVec.ofNat 16 (20 + (attrsBytes attrs).length)) = s.pktHdr := by
    rw [← hlen, BitVec.ofNat_toNat]
    exact hdrWord_eta s.pktHdr
  have hnum := two_mul_length_le_attrsBytes attrs
  have hres0 := toNat_ofNat_of_le_pktMax (w := 32) (n := attrs.length) (by decide) (by omega)
  exact ⟨_, exec_pktDecode_of_packet (toBytes_length _) hattrs hraw (by omega) (by omega) hin, rfl, hhdr,
    ofBytes_toBytes _, hres0, rfl, rfl,
    tableHolds_of_stored (headerBytes_length s) hattrs
      (congrArg (Memory.writeBytes · v.dstAddr (descriptorBytes v.srcAddr 20 attrs)) hlmem) hb hapart⟩

/-- Settles O43: the datagram PKT_DECODE reads is the packet PKT_ENCODE stored, with no trailing bytes. -/
theorem packetRoundTrip : Obligations.PacketRoundTrip := by
  intro s t attrs table hn ht hexec herr hlen hin hapart
  obtain ⟨o, hcmd, rfl⟩ := exec_ok hexec herr
  obtain ⟨body, hbody, hdst, rfl⟩ := pktEncodeCmd_ok hcmd
  obtain ⟨-, hmax, -⟩ := packetBody_ok hbody
  obtain rfl := packetBody_ok_eq hbody hn ht
  have hres0 := toNat_ofNat_of_le_pktMax (w := 32) (by decide) hmax
  have hcount := toNat_ofNat_of_le_pktMax (w := 16) (by decide) hmax
  simp only [State.commitOk_res0, hres0, ← hn] at hlen hapart hin ⊢
  exact exec_pktDecode_of_encoded ht.attrs_ok hlen hmax rfl hcount hdst hin hapart

end Sys2Proof.Machine
end

section
/-! The password cipher statements of 42_password_cipher.md: what PWD_HIDE and PWD_UNHIDE commit (R180 to R182, R184), their
errors in the order of the checks (R182, R184), and that unhiding gives back the padded plaintext (R185). -/

namespace Sys2Proof.Machine

/-! ### The region checks in their order (60_exceptions.md R225) -/

theorem cipherBounds_src_outside {s : State} (hsrc : ¬ s.InBounds s.srcAddr s.srcCount) :
    cipherBounds s = some (boundsError 0 regionSrc) := if_pos hsrc

theorem cipherBounds_key_outside {s : State} (hsrc : s.InBounds s.srcAddr s.srcCount)
    (hkey : ¬ s.InBounds s.keyAddr s.keyCount) : cipherBounds s = some (boundsError 0 regionKey) :=
  (if_neg (not_not_intro hsrc)).trans (if_pos hkey)

theorem cipherBounds_ra_outside {s : State} (hsrc : s.InBounds s.srcAddr s.srcCount)
    (hkey : s.InBounds s.keyAddr s.keyCount) (hra : s.lmemSize < s.raAddr + 16) :
    cipherBounds s = some (boundsError 0 regionRa) := by
  have hout : ¬ s.InBounds s.raAddr blk := by simp only [blk]; omega
  exact (if_neg (not_not_intro hsrc)).trans ((if_neg (not_not_intro hkey)).trans (if_pos hout))

/-! ### The blocks of what the commands store (R180) -/

theorem padPlain_readBytes (m : Memory) (a n : Nat) :
    padPlain (m.readBytes a n) = m.readBytes a n ++ List.replicate (cipherLength n - n) 0#8 := by
  rw [padPlain, Memory.readBytes_length]

theorem padPlain_readBytes_length (m : Memory) (a n : Nat) :
    (padPlain (m.readBytes a n)).length = 16 * (cipherLength n / 16) := by
  rw [padPlain_length, Memory.readBytes_length, Nat.mul_div_cancel' (Nat.dvd_of_mod_eq_zero (cipherLength_mod n))]

/-- A block of a region is the block's own region. -/
theorem readBytes_block (m : Memory) (a : Nat) {n i : Nat} (h : i < n / 16) :
    ((m.readBytes a n).drop (16 * i)).take 16 = m.readBytes (a + 16 * i) 16 := by
  rw [Memory.readBytes_drop m a (by omega), Memory.readBytes_take m _ (by omega)]

theorem hidden_block (s : State) {i : Nat} (h : i < cipherLength s.srcCount / 16) :
    ((hidden s).drop (16 * i)).take 16 =
      xorBytes (((padPlain (s.lmem.readBytes s.srcAddr s.srcCount)).drop (16 * i)).take 16)
        (md5 (s.lmem.readBytes s.keyAddr s.keyCount ++
          if i = 0 then s.lmem.readBytes s.raAddr 16 else ((hidden s).drop (16 * (i - 1))).take 16)) :=
  hideBlocks_block _ _ _ _ (padPlain_readBytes_length ..) i h

theorem unhidden_block {s : State} (hmod : s.srcCount % 16 = 0) {i : Nat} (h : i < s.srcCount / 16) :
    ((unhidden s).drop (16 * i)).take 16 =
      xorBytes (s.lmem.readBytes (s.srcAddr + 16 * i) 16)
        (md5 (s.lmem.readBytes s.keyAddr s.keyCount ++
          if i = 0 then s.lmem.readBytes s.raAddr 16 else s.lmem.readBytes (s.srcAddr + 16 * (i - 1)) 16)) := by
  have hlen : (s.lmem.readBytes s.srcAddr s.srcCount).length = 16 * (s.srcCount / 16) := by
    rw [Memory.readBytes_length, Nat.mul_div_cancel' (Nat.dvd_of_mod_eq_zero hmod)]
  rw [← readBytes_block _ _ h, ← readBytes_block _ _ (lt_of_le_of_lt (Nat.sub_le i 1) h)]
  exact unhideBlocks_block _ _ _ _ hlen i h

/-! ### PWD_HIDE (R181, R182) -/

theorem exec_pwdHide_of_fits {s : State} (hlen : s.srcCount ≤ 240) (hsrc : s.InBounds s.srcAddr s.srcCount)
    (hkey : s.InBounds s.keyAddr s.keyCount) (hra : s.raAddr + 16 ≤ s.lmemSize)
    (hdst : s.dstAddr + cipherLength s.srcCount ≤ s.lmemSize) :
    exec .pwdHide s = .next { s.succeeded (cipherLength s.srcCount) 0 0 with
      lmem := s.lmem.writeBytes s.dstAddr (hidden s) } := by
  rw [exec_of_ok (i := .pwdHide) (pwdHideCmd_eq hlen hsrc hkey hra hdst), commitOk_eq_succeeded rfl rfl rfl]
  rfl

theorem exec_pwdHide_of_cipherBounds {s : State} {e : CmdError} (hlen : s.srcCount ≤ 240) (h : cipherBounds s = some e) :
    exec .pwdHide s = .next (s.commitErr e) := by
  have hcmd : pwdHideCmd s = .error e := by rw [pwdHideCmd, if_neg (Nat.not_lt.2 hlen), h]
  exact exec_of_error (i := .pwdHide) hcmd

theorem exec_pwdHide_dst_outside {s : State} (hlen : s.srcCount ≤ 240) (h : cipherBounds s = none)
    (hdst : s.lmemSize < s.dstAddr + cipherLength s.srcCount) :
    exec .pwdHide s = .next (s.failed 0x02#8 0 2) := by
  have hout : ¬ s.InBounds s.dstAddr (cipherLength s.srcCount) := by
    have := cipherLength_pos s.srcCount
    omega
  have hcmd : pwdHideCmd s = .error (boundsError 0 regionDst) := by
    rw [pwdHideCmd, if_neg (Nat.not_lt.2 hlen), h]
    exact if_pos hout
  exact exec_of_error (i := .pwdHide) hcmd

/-- Settles O46: the ciphertext stored is `hidden`, block by block. -/
theorem pwdHideResult : Obligations.PwdHideResult := by
  intro s hlen hsrc hkey hra hdst
  refine ⟨_, hidden s, exec_pwdHide_of_fits hlen hsrc hkey hra hdst, ?_, stored_writeBytes s.lmem _ _,
    hidden_length s, fun i hi => ?_⟩
  · rw [hidden_length]
  · rw [hidden_length] at hi ⊢
    rw [← padPlain_readBytes]
    exact hidden_block s hi

/-- Settles O47: the length first, then the three regions read, then the output. -/
theorem pwdHideErrors : Obligations.PwdHideErrors := by
  intro s
  refine ⟨fun hbig => exec_of_error (i := .pwdHide) (if_pos hbig), fun hlen => ⟨fun hsrc => ?_, fun hsrc =>
    ⟨fun hkey => ?_, fun hkey => ⟨fun hra => ?_, fun hra hdst => ?_⟩⟩⟩⟩
  · exact exec_pwdHide_of_cipherBounds hlen (cipherBounds_src_outside hsrc)
  · exact exec_pwdHide_of_cipherBounds hlen (cipherBounds_key_outside hsrc hkey)
  · exact exec_pwdHide_of_cipherBounds hlen (cipherBounds_ra_outside hsrc hkey hra)
  · exact exec_pwdHide_dst_outside hlen (cipherBounds_eq_none.2 ⟨hsrc, hkey, hra⟩) hdst

/-! ### PWD_UNHIDE (R184) -/

/-- The ciphertext lengths PWD_UNHIDE accepts (R184). -/
def State.CipherCount (s : State) : Prop := s.srcCount ≠ 0 ∧ s.srcCount % 16 = 0 ∧ s.srcCount ≤ 240

theorem State.CipherCount.not_refused {s : State} (h : s.CipherCount) :
    ¬ (s.srcCount = 0 ∨ s.srcCount % blk ≠ 0 ∨ s.srcCount > hideMax) := by
  obtain ⟨hpos, hmod, hmax⟩ := h
  simp only [blk, hideMax]
  omega

theorem exec_pwdUnhide_of_fits {s : State} (hlen : s.CipherCount) (hsrc : s.srcAddr + s.srcCount ≤ s.lmemSize)
    (hkey : s.InBounds s.keyAddr s.keyCount) (hra : s.raAddr + 16 ≤ s.lmemSize)
    (hdst : s.dstAddr + s.srcCount ≤ s.lmemSize) :
    exec .pwdUnhide s = .next { s.succeeded s.srcCount (strippedLength (unhidden s)) 0 with
      lmem := s.lmem.writeBytes s.dstAddr (unhidden s) } := by
  obtain ⟨hpos, hmod, hmax⟩ := hlen
  rw [exec_of_ok (i := .pwdUnhide) (pwdUnhideCmd_eq hpos hmod hmax (.inr hsrc) hkey hra hdst),
    commitOk_eq_succeeded rfl rfl rfl]
  rfl

theorem exec_pwdUnhide_of_cipherBounds {s : State} {e : CmdError} (hlen : s.CipherCount) (h : cipherBounds s = some e) :
    exec .pwdUnhide s = .next (s.commitErr e) := by
  have hcmd : pwdUnhideCmd s = .error e := by rw [pwdUnhideCmd, if_neg hlen.not_refused, h]
  exact exec_of_error (i := .pwdUnhide) hcmd

theorem exec_pwdUnhide_dst_outside {s : State} (hlen : s.CipherCount) (h : cipherBounds s = none)
    (hdst : s.lmemSize < s.dstAddr + s.srcCount) : exec .pwdUnhide s = .next (s.failed 0x02#8 0 2) := by
  have ⟨hpos, _, _⟩ := hlen
  have hout : ¬ s.InBounds s.dstAddr s.srcCount := not_or_intro hpos (Nat.not_le.2 hdst)
  have hcmd : pwdUnhideCmd s = .error (boundsError 0 regionDst) := by
    rw [pwdUnhideCmd, if_neg hlen.not_refused, h]
    exact if_pos hout
  exact exec_of_error (i := .pwdUnhide) hcmd

/-- Settles O48: the plaintext stored is `unhidden`, block by block, and `strippedLength` is its length without zeros. -/
theorem pwdUnhideResult : Obligations.PwdUnhideResult := by
  intro s hpos hmod hmax hsrc hkey hra hdst
  have hplain := unhidden_length hmod
  obtain ⟨hzeros, hlast⟩ := strippedLength_spec (unhidden s)
  have hle := strippedLength_le (unhidden s)
  rw [hplain] at hzeros hle
  exact ⟨_, unhidden s, strippedLength (unhidden s), exec_pwdUnhide_of_fits ⟨hpos, hmod, hmax⟩ hsrc hkey hra hdst, rfl,
    stored_writeBytes s.lmem _ _, hplain, hle, hzeros, hlast, fun _ hi => unhidden_block hmod hi⟩

/-- Settles O49: the length first, then the three regions read, then the output. -/
theorem pwdUnhideErrors : Obligations.PwdUnhideErrors := by
  intro s
  refine ⟨fun hbad => exec_of_error (i := .pwdUnhide) (if_pos hbad), fun hpos hmod hmax => ⟨fun hsrc => ?_, fun hsrc =>
    ⟨fun hkey => ?_, fun hkey => ⟨fun hra => ?_, fun hra hdst => ?_⟩⟩⟩⟩
  all_goals have hlen : s.CipherCount := ⟨hpos, hmod, hmax⟩
  · exact exec_pwdUnhide_of_cipherBounds hlen (cipherBounds_src_outside (not_or_intro hpos (Nat.not_le.2 hsrc)))
  · exact exec_pwdUnhide_of_cipherBounds hlen (cipherBounds_key_outside (.inr hsrc) hkey)
  · exact exec_pwdUnhide_of_cipherBounds hlen (cipherBounds_ra_outside (.inr hsrc) hkey hra)
  · exact exec_pwdUnhide_dst_outside hlen (cipherBounds_eq_none.2 ⟨.inr hsrc, hkey, hra⟩) hdst

/-! ### The involution (R185) -/

/-- Stripping the padded plaintext gives the plaintext's length back, when it does not end in a zero byte. -/
theorem strippedLength_padPlain_readBytes {m : Memory} {a n : Nat} (h : n = 0 ∨ m.read (a + n - 1) ≠ 0#8) :
    strippedLength (padPlain (m.readBytes a n)) = n := by
  rw [padPlain, strippedLength_append_zeros, Memory.readBytes_length]
  rcases Nat.eq_zero_or_pos n with rfl | hpos
  · exact .inl rfl
  · have hlast : m.read (a + n - 1) ≠ 0#8 := h.resolve_left (by omega)
    rw [Memory.readBytes_length, Memory.readBytes_getD (by omega), ← Nat.add_sub_assoc hpos]
    exact .inr hlast

/-- `s` after PWD_HIDE succeeded in it, with SRC set to the ciphertext and DST_PTR to `dst`: where PWD_UNHIDE undoes it. -/
def State.unhiding (s : State) (dst : Half) : State :=
  { s.commitOk { write := some (s.dstAddr, hidden s), res0 := cipherLength s.srcCount } with
    srcPtr := s.dstPtr, srcLen := BitVec.ofNat 16 (cipherLength s.srcCount), dstPtr := dst }

theorem unhiding_srcCount {s : State} (h : s.srcCount ≤ 240) (dst : Half) :
    (s.unhiding dst).srcCount = cipherLength s.srcCount :=
  toNat_ofNat_of_le_pktMax (by decide) ((cipherLength_le h).trans (by decide))

theorem unhiding_cipherCount {s : State} (h : s.srcCount ≤ 240) (dst : Half) : (s.unhiding dst).CipherCount := by
  have := cipherLength_pos s.srcCount
  rw [State.CipherCount, unhiding_srcCount h]
  exact ⟨by omega, cipherLength_mod _, cipherLength_le h⟩

/-- With the secret (or an empty one) and the Request Authenticator apart from the ciphertext, PWD_UNHIDE reads both as
PWD_HIDE did, and its chain undoes PWD_HIDE's. -/
theorem unhidden_unhiding {s : State} (dst : Half) (hlen : s.srcCount ≤ 240)
    (hkey : s.keyCount = 0 ∨ Apart s.dstAddr (cipherLength s.srcCount) s.keyAddr s.keyCount)
    (hra : Apart s.dstAddr (cipherLength s.srcCount) s.raAddr 16) :
    unhidden (s.unhiding dst) = padPlain (s.lmem.readBytes s.srcAddr s.srcCount) := by
  rw [← hidden_length] at hkey hra
  have hcipher : (s.unhiding dst).lmem.readBytes (s.unhiding dst).srcAddr (cipherLength s.srcCount) = hidden s := by
    rw [← hidden_length]
    exact Memory.readBytes_writeBytes_same ..
  have hsecret : (s.unhiding dst).lmem.readBytes (s.unhiding dst).keyAddr (s.unhiding dst).keyCount =
      s.lmem.readBytes s.keyAddr s.keyCount := by
    rcases hkey with hempty | hapart
    · have hempty' : (s.unhiding dst).keyCount = 0 := hempty
      rw [hempty, hempty', Memory.readBytes_zero, Memory.readBytes_zero]
    · exact Memory.readBytes_writeBytes_apart hapart
  have hauth : (s.unhiding dst).lmem.readBytes (s.unhiding dst).raAddr 16 = s.lmem.readBytes s.raAddr 16 :=
    Memory.readBytes_writeBytes_apart hra
  rw [unhidden, unhiding_srcCount hlen, hcipher, hsecret, hauth]
  exact unhideBlocks_hideBlocks _ _ _ _ (padPlain_readBytes_length ..)

/-- Settles O50: PWD_UNHIDE runs in `s.unhiding dst`, and recovers the padded plaintext there. -/
theorem cipherInvolution : Obligations.CipherInvolution := by
  intro s t dst hexec herr hkey hra hdst
  obtain ⟨o, hcmd, rfl⟩ := exec_ok hexec herr
  obtain ⟨hlen, -, hkeyIn, hraIn, hout, rfl⟩ := pwdHideCmd_ok hcmd
  have hplain := unhidden_unhiding dst hlen hkey hra
  have hcount := unhiding_srcCount hlen dst
  refine ⟨_, exec_pwdUnhide_of_fits (s := s.unhiding dst) (unhiding_cipherCount hlen dst) ?_ hkeyIn hraIn ?_, rfl, ?_,
    fun hlast => ?_⟩
  · rw [hcount]
    exact hout
  · rw [hcount]
    exact hdst
  · rw [← padPlain_readBytes, ← hplain]
    exact stored_writeBytes (s.unhiding dst).lmem _ _
  · change (BitVec.ofNat 32 (strippedLength (unhidden (s.unhiding dst)))).toNat = s.srcCount
    rw [hplain, strippedLength_padPlain_readBytes hlast]
    exact toNat_ofNat_of_le_pktMax (by decide) (hlen.trans (by decide))

end Sys2Proof.Machine
end

section
/-! The response authenticator statements of 43_response_authenticator.md: what RESP_SIGN commits (R200, R201), its errors in
the order of the checks (R201), and that the response's old authenticator never affects the signature (R203). -/

namespace Sys2Proof.Machine

/-! ### The signed string (R200) -/

/-- The signed string as its four regions of LMEM: the response's first four bytes, the Request Authenticator, the response
from byte 20 on, the secret. -/
theorem responseDigest_eq {s : State} (h : 20 ≤ s.srcCount) :
    responseDigest s = md5 (s.lmem.readBytes s.srcAddr 4 ++ (s.lmem.readBytes s.raAddr 16 ++
      (s.lmem.readBytes (s.srcAddr + 20) (s.srcCount - 20) ++ s.lmem.readBytes s.keyAddr s.keyCount))) := by
  rw [responseDigest, signedString, Memory.readBytes_take _ _ (by omega), Memory.readBytes_drop _ _ h]

/-! ### What RESP_SIGN commits (R201) -/

/-- The response lengths RESP_SIGN accepts (R201). -/
def State.ResponseCount (s : State) : Prop := 20 ≤ s.srcCount ∧ s.srcCount ≤ 4096

theorem responseCount_iff_not_refused {s : State} :
    s.ResponseCount ↔ ¬ (s.srcCount < pktMin ∨ s.srcCount > pktMax) := by
  simp only [State.ResponseCount, pktMin, pktMax]
  omega

theorem exec_respSign_of_fits {s : State} (hlen : s.ResponseCount) (hsrc : s.srcAddr + s.srcCount ≤ s.lmemSize)
    (hkey : s.InBounds s.keyAddr s.keyCount) (hra : s.raAddr + 16 ≤ s.lmemSize) :
    exec .respSign s = .next { s.succeeded 16 0 0 with
      digest := Lanes.ofBytes (responseDigest s), lmem := s.lmem.writeBytes (s.srcAddr + 4) (responseDigest s) } :=
  exec_of_ok (i := .respSign) (respSignCmd_eq hlen.1 hlen.2 hsrc hkey hra)

theorem respSignCmd_src_outside {s : State} (hlen : s.ResponseCount) (hsrc : s.lmemSize < s.srcAddr + s.srcCount) :
    respSignCmd s = .error (boundsError 0 regionSrc) := by
  have hout : ¬ s.InBounds s.srcAddr s.srcCount := by
    obtain ⟨hmin, -⟩ := hlen
    omega
  rw [respSignCmd, if_neg (responseCount_iff_not_refused.1 hlen), if_pos hout]

theorem respSignCmd_key_outside {s : State} (hlen : s.ResponseCount) (hsrc : s.srcAddr + s.srcCount ≤ s.lmemSize)
    (hkey : ¬ s.InBounds s.keyAddr s.keyCount) : respSignCmd s = .error (boundsError 0 regionKey) := by
  rw [respSignCmd, if_neg (responseCount_iff_not_refused.1 hlen), if_neg (not_not_intro (.inr hsrc)), if_pos hkey]

theorem respSignCmd_ra_outside {s : State} (hlen : s.ResponseCount) (hsrc : s.srcAddr + s.srcCount ≤ s.lmemSize)
    (hkey : s.InBounds s.keyAddr s.keyCount) (hra : s.lmemSize < s.raAddr + 16) :
    respSignCmd s = .error (boundsError 0 regionRa) := by
  have hout : ¬ s.InBounds s.raAddr 16 := by omega
  rw [respSignCmd, if_neg (responseCount_iff_not_refused.1 hlen), if_neg (not_not_intro (.inr hsrc)),
    if_neg (not_not_intro hkey), if_pos hout]

/-- Settles O51: the digest stored is `responseDigest`, the MD5 of the four regions. -/
theorem respSignResult : Obligations.RespSignResult := by
  intro s digest hmin hmax hsrc hkey hra hdigest
  rw [← responseDigest_eq hmin] at hdigest
  subst hdigest
  exact ⟨_, exec_respSign_of_fits ⟨hmin, hmax⟩ hsrc hkey hra, rfl, stored_writeBytes s.lmem _ _⟩

/-- Settles O52: the length first, then the response, the secret and the Request Authenticator. -/
theorem respSignErrors : Obligations.RespSignErrors := by
  intro s
  refine ⟨fun hbad => exec_of_error (i := .respSign) (if_pos hbad), fun hmin hmax => ⟨fun hsrc => ?_, fun hsrc =>
    ⟨fun hkey => ?_, fun hkey hra => ?_⟩⟩⟩
  all_goals have hlen : s.ResponseCount := ⟨hmin, hmax⟩
  · exact exec_of_error (i := .respSign) (respSignCmd_src_outside hlen hsrc)
  · exact exec_of_error (i := .respSign) (respSignCmd_key_outside hlen hsrc hkey)
  · exact exec_of_error (i := .respSign) (respSignCmd_ra_outside hlen hsrc hkey hra)

/-! ### The old authenticator (R203) -/

/-- Two states of one build with the operands RESP_SIGN reads in common (30_encoding.md R103). -/
structure SameSignOperands (s s' : State) : Prop where
  srcPtr : s'.srcPtr = s.srcPtr
  srcLen : s'.srcLen = s.srcLen
  keyPtr : s'.keyPtr = s.keyPtr
  keyLen : s'.keyLen = s.keyLen
  raPtr : s'.raPtr = s.raPtr
  params : s'.params = s.params

namespace SameSignOperands

variable {s s' : State}

theorem srcAddr_eq (h : SameSignOperands s s') : s'.srcAddr = s.srcAddr := congrArg BitVec.toNat h.srcPtr
theorem srcCount_eq (h : SameSignOperands s s') : s'.srcCount = s.srcCount := congrArg BitVec.toNat h.srcLen
theorem keyAddr_eq (h : SameSignOperands s s') : s'.keyAddr = s.keyAddr := congrArg BitVec.toNat h.keyPtr
theorem keyCount_eq (h : SameSignOperands s s') : s'.keyCount = s.keyCount := congrArg BitVec.toNat h.keyLen
theorem raAddr_eq (h : SameSignOperands s s') : s'.raAddr = s.raAddr := congrArg BitVec.toNat h.raPtr
theorem lmemSize_eq (h : SameSignOperands s s') : s'.lmemSize = s.lmemSize :=
  congrArg (fun p : Params => p.lmemSize.bytes) h.params

/-- The checks of RESP_SIGN look at the operands alone, so with a digest in common the whole answer is. -/
theorem respSignCmd_congr (h : SameSignOperands s s') (hdigest : s.ResponseCount → responseDigest s' = responseDigest s) :
    respSignCmd s' = respSignCmd s := by
  by_cases hlen : s.ResponseCount
  · simp only [respSignCmd, State.InBounds, h.srcAddr_eq, h.srcCount_eq, h.keyAddr_eq, h.keyCount_eq, h.raAddr_eq,
      h.lmemSize_eq, hdigest hlen]
  · have hbad := not_not.1 (mt responseCount_iff_not_refused.2 hlen)
    rw [respSignCmd, respSignCmd, h.srcCount_eq, if_pos hbad, if_pos hbad]

end SameSignOperands

/-- Two memories that agree outside a region give the same byte string of a region apart from it, or of an empty one. -/
theorem readBytes_eq_of_agree_outside {m m' : Memory} {a n b k : Nat}
    (hagree : ∀ x, ¬ (a ≤ x ∧ x < a + n) → m'.read x = m.read x) (happart : k = 0 ∨ Apart a n b k) :
    m'.readBytes b k = m.readBytes b k := by
  refine Memory.readBytes_congr fun x hlo hhi => hagree x ?_
  unfold Apart at happart
  omega

/-- None of the four regions of the signed string meets the response's authenticator field. -/
theorem responseDigest_eq_of_agree_outside {s s' : State} (hops : SameSignOperands s s') (hmin : 20 ≤ s.srcCount)
    (hagree : ∀ x, ¬ (s.srcAddr + 4 ≤ x ∧ x < s.srcAddr + 20) → s'.lmem.read x = s.lmem.read x)
    (hra : Apart (s.srcAddr + 4) 16 s.raAddr 16)
    (hkey : s.keyCount = 0 ∨ Apart (s.srcAddr + 4) 16 s.keyAddr s.keyCount) :
    responseDigest s' = responseDigest s := by
  have hfield : ∀ x, ¬ (s.srcAddr + 4 ≤ x ∧ x < s.srcAddr + 4 + 16) → s'.lmem.read x = s.lmem.read x := hagree
  have hhead : s'.lmem.readBytes s.srcAddr 4 = s.lmem.readBytes s.srcAddr 4 :=
    readBytes_eq_of_agree_outside hfield (.inr (.inr le_rfl))
  have hauth : s'.lmem.readBytes s.raAddr 16 = s.lmem.readBytes s.raAddr 16 :=
    readBytes_eq_of_agree_outside hfield (.inr hra)
  have htail : s'.lmem.readBytes (s.srcAddr + 20) (s.srcCount - 20) =
      s.lmem.readBytes (s.srcAddr + 20) (s.srcCount - 20) :=
    readBytes_eq_of_agree_outside hfield (.inr (.inl le_rfl))
  have hsecret : s'.lmem.readBytes s.keyAddr s.keyCount = s.lmem.readBytes s.keyAddr s.keyCount :=
    readBytes_eq_of_agree_outside hfield hkey
  rw [responseDigest_eq (hops.srcCount_eq ▸ hmin), responseDigest_eq hmin, hops.srcAddr_eq, hops.srcCount_eq,
    hops.keyAddr_eq, hops.keyCount_eq, hops.raAddr_eq, hhead, hauth, htail, hsecret]

/-- Settles O53: RESP_SIGN answers the same in both states, and the answer decides the report and the digest. -/
theorem oldAuthenticatorNeverSigned : Obligations.OldAuthenticatorNeverSigned := by
  intro s s' t t' hsrcPtr hsrcLen hkeyPtr hkeyLen hraPtr hparams hagree hra hkey hexec hexec'
  have hops : SameSignOperands s s' := ⟨hsrcPtr, hsrcLen, hkeyPtr, hkeyLen, hraPtr, hparams⟩
  have hcmd : commandOf .respSign s' = commandOf .respSign s :=
    hops.respSignCmd_congr fun hlen => responseDigest_eq_of_agree_outside hops hlen.1 hagree hra hkey
  obtain rfl := exec_next hexec'
  rw [hcmd]
  rcases exec_cases hexec with ⟨o, hok, rfl⟩ | ⟨e, herror, rfl⟩
  · obtain ⟨-, -, -, -, -, rfl⟩ := respSignCmd_ok hok
    rw [hok]
    exact ⟨rfl, rfl, rfl, rfl, fun _ => rfl⟩
  · rw [herror]
    exact ⟨rfl, rfl, rfl, rfl, nofun⟩

end Sys2Proof.Machine
end

section
/-! The exception statements of 60_exceptions.md: the engine's turn runs the latched command (R223), every command and
every turn completes (R226), and an error discards every output (R224). -/

namespace Sys2Proof.Machine

/-! ### The engine's turn -/

theorem engineTurn_of_idle {s : State} (hp : s.phase = .idle) : engineTurn s = .next s := by
  rw [engineTurn, hp]

/-- While BUSY with an OP that stands for a command, the engine's turn is that command (60_exceptions.md R223). -/
theorem engineTurn_of_decodeOp {s : State} {i : Instr} (hp : s.phase = .busy) (hi : decodeOp s.op = .ok i) :
    engineTurn s = exec i s := by
  rw [engineTurn_busy hp, latchedResult_of_opcode (decodeOp_eq_ok.1 hi), exec_eq]

/-- Settles O4: with the turn next or nothing next, a step is the engine's turn, and the turn is the latched command. -/
theorem stepRunsLatchedCommand : Obligations.StepRunsLatchedCommand := by
  intro s i hp hi _
  have hturn := engineTurn_of_decodeOp hp hi
  exact ⟨(step_before_engine s).trans hturn, fun hempty => (step_empty hempty).trans hturn⟩

/-- The engine's turn gives a next state in either phase, whatever OP holds. -/
theorem engineTurn_next (s : State) : ∃ t, engineTurn s = .next t := by
  cases hp : s.phase with
  | idle => exact ⟨s, engineTurn_of_idle hp⟩
  | busy => exact ⟨_, engineTurn_busy hp⟩

/-! ### Which steps give a next state -/

/-- An access outside both windows does not reach the block (20_memory.md R71; log 7). -/
theorem hostAccess_outside {a : HostAccess} {s : State} (h : s.target (accessAddr a) = .outside) :
    hostAccess a s = .fault (.outsideWindows (accessAddr a)) := by
  cases a with
  | read addr width =>
    simp only [accessAddr] at h
    simp only [hostAccess, h, accessAddr]
  | write addr width v =>
    simp only [accessAddr] at h
    simp only [hostAccess, h, accessAddr]

/-- A step gives a next state, or its event is an access outside both windows, and then it faults. -/
theorem step_next_or_outside (s : State) :
    (∃ t, step s = .next t)
      ∨ ∃ a rest, s.inbox = .access a :: rest ∧ s.target (accessAddr a) = .outside
          ∧ step s = .fault (.outsideWindows (accessAddr a)) := by
  cases hinbox : s.inbox with
  | nil => exact .inl (step_empty hinbox ▸ engineTurn_next s)
  | cons x rest =>
    cases x with
    | engine => exact .inl (step_of_inbox_engine hinbox ▸ engineTurn_next _)
    | access a =>
      rw [step_of_inbox_access hinbox]
      by_cases hout : s.target (accessAddr a) = .outside
      · exact .inr ⟨a, rest, rfl, hout, hostAccess_outside (s := { s with inbox := rest }) hout⟩
      · exact .inl (hostAccess_next (s := { s with inbox := rest }) hout)

/-- Settles O22: a command is a commit, and a step that gives no next state is the fault of an outside access. -/
theorem onlyOutsideAccessesFault : Obligations.OnlyOutsideAccessesFault := by
  refine ⟨fun i s => ⟨_, exec_eq i s⟩, fun s r hrefused => ?_, fun s f hfault => ?_⟩
  · rcases step_next_or_outside s with ⟨t, hnext⟩ | ⟨a, rest, -, -, hfault⟩
    · exact nomatch hnext.symm.trans hrefused
    · exact nomatch hfault.symm.trans hrefused
  · rcases step_next_or_outside s with ⟨t, hnext⟩ | ⟨a, rest, hinbox, hout, houtside⟩
    · exact nomatch hnext.symm.trans hfault
    · obtain ⟨hreg, hlmem⟩ := target_eq_outside hout
      exact ⟨a, rest, hinbox, Host.Outcome.fault.inj (hfault.symm.trans houtside), hreg, hlmem⟩

/-! ### What an error leaves -/

/-- The codes of the errors a command can raise (60_exceptions.md R221). -/
theorem ErrCode.value_mem (c : ErrCode) :
    c.value ∈ [0x01#8, 0x02#8, 0x10#8, 0x11#8, 0x12#8, 0x13#8, 0x14#8, 0x15#8, 0x16#8, 0x20#8, 0x21#8] := by
  cases c <;> decide

/-- While BUSY, a turn that leaves ERR = 1 is the commit of an error, of a command or of a reserved OP. -/
theorem engineTurn_busy_error {s t : State} (hp : s.phase = .busy) (h : engineTurn s = .next t) (herr : t.err = true) :
    ∃ e, t = s.commitErr e := by
  obtain rfl := Host.Outcome.next.inj ((engineTurn_busy hp).symm.trans h)
  cases hresult : latchedResult s with
  | ok o =>
    rw [hresult] at herr
    exact nomatch herr
  | error e => exact ⟨e, rfl⟩

/-- Settles O24: such a turn commits an error, and the commit of an error writes the phase and the report alone. -/
theorem errorDiscardsOutputs : Obligations.ErrorDiscardsOutputs := by
  intro s t hp hstep herr
  obtain ⟨e, rfl⟩ := engineTurn_busy_error hp ((step_before_engine s).symm.trans hstep) herr
  exact ⟨rfl, e.code.value_mem⟩

end Sys2Proof.Machine
end

section
/-! The power-on reset of 70_reset_and_hazards.md R260: every register at its reset value and no command pending. -/

namespace Sys2Proof.Machine

/-- After reset no flag stands and ERRCODE is 0. -/
@[simp] theorem statusWord_reset : State.reset.statusWord = 0#32 := rfl

/-- After reset SUB and POS are 0. -/
@[simp] theorem errinfoWord_reset : State.reset.errinfoWord = 0#32 := rfl

/-- The reset column of 10_state.md R32: ID is the one register that does not read 0. -/
theorem readReg_reset (r : RegName) : State.reset.readReg r = if r = .ident then idValue else 0#32 := by
  cases r with
  | ident => exact (if_pos rfl).symm
  | status => exact statusWord_reset
  | errinfo => exact errinfoWord_reset
  | ctrl | cmd | srcPtr | srcLen | dstPtr | keyPtr | keyLen | raPtr | aux | pktHdr | pktAuth0 | pktAuth1 | pktAuth2
  | pktAuth3 | res0 | res1 | res2 | digest0 | digest1 | digest2 | digest3 => rfl

/-- Settles O15: the registers read the reset column of R32, and the engine, IDLE after reset, has nothing to commit. -/
theorem powerOnResetValues : Obligations.PowerOnResetValues :=
  ⟨readReg_reset, State.reset_phase, State.reset_op, engineTurn_of_idle State.reset_phase⟩

end Sys2Proof.Machine
end
